-- ==== Sys2Proof/Word.lean ====
section
/-! DEFINITION. What a word of the BFP posit core is.

Rule R10: "a quantity is a mathematical integer (unbounded, signed). A `k`-bit word is an integer in
`[0, 2^k)`." The storage width `W` is a configuration parameter (rule R6) and the width of a view is a
field of the request (rule R5), so no word of this hardware has a width that a Lean type could fix: a
word is a `Nat`, and its width is a checked predicate. -/

namespace Sys2Proof

/-- `x` is a `k`-bit word, an integer in `[0, 2^k)` (R10). -/
abbrev Word.fits (k x : Nat) : Bool := decide (x < 2 ^ k)

end Sys2Proof
end

