-- ==== Sys2Proof/Config.lean ====
section
/-! DEFINITION. The configuration parameters: what one implementation of the core fixes.

Rules R6, R8 and R220: `W`, `ES_MAX`, `RW`, `NW` and `ADD_TIE` "are constants of the instance, not
state". They are OPEN parameters of the spec (92_eei_decisions.md D2, D3, D25), so the model takes them
as one record; the machine carries that record unchanged (log entry 2). -/

namespace Sys2Proof

/-- `ADD_TIE`: the tie-break policy of the general addition path (R8, R142; D25 leaves it open). -/
inductive AddTie where
  /-- round to nearest, ties to even (the recommended default) -/
  | even
  /-- round to nearest, ties away from zero -/
  | away
  deriving DecidableEq, Repr

/-- The configuration parameters of the block (R6, R8). -/
structure Config where
  /-- `W`: storage width, the largest `nbits` the system supports (R6) -/
  W : Nat
  /-- `ES_MAX`: largest `es` a request may carry, and the width of the exponent port (R8, R50) -/
  esMax : Nat
  /-- `RW`: width of the signed regime port (R8) -/
  RW : Nat
  /-- `NW`: width of the unsigned integer result port (R8) -/
  NW : Nat
  /-- `ADD_TIE` (R8) -/
  addTie : AddTie
  deriving DecidableEq, Repr

/-- The recommended defaults of rules R6 and R8, at which R57 prints its bit positions and
`opcode_table.json` its field ranges. -/
def Config.default : Config :=
  { W := 32, esMax := 8, RW := 32, NW := 64, addTie := .even }

/-- What the spec requires of a configuration: `W >= 2` (R6); `RW >= bitlen(W) + 1`, which is
`W < 2^(RW-1)` (R60); `NW >= 64` for TOF64 (R118). The last clause, `W <= NW`, is DEDUCED (log entry 6):
GETBITS writes an `nbits`-bit view to the `NW`-bit port, and `zext_N(v)` needs `v < 2^N` (R11). -/
abbrev Config.legal (c : Config) : Bool :=
  decide (2 ≤ c.W) && decide (c.W < 2 ^ (c.RW - 1)) && decide (64 ≤ c.NW) && decide (c.W ≤ c.NW)

end Sys2Proof
end

