-- ==== Sys2Proof/Syntax.lean ====
section
/-! DEFINITION. Syntax: the format parameters, the posit value, the unpacked record, the 33 operations of
the operation-select map (rule R52) and the request record of rule R50. -/

namespace Sys2Proof

/-- The format parameters `(nbits, es)`, fields of every request (R5, R50). -/
structure Fmt where
  nbits : Nat
  es : Nat
  deriving DecidableEq, Repr

/-- A posit value as it crosses a port: the tagged variant of rule R21, "a value is either `NaN` or
`Finite(bits)`". `finite` holds the `W`-bit left-justified word (R22), the infinity pattern included. A NaN
has no bits: they are "don't-care" (R25, 93_implementation_defined.md U3). -/
inductive Value where
  | nan
  | finite (bits : Nat)
  deriving DecidableEq, Repr

/-- The unpacked record of rule R26: `fraction` is a `W`-bit word, left-justified, the implicit leading one
not stored; `regime` is a signed integer. -/
structure Record where
  sign : Bool
  regime : Int
  exponent : Nat
  fraction : Nat
  deriving DecidableEq, Repr

/-- The operations of rule R52, one constructor per row of `opcode_table.json`, each with the request fields
the operation reads (R53) and nothing else: "a field an operation does not read is ignored" (R50).
The row REC is the constructor `recip`, because Lean keeps the name `Instr.rec` for itself. -/
inductive Instr where
  -- 40_field_arithmetic.md
  | ssw (f : Fmt)
  | rsw (f : Fmt) (x : Value)
  | esw (f : Fmt) (x : Value)
  | fsw (f : Fmt) (x : Value)
  | useed (f : Fmt)
  -- 41_codec.md
  | unpack (f : Fmt) (x : Value)
  | pack (f : Fmt) (r : Record)
  -- 42_ieee_interop.md
  | fromF32 (f : Fmt) (raw : Nat)
  | fromF64 (f : Fmt) (raw : Nat)
  | toF32 (f : Fmt) (x : Value)
  | toF64 (f : Fmt) (x : Value)
  -- 43_arithmetic.md
  | neg (f : Fmt) (x : Value)
  | recip (f : Fmt) (x : Value)
  | mul (f : Fmt) (x y : Value)
  | div (f : Fmt) (x y : Value)
  | add (f : Fmt) (x y : Value)
  | sub (f : Fmt) (x y : Value)
  -- 44_predicates_comparisons.md
  | isZero (f : Fmt) (x : Value)
  | isOne (f : Fmt) (x : Value)
  | isInf (f : Fmt) (x : Value)
  | isNeg (f : Fmt) (x : Value)
  | isNan (f : Fmt) (x : Value)
  | eq (f : Fmt) (x y : Value)
  | gt (f : Fmt) (x y : Value)
  | ge (f : Fmt) (x y : Value)
  | lt (f : Fmt) (x y : Value)
  | le (f : Fmt) (x y : Value)
  -- 45_construction_extraction.md
  | cZero (f : Fmt)
  | cOne (f : Fmt)
  | cInf (f : Fmt)
  | cNan (f : Fmt)
  | setBits (f : Fmt) (raw : Nat)
  | getBits (f : Fmt) (x : Value)
  deriving DecidableEq, Repr

/-- The format parameters an instruction carries: every operation reads `nbits` and `es` (R53). -/
def Instr.fmt : Instr → Fmt
  | .ssw f => f
  | .rsw f _ => f
  | .esw f _ => f
  | .fsw f _ => f
  | .useed f => f
  | .unpack f _ => f
  | .pack f _ => f
  | .fromF32 f _ => f
  | .fromF64 f _ => f
  | .toF32 f _ => f
  | .toF64 f _ => f
  | .neg f _ => f
  | .recip f _ => f
  | .mul f _ _ => f
  | .div f _ _ => f
  | .add f _ _ => f
  | .sub f _ _ => f
  | .isZero f _ => f
  | .isOne f _ => f
  | .isInf f _ => f
  | .isNeg f _ => f
  | .isNan f _ => f
  | .eq f _ _ => f
  | .gt f _ _ => f
  | .ge f _ _ => f
  | .lt f _ _ => f
  | .le f _ _ => f
  | .cZero f => f
  | .cOne f => f
  | .cInf f => f
  | .cNan f => f
  | .setBits f _ => f
  | .getBits f _ => f

/-- A value operand on a request port, as the two fields `bits` and `nan` of rule R50. -/
structure ValuePort where
  bits : Nat
  nan : Bool
  deriving DecidableEq, Repr

/-- The record operand on the request port (R50): `regime` is here the `RW`-bit two's-complement word. -/
structure RecordPort where
  sign : Bool
  regime : Nat
  exponent : Nat
  fraction : Nat
  deriving DecidableEq, Repr

/-- The request format `REQ` of rule R50: every field is always present. -/
structure Request where
  op : Nat
  nbits : Nat
  es : Nat
  a : ValuePort
  b : ValuePort
  record : RecordPort
  raw : Nat
  deriving DecidableEq, Repr

end Sys2Proof
end

