-- ==== Sys2Proof/WellFormed.lean ====
section
/-! DEFINITION. Well-formedness: an instruction or a request whose fields fit the port widths of rule R50.
Well-formed is not legal: a well-formed request may still be refused by rules R54 to R56, and then the
machine answers it with a status (Machine/Ops.lean). -/

namespace Sys2Proof

/-- `nbits` and `es` are 8-bit fields (R50). -/
def Fmt.wellFormed (f : Fmt) : Bool := Word.fits 8 f.nbits && Word.fits 8 f.es

/-- A value's bits are a `W`-bit word; a NaN has none (R50, R21). -/
def Value.wellFormed (c : Config) : Value → Bool
  | .nan => true
  | .finite b => Word.fits c.W b

/-- A record fits its ports: an `RW`-bit signed regime, an `ES_MAX`-bit exponent, a `W`-bit fraction (R50). -/
def Record.wellFormed (c : Config) (r : Record) : Bool :=
  decide (-((2 ^ (c.RW - 1) : Nat) : Int) ≤ r.regime) &&
    decide (r.regime < ((2 ^ (c.RW - 1) : Nat) : Int)) &&
    Word.fits c.esMax r.exponent && Word.fits c.W r.fraction

/-- The raw integer operand is a 64-bit word (R50). -/
def rawWellFormed (raw : Nat) : Bool := Word.fits 64 raw

/-- An instruction fits the request ports of configuration `c` (R50, R53). -/
def Instr.wellFormed (c : Config) : Instr → Bool
  | .ssw f => f.wellFormed
  | .rsw f x => f.wellFormed && x.wellFormed c
  | .esw f x => f.wellFormed && x.wellFormed c
  | .fsw f x => f.wellFormed && x.wellFormed c
  | .useed f => f.wellFormed
  | .unpack f x => f.wellFormed && x.wellFormed c
  | .pack f r => f.wellFormed && r.wellFormed c
  | .fromF32 f raw => f.wellFormed && rawWellFormed raw
  | .fromF64 f raw => f.wellFormed && rawWellFormed raw
  | .toF32 f x => f.wellFormed && x.wellFormed c
  | .toF64 f x => f.wellFormed && x.wellFormed c
  | .neg f x => f.wellFormed && x.wellFormed c
  | .recip f x => f.wellFormed && x.wellFormed c
  | .mul f x y => f.wellFormed && x.wellFormed c && y.wellFormed c
  | .div f x y => f.wellFormed && x.wellFormed c && y.wellFormed c
  | .add f x y => f.wellFormed && x.wellFormed c && y.wellFormed c
  | .sub f x y => f.wellFormed && x.wellFormed c && y.wellFormed c
  | .isZero f x => f.wellFormed && x.wellFormed c
  | .isOne f x => f.wellFormed && x.wellFormed c
  | .isInf f x => f.wellFormed && x.wellFormed c
  | .isNeg f x => f.wellFormed && x.wellFormed c
  | .isNan f x => f.wellFormed && x.wellFormed c
  | .eq f x y => f.wellFormed && x.wellFormed c && y.wellFormed c
  | .gt f x y => f.wellFormed && x.wellFormed c && y.wellFormed c
  | .ge f x y => f.wellFormed && x.wellFormed c && y.wellFormed c
  | .lt f x y => f.wellFormed && x.wellFormed c && y.wellFormed c
  | .le f x y => f.wellFormed && x.wellFormed c && y.wellFormed c
  | .cZero f => f.wellFormed
  | .cOne f => f.wellFormed
  | .cInf f => f.wellFormed
  | .cNan f => f.wellFormed
  | .setBits f raw => f.wellFormed && rawWellFormed raw
  | .getBits f x => f.wellFormed && x.wellFormed c

/-- A request record fits the port widths of rule R50. -/
def Request.wellFormed (c : Config) (q : Request) : Bool :=
  Word.fits 8 q.op && Word.fits 8 q.nbits && Word.fits 8 q.es &&
    Word.fits c.W q.a.bits && Word.fits c.W q.b.bits &&
    Word.fits c.RW q.record.regime && Word.fits c.esMax q.record.exponent &&
    Word.fits c.W q.record.fraction && Word.fits 64 q.raw

end Sys2Proof
end

