-- ==== Sys2Proof/Decode.lean ====
section
/-! DEFINITION. Decode and encode: the flat `REQ` vector of rule R57, the request record of rule R50, the
operation-select map of rule R52, and the encoder written from the same tables.

The block has no instruction memory (R45): the instruction word is the `REQ` vector on the request port,
bit 0 its least significant bit, "the fields ... concatenated in the order of the tables of rules R50 and
R51, the first field in the least significant bits" (R57). -/

namespace Sys2Proof

/-! ## Bit fields -/

/-- The `k`-bit field of `v` whose least significant bit is bit `lo`: `v[lo+k-1 : lo]` (R10). -/
def slice (v : Nat) (lo k : Nat) : Nat := v / 2 ^ lo % 2 ^ k

/-- A one-bit field as a flag. -/
def sliceFlag (v : Nat) (lo : Nat) : Bool := slice v lo 1 == 1

/-- A flag as a one-bit field. -/
def flagWord (b : Bool) : Nat := if b then 1 else 0

/-- The regime of a record from its `k`-bit port word: "`regime = w` if `w < 2^(RW-1)`, else `w - 2^RW`" (R60). -/
def regimeOfWord (k : Nat) (w : Nat) : Int :=
  if w < 2 ^ (k - 1) then (w : Int) else (w : Int) - ((2 ^ k : Nat) : Int)

/-- `sext_k(v)`, the `k`-bit two's-complement word of a signed `v`: `v mod 2^k` (R11, R60). -/
def wordOfRegime (k : Nat) (v : Int) : Nat := (v % ((2 ^ k : Nat) : Int)).toNat

/-- Concatenation of (width, value) fields, the first in the least significant bits (R57). -/
def concatFields : List (Nat × Nat) → Nat
  | [] => 0
  | (k, v) :: rest => v % 2 ^ k + 2 ^ k * concatFields rest

/-! ## The request vector -/

/-- The number of bits of the `REQ` vector: the sum of the widths of rule R50 (227 at the defaults, R57). -/
def Request.width (c : Config) : Nat := 8 + 8 + 8 + (c.W + 1) + (c.W + 1) + (1 + c.RW + c.esMax + c.W) + 64

/-- The request record as the flat vector: the fields in the order of the table of rule R50 (R57). -/
def Request.toVector (c : Config) (q : Request) : Nat :=
  concatFields
    [(8, q.op), (8, q.nbits), (8, q.es),
     (c.W, q.a.bits), (1, flagWord q.a.nan),
     (c.W, q.b.bits), (1, flagWord q.b.nan),
     (1, flagWord q.record.sign), (c.RW, q.record.regime), (c.esMax, q.record.exponent), (c.W, q.record.fraction),
     (64, q.raw)]

/-- The request record read from the flat vector: each field at the position that the widths before it give
(R57). Bits at or above `Request.width` are no wire of the port and are not read. -/
def Request.ofVector (c : Config) (v : Nat) : Request :=
  { op := slice v 0 8
    nbits := slice v 8 8
    es := slice v 16 8
    a := { bits := slice v 24 c.W, nan := sliceFlag v (24 + c.W) }
    b := { bits := slice v (25 + c.W) c.W, nan := sliceFlag v (25 + 2 * c.W) }
    record :=
      { sign := sliceFlag v (26 + 2 * c.W)
        regime := slice v (27 + 2 * c.W) c.RW
        exponent := slice v (27 + 2 * c.W + c.RW) c.esMax
        fraction := slice v (27 + 2 * c.W + c.RW + c.esMax) c.W }
    raw := slice v (27 + 3 * c.W + c.RW + c.esMax) 64 }

/-! ## The decoder -/

/-- What the decoder answers: an instruction, or the rejection of a reserved operation code by its number
(R56). -/
inductive Decoded where
  | instr (i : Instr)
  /-- the code is absent from rule R52 -/
  | reservedOp (op : Nat)
  deriving DecidableEq, Repr

/-- A value operand: "`nan = 1` means `NaN` and `bits` is then ignored on input" (R21, R25). -/
def valueOfPort (p : ValuePort) : Value := if p.nan then .nan else .finite p.bits

/-- The record operand, its regime sign-extended from the port word (R60). -/
def recordOfPort (c : Config) (p : RecordPort) : Record :=
  { sign := p.sign, regime := regimeOfWord c.RW p.regime, exponent := p.exponent, fraction := p.fraction }

/-- The decoder, total on requests: the operation-select map of rule R52 with the fields each operation reads
(R53); every other code is reserved (R56). -/
def decode (c : Config) (q : Request) : Decoded :=
  let f : Fmt := { nbits := q.nbits, es := q.es }
  let x := valueOfPort q.a
  let y := valueOfPort q.b
  match q.op with
  | 0x00 => .instr (.ssw f)
  | 0x01 => .instr (.rsw f x)
  | 0x02 => .instr (.esw f x)
  | 0x03 => .instr (.fsw f x)
  | 0x04 => .instr (.useed f)
  | 0x08 => .instr (.unpack f x)
  | 0x09 => .instr (.pack f (recordOfPort c q.record))
  | 0x10 => .instr (.fromF32 f q.raw)
  | 0x11 => .instr (.fromF64 f q.raw)
  | 0x12 => .instr (.toF32 f x)
  | 0x13 => .instr (.toF64 f x)
  | 0x18 => .instr (.neg f x)
  | 0x19 => .instr (.recip f x)
  | 0x1A => .instr (.mul f x y)
  | 0x1B => .instr (.div f x y)
  | 0x1C => .instr (.add f x y)
  | 0x1D => .instr (.sub f x y)
  | 0x20 => .instr (.isZero f x)
  | 0x21 => .instr (.isOne f x)
  | 0x22 => .instr (.isInf f x)
  | 0x23 => .instr (.isNeg f x)
  | 0x24 => .instr (.isNan f x)
  | 0x28 => .instr (.eq f x y)
  | 0x29 => .instr (.gt f x y)
  | 0x2A => .instr (.ge f x y)
  | 0x2B => .instr (.lt f x y)
  | 0x2C => .instr (.le f x y)
  | 0x30 => .instr (.cZero f)
  | 0x31 => .instr (.cOne f)
  | 0x32 => .instr (.cInf f)
  | 0x33 => .instr (.cNan f)
  | 0x34 => .instr (.setBits f q.raw)
  | 0x35 => .instr (.getBits f x)
  | op => .reservedOp op

/-- The decoder on the flat vector, total on any number (R57). -/
def decodeVector (c : Config) (v : Nat) : Decoded := decode c (Request.ofVector c v)

/-- The instruction the decoder reads from the word `w` of `nbits` bits, numbered as `opcode_table.json`
numbers them (the flat `REQ` vector at the default parameters, R57), every bit above `nbits` zero; none where
the code is reserved. -/
def decodeTableWord (nbits w : Nat) : Option Instr :=
  match decodeVector Config.default (w % 2 ^ nbits) with
  | .instr i => some i
  | .reservedOp _ => none

/-! ## The encoder -/

/-- The operation-select code of an instruction: the `op` column of rule R52. -/
def opcode : Instr → Nat
  | .ssw _ => 0x00
  | .rsw _ _ => 0x01
  | .esw _ _ => 0x02
  | .fsw _ _ => 0x03
  | .useed _ => 0x04
  | .unpack _ _ => 0x08
  | .pack _ _ => 0x09
  | .fromF32 _ _ => 0x10
  | .fromF64 _ _ => 0x11
  | .toF32 _ _ => 0x12
  | .toF64 _ _ => 0x13
  | .neg _ _ => 0x18
  | .recip _ _ => 0x19
  | .mul _ _ _ => 0x1A
  | .div _ _ _ => 0x1B
  | .add _ _ _ => 0x1C
  | .sub _ _ _ => 0x1D
  | .isZero _ _ => 0x20
  | .isOne _ _ => 0x21
  | .isInf _ _ => 0x22
  | .isNeg _ _ => 0x23
  | .isNan _ _ => 0x24
  | .eq _ _ _ => 0x28
  | .gt _ _ _ => 0x29
  | .ge _ _ _ => 0x2A
  | .lt _ _ _ => 0x2B
  | .le _ _ _ => 0x2C
  | .cZero _ => 0x30
  | .cOne _ => 0x31
  | .cInf _ => 0x32
  | .cNan _ => 0x33
  | .setBits _ _ => 0x34
  | .getBits _ _ => 0x35

/-- A value on a request port; the ignored bits of a NaN are sent as zero (R25). -/
def portOfValue : Value → ValuePort
  | .nan => { bits := 0, nan := true }
  | .finite b => { bits := b, nan := false }

/-- A record on the request port, its regime as the `RW`-bit two's-complement word (R50, R60). -/
def portOfRecord (c : Config) (r : Record) : RecordPort :=
  { sign := r.sign, regime := wordOfRegime c.RW r.regime, exponent := r.exponent, fraction := r.fraction }

/-- A value port nothing is sent on: zero. -/
def ValuePort.idle : ValuePort := { bits := 0, nan := false }

/-- A record port nothing is sent on: zero. -/
def RecordPort.idle : RecordPort := { sign := false, regime := 0, exponent := 0, fraction := 0 }

/-- A request that sends no operand: "fields the operation does not read are sent as zero here, though any
value is allowed" (95_test_vectors.md section 4). -/
def requestOfNone (op : Nat) (f : Fmt) : Request :=
  { op := op, nbits := f.nbits, es := f.es, a := ValuePort.idle, b := ValuePort.idle,
    record := RecordPort.idle, raw := 0 }

/-- A request that sends operand `a`. -/
def requestOfUnary (op : Nat) (f : Fmt) (x : Value) : Request :=
  { requestOfNone op f with a := portOfValue x }

/-- A request that sends operands `a` and `b`, filled in this order (R58). -/
def requestOfBinary (op : Nat) (f : Fmt) (x y : Value) : Request :=
  { requestOfNone op f with a := portOfValue x, b := portOfValue y }

/-- A request that sends the raw integer. -/
def requestOfRaw (op : Nat) (f : Fmt) (raw : Nat) : Request :=
  { requestOfNone op f with raw := raw }

/-- The request of an instruction: its code (R52) and the fields it reads (R53). -/
def requestOf (c : Config) (i : Instr) : Request :=
  match i with
  | .ssw f => requestOfNone (opcode i) f
  | .rsw f x => requestOfUnary (opcode i) f x
  | .esw f x => requestOfUnary (opcode i) f x
  | .fsw f x => requestOfUnary (opcode i) f x
  | .useed f => requestOfNone (opcode i) f
  | .unpack f x => requestOfUnary (opcode i) f x
  | .pack f r => { requestOfNone (opcode i) f with record := portOfRecord c r }
  | .fromF32 f raw => requestOfRaw (opcode i) f raw
  | .fromF64 f raw => requestOfRaw (opcode i) f raw
  | .toF32 f x => requestOfUnary (opcode i) f x
  | .toF64 f x => requestOfUnary (opcode i) f x
  | .neg f x => requestOfUnary (opcode i) f x
  | .recip f x => requestOfUnary (opcode i) f x
  | .mul f x y => requestOfBinary (opcode i) f x y
  | .div f x y => requestOfBinary (opcode i) f x y
  | .add f x y => requestOfBinary (opcode i) f x y
  | .sub f x y => requestOfBinary (opcode i) f x y
  | .isZero f x => requestOfUnary (opcode i) f x
  | .isOne f x => requestOfUnary (opcode i) f x
  | .isInf f x => requestOfUnary (opcode i) f x
  | .isNeg f x => requestOfUnary (opcode i) f x
  | .isNan f x => requestOfUnary (opcode i) f x
  | .eq f x y => requestOfBinary (opcode i) f x y
  | .gt f x y => requestOfBinary (opcode i) f x y
  | .ge f x y => requestOfBinary (opcode i) f x y
  | .lt f x y => requestOfBinary (opcode i) f x y
  | .le f x y => requestOfBinary (opcode i) f x y
  | .cZero f => requestOfNone (opcode i) f
  | .cOne f => requestOfNone (opcode i) f
  | .cInf f => requestOfNone (opcode i) f
  | .cNan f => requestOfNone (opcode i) f
  | .setBits f raw => requestOfRaw (opcode i) f raw
  | .getBits f x => requestOfUnary (opcode i) f x

/-- The encoder: the flat `REQ` vector of an instruction (R57). -/
def encode (c : Config) (i : Instr) : Nat := (requestOf c i).toVector c

end Sys2Proof
end

