-- ==== Sys2Proof/Machine/State.lean ====
section
/-! DEFINITION. The machine's state, its response, its reasons to stop, and the state after reset.

The block keeps no architectural state from one operation to the next (R20, R31). What a machine of steps
holds is the exchange on its two ports, at most one request outstanding (R44, R223), and the constants of the
instance (R220). -/

namespace Sys2Proof.Machine

/-- The status codes of a refused request (R201). `OK` is not among them: it is the other kind of response. -/
inductive RefusalCode where
  /-- 1: the `op` code is reserved (R56) -/
  | illegalOp
  /-- 2: `(nbits, es)` is outside the supported range (R54, R79) -/
  | illegalParam
  /-- 3: an operand breaks an invariant of its type (R55) -/
  | illegalOperand
  deriving DecidableEq, Repr

/-- The result fields of an `OK` response (R51): `r`, `rec`, `n` and `flag`. `r` is the tagged variant of rule
R21, so a NaN result carries no bits; `record.regime` is the integer the rules use, whose port word is
`sext_RW` of it (R26, R60). -/
structure Reply where
  r : Value
  record : Record
  n : Nat
  flag : Bool
  deriving DecidableEq, Repr

/-- A response (R51, R201): `OK` with its result fields, or a refusal, which "records nothing beyond the code". -/
inductive Response where
  | ok (p : Reply)
  | refused (code : RefusalCode)
  deriving DecidableEq, Repr

/-- Reasons for which the machine stops with a fault. There is none: "Nothing in this block is treated as
`fault` or `stuck`" (93_implementation_defined.md part 1; R200, R205, R210). Nobody raises a `Fault`; safe,
since there is no such stop to rely on. -/
inductive Fault where
  deriving DecidableEq, Repr

/-- Reasons for which the machine has no meaning for an instruction. -/
inductive Refusal where
  /-- Raised only by an arm of `exec` whose instruction has no meaning yet, by its mnemonic. No arm raises it:
  every operation of rule R52 is modelled. It would be safe: nothing follows from such a step. -/
  | notModelled (mnemonic : String)
  deriving DecidableEq, Repr

/-- The state of the machine. -/
structure State where
  /-- the configuration parameters, constants of the instance (R6, R8, R220; log entry 2) -/
  cfg : Config
  /-- the outstanding request, at most one (R44, R50, R223); `none` when the block is idle (R220) -/
  request : Option Request
  /-- the last response given since reset (R51); `none`: "the response port holds no defined value until the
  first response" (R220, R33; log entry 4) -/
  response : Option Response
  deriving DecidableEq, Repr

/-- An instance of the block right after reset: idle, no request outstanding, nothing on the response port
(R220). -/
def State.resetOf (c : Config) : State := { cfg := c, request := none, response := none }

/-- The machine right after reset, at the recommended default parameters (R6, R8, R220). -/
def State.reset : State := State.resetOf Config.default

end Sys2Proof.Machine
end

