-- ==== Sys2Proof/Machine/Ops.lean ====
section
/-! DEFINITION. The shared operations of the machine: answering a request, refusing one, the legality checks
every operation makes, the host's operations on the ports, and the response port with its flat vector.

A refusal is the one thing this block has in place of an exception (R201, R205). It is ONE operation here,
`refuse`; there is no return from it. -/

namespace Sys2Proof.Machine

/-! ## Answering -/

/-- The state in which the outstanding request has been answered with `rsp`: the request is off the port, the
response on it, and nothing else changes (R43, R44, R223). -/
def State.answered (s : State) (rsp : Response) : State :=
  { s with request := none, response := some rsp }

/-- Answer with status `OK` and the given result fields (R51). -/
def reply (p : Reply) (s : State) : Host.Outcome State Fault Refusal :=
  .next (s.answered (.ok p))

/-- `refuse <Status>`: answer with that status and no other result (R11, R201). "The response with a
non-`OK` status *is* the whole event" (R205): no state is saved, no control transferred, and the block is ready
for the next request. -/
def refuse (code : RefusalCode) (s : State) : Host.Outcome State Fault Refusal :=
  .next (s.answered (.refused code))

/-- The result fields of an `OK` response that writes none of them: "every other field is zero" (R51). -/
def Reply.zero : Reply :=
  { r := .finite 0, record := { sign := false, regime := 0, exponent := 0, fraction := 0 }, n := 0, flag := false }

/-- An operation that writes `r` (R53). -/
def Reply.ofValue (v : Value) : Reply := { Reply.zero with r := v }

/-- An operation that writes `rec` (R53). -/
def Reply.ofRecord (r : Record) : Reply := { Reply.zero with record := r }

/-- An operation that writes `n` (R53). -/
def Reply.ofNat (n : Nat) : Reply := { Reply.zero with n := n }

/-- An operation that writes `flag` (R53). -/
def Reply.ofFlag (b : Bool) : Reply := { Reply.zero with flag := b }

/-! ## The legality checks -/

/-- The parameter check of rule R54: `2 <= nbits <= W` and `es <= ES_MAX`. -/
def paramsLegal (c : Config) (f : Fmt) : Bool :=
  decide (2 ≤ f.nbits) && decide (f.nbits ≤ c.W) && decide (f.es ≤ c.esMax)

/-- The checks of an operation that passed the reserved-code check, in the order of rule R203: the parameters,
then the operands; a legal request is answered with its result. -/
def answer (paramsOk operandsOk : Bool) (p : Reply) (s : State) : Host.Outcome State Fault Refusal :=
  if paramsOk then
    if operandsOk then reply p s else refuse .illegalOperand s
  else refuse .illegalParam s

/-! ## The host's operations on the ports -/

/-- The host presents a request. At most one is outstanding (R44, R223), so none can be presented before the
last one is answered. -/
def State.present (s : State) (q : Request) : Option State :=
  match s.request with
  | none => some { s with request := some q }
  | some _ => none

/-- The host asserts reset: "a request that was outstanding when reset was asserted gets no response", the
response port holds no defined value, and "reset does not change" the configuration parameters (R220). -/
def State.assertReset (s : State) : State := State.resetOf s.cfg

/-! ## The response port as fields and as the flat vector -/

/-- The status code of a response: `0 OK`, `1 ILLEGAL_OP`, `2 ILLEGAL_PARAM`, `3 ILLEGAL_OPERAND` (R201). -/
def Response.status : Response → Nat
  | .ok _ => 0
  | .refused .illegalOp => 1
  | .refused .illegalParam => 2
  | .refused .illegalOperand => 3

/-- The wires of the response port: every field of the `RSP` record as a word (R51). -/
structure ResponsePort where
  status : Nat
  rBits : Nat
  rNan : Nat
  sign : Nat
  regime : Nat
  exponent : Nat
  fraction : Nat
  n : Nat
  flag : Nat
  deriving DecidableEq, Repr

/-- What stands on the wires for a response. `any` supplies the wires the spec leaves unspecified: the bits of
a NaN result (R25), and every field but the status of a refused response (R201). Nothing constrains `any`, so a
claim about the wires holds for every value of it (log entry 3). -/
def Response.onPort (c : Config) (any : ResponsePort) (rsp : Response) : ResponsePort :=
  match rsp with
  | .ok p =>
    { status := 0
      rBits := match p.r with
        | .nan => any.rBits
        | .finite b => b
      rNan := match p.r with
        | .nan => 1
        | .finite _ => 0
      sign := flagWord p.record.sign
      regime := wordOfRegime c.RW p.record.regime
      exponent := p.record.exponent
      fraction := p.record.fraction
      n := p.n
      flag := flagWord p.flag }
  | .refused code => { any with status := Response.status (.refused code) }

/-- The flat `RSP` vector: the fields in the order of the table of rule R51, the first in the least significant
bits (R57; 173 bits at the defaults). -/
def ResponsePort.toVector (c : Config) (p : ResponsePort) : Nat :=
  concatFields
    [(2, p.status), (c.W, p.rBits), (1, p.rNan), (1, p.sign), (c.RW, p.regime), (c.esMax, p.exponent),
     (c.W, p.fraction), (c.NW, p.n), (1, p.flag)]

/-! ## Platform functions -/

/-- `bitlen(x)`: the least `k` with `x < 2^k` (R12). -/
def bitlen (x : Nat) : Nat := if x = 0 then 0 else Nat.log2 x + 1

/-- `clz_k(x)`: the count of leading zeros of a `k`-bit word (R12). -/
def clz (k x : Nat) : Nat := k - bitlen x

end Sys2Proof.Machine
end

