-- ==== Sys2Proof/Machine/Operands.lean ====
section
/-! DEFINITION. Operands: the view of a packed value and its inverse, the values the operation rules are written
on, and the operand checks of rule R55. There are no immediates and no addressing modes (R60, R209). -/

namespace Sys2Proof.Machine

/-- `V(x) = x.bits >> (W - n)`: the `n`-bit right-justified view of a packed word (R23). -/
def view (c : Config) (n : Nat) (bits : Nat) : Nat := bits / 2 ^ (c.W - n)

/-- `LJ(v) = v << (W - n)`: the packed word of an `n`-bit view (R23). -/
def lj (c : Config) (n : Nat) (v : Nat) : Nat := v * 2 ^ (c.W - n)

/-- What the operation rules of files 42 to 44 are written on: "values that are either `NaN` or an `n`-bit
view". -/
inductive Posit where
  | nan
  | view (v : Nat)
  deriving DecidableEq, Repr

/-- The value of an operand, read through its view (R60); the bits of a NaN are not read (R25). -/
def Posit.ofValue (c : Config) (n : Nat) : Value → Posit
  | .nan => .nan
  | .finite b => .view (Sys2Proof.Machine.view c n b)

/-- A rule that "returns `v`" writes `{bits: LJ(v), nan: 0}`, one that "returns `NaN`" writes `nan: 1` with
`bits` unspecified (43_arithmetic.md). -/
def Posit.toValue (c : Config) (n : Nat) : Posit → Value
  | .nan => .nan
  | .view v => .finite (lj c n v)

/-- Rule R55 (a) and (b): a non-NaN operand is left-justified, its low `W - nbits` bits zero; the bits of a NaN
operand are not examined. -/
def justified (c : Config) (n : Nat) : Value → Bool
  | .nan => true
  | .finite b => decide (b % 2 ^ (c.W - n) = 0)

/-- Rule R55 (c): the operand of RSW, ESW, FSW, UNPACK and GETBITS is left-justified and not a NaN. -/
def readable (c : Config) (n : Nat) : Value → Bool
  | .nan => false
  | .finite b => decide (b % 2 ^ (c.W - n) = 0)

/-- The view of a `readable` operand. A NaN has none; the word 0 stands there and is never used, because
`readable` refuses a NaN before it is (R55 (c)). -/
def viewOf (c : Config) (n : Nat) : Value → Nat
  | .nan => 0
  | .finite b => view c n b

/-- Rule R55 (d): the exponent of a record operand is an `es`-bit integer. -/
def recordLegal (f : Fmt) (r : Record) : Bool := decide (r.exponent < 2 ^ f.es)

/-- Rule R55 (e): a single-precision pattern is a 32-bit integer. -/
def rawIs32 (raw : Nat) : Bool := decide (raw < 2 ^ 32)

/-- Rule R55 (f): a raw pattern for SETBITS is an `nbits`-bit integer. -/
def rawIsView (f : Fmt) (raw : Nat) : Bool := decide (raw < 2 ^ f.nbits)

end Sys2Proof.Machine
end

