-- ==== Sys2Proof/Machine/Flags.lean ====
section
/-! DEFINITION. Flags: the sentinel patterns and every Boolean the block computes. The only flag of the block is
the NaN flag, part of a value (R25), here the constructor `nan`; there are no exception flags (R200). The tests
below are what `rsp.flag` is written with, and what the fast paths of the arithmetic engine test. -/

namespace Sys2Proof.Machine

/-! ## Sentinel patterns, as `n`-bit views (R24) -/

/-- `ZERO`: all bits zero. -/
def zeroView : Nat := 0

/-- `INF`: only the sign bit set. -/
def infView (n : Nat) : Nat := 2 ^ (n - 1)

/-- `ONE`: bits `0 1 0 ... 0`. -/
def oneView (n : Nat) : Nat := 2 ^ (n - 2)

/-- `MONE`: bits `1 1 0 ... 0`, `2^n - 2^(n-2)`. -/
def moneView (n : Nat) : Nat := 2 ^ n - 2 ^ (n - 2)

/-- The sign bit of a view, bit `n-1` (R23). -/
def signBit (n : Nat) (v : Nat) : Bool := v.testBit (n - 1)

/-! ## Predicates (R170 to R174); false of a NaN but for `isNan` (R180) -/

/-- `isZero` (R170). -/
def isZeroFlag : Posit → Bool
  | .nan => false
  | .view v => v == zeroView

/-- `isOne`, the literal test against `ONE` (R171). -/
def isOneFlag (n : Nat) : Posit → Bool
  | .nan => false
  | .view v => v == oneView n

/-- `isInfinite` (R172). -/
def isInfFlag (n : Nat) : Posit → Bool
  | .nan => false
  | .view v => v == infView n

/-- `isNegative`, the top bit and nothing else (R173). -/
def isNegFlag (n : Nat) : Posit → Bool
  | .nan => false
  | .view v => signBit n v

/-- `isNaN`, the side flag (R174). -/
def isNanFlag : Posit → Bool
  | .nan => true
  | .view _ => false

/-! ## Comparisons (R175 to R179); false when either operand is a NaN (R180) -/

/-- `equals`: packed-bit equality (R175). -/
def eqFlag : Posit → Posit → Bool
  | .view x, .view y => x == y
  | .nan, _ => false
  | .view _, .nan => false

/-- `greaterThan`: false if either is infinite, otherwise unsigned comparison of the views (R176). -/
def gtFlag (n : Nat) : Posit → Posit → Bool
  | .view x, .view y => if x = infView n ∨ y = infView n then false else decide (y < x)
  | .nan, _ => false
  | .view _, .nan => false

/-- `greaterOrEqual` (R177). -/
def geFlag (n : Nat) (x y : Posit) : Bool := gtFlag n x y || eqFlag x y

/-- `lessThan`, the operands swapped (R178). -/
def ltFlag (n : Nat) (x y : Posit) : Bool := gtFlag n y x

/-- `lessOrEqual` (R179). -/
def leFlag (n : Nat) (x y : Posit) : Bool := gtFlag n y x || eqFlag x y

end Sys2Proof.Machine
end

