-- ==== Sys2Proof/Machine/FieldArithmetic.lean ====
section
/-! DEFINITION. Field arithmetic (40_field_arithmetic.md): the helper functions `RUN`, `TERM`, `REM`, `REGIME`,
`CMAX`, `CMIN`, `CLIP`, `DECOMP`, and the operations SSW, RSW, ESW, FSW and USEED. -/

namespace Sys2Proof.Machine

/-! ## Helper functions -/

/-- The number of bits equal to `b` in `p[k-1]`, `p[k-2]`, ... up to the first that differs, or all `k`: the
bounded scan of rule R70. -/
def runFrom (p : Nat) (b : Bool) : Nat → Nat
  | 0 => 0
  | k + 1 => if p.testBit k = b then runFrom p b k + 1 else 0

/-- `b0 = p[n-2]`, "the first bit after the sign bit" (R70). -/
def runBit (p : Nat) (n : Nat) : Bool := p.testBit (n - 2)

/-- `m`, the length of the regime run, clipped to `n - 1` (R70). The scan never looks at the sign bit. -/
def runLen (p : Nat) (n : Nat) : Nat := runFrom p (runBit p n) (n - 1)

/-- `TERM(p, n)`: 1 if the run is followed by a terminator (R75). -/
def term (p : Nat) (n : Nat) : Nat := if runLen p n < n - 1 then 1 else 0

/-- `REM(p, n)`: the bits that remain after sign, run and terminator (R75). -/
def remBits (p : Nat) (n : Nat) : Nat := n - 1 - runLen p n - term p n

/-- The exponent-field width `min(es, R)` (R27, R73). -/
def expWidth (p : Nat) (n es : Nat) : Nat := min es (remBits p n)

/-- The fraction-field width `R - min(es, R)` (R27, R74). -/
def fracWidth (p : Nat) (n es : Nat) : Nat := remBits p n - expWidth p n es

/-- `REGIME(p, n)`: `m - 1` for a run of ones, `-m` for a run of zeros (R76). -/
def regimeOf (p : Nat) (n : Nat) : Int :=
  if runBit p n then (runLen p n : Int) - 1 else -(runLen p n : Int)

/-- `CMAX(n, es) = 2^es * (n - 2)` (R77). -/
def cmax (n es : Nat) : Int := ((2 ^ es * (n - 2) : Nat) : Int)

/-- `CMIN(n, es) = -2^es * (n - 2)` (R77). -/
def cmin (n es : Nat) : Int := -cmax n es

/-- `CLIP(c, n, es) = max(CMIN, min(c, CMAX))` (R77). -/
def clip (e : Int) (n es : Nat) : Int := max (cmin n es) (min e (cmax n es))

/-- The regime of a combined exponent: `c >> es`, floor division toward negative infinity (R28, R78). -/
def regimePart (e : Int) (es : Nat) : Int := e / ((2 ^ es : Nat) : Int)

/-- The exponent of a combined exponent: `c - 2^es * regime`, in `[0, 2^es)` (R28, R78). -/
def exponentPart (e : Int) (es : Nat) : Nat := (e - ((2 ^ es : Nat) : Int) * regimePart e es).toNat

/-- The combined exponent `2^es * regime + exponent` of a record (R28). -/
def combined (es : Nat) (r : Record) : Int := ((2 ^ es : Nat) : Int) * r.regime + (r.exponent : Int)

/-- `useed = 2^(2^es)` (R9). -/
def useedOf (es : Nat) : Nat := 2 ^ 2 ^ es

/-! ## Operations -/

/-- SSW, sign-field width: always 1 (R71). -/
def execSsw (f : Fmt) (s : State) : Host.Outcome State Fault Refusal :=
  answer (paramsLegal s.cfg f) true (.ofNat 1) s

/-- RSW, regime-field width: the run length of the raw view (R72). -/
def execRsw (f : Fmt) (x : Value) (s : State) : Host.Outcome State Fault Refusal :=
  answer (paramsLegal s.cfg f) (readable s.cfg f.nbits x)
    (.ofNat (runLen (viewOf s.cfg f.nbits x) f.nbits)) s

/-- ESW, exponent-field width of the raw view (R73). -/
def execEsw (f : Fmt) (x : Value) (s : State) : Host.Outcome State Fault Refusal :=
  answer (paramsLegal s.cfg f) (readable s.cfg f.nbits x)
    (.ofNat (expWidth (viewOf s.cfg f.nbits x) f.nbits f.es)) s

/-- FSW, fraction-field width of the raw view (R74). -/
def execFsw (f : Fmt) (x : Value) (s : State) : Host.Outcome State Fault Refusal :=
  answer (paramsLegal s.cfg f) (readable s.cfg f.nbits x)
    (.ofNat (fracWidth (viewOf s.cfg f.nbits x) f.nbits f.es)) s

/-- USEED: `2^(2^es)`, refused with `ILLEGAL_PARAM` when it does not fit the `NW`-bit port (R79). -/
def execUseed (f : Fmt) (s : State) : Host.Outcome State Fault Refusal :=
  answer (paramsLegal s.cfg f && decide (2 ^ f.es < s.cfg.NW)) true (.ofNat (useedOf f.es)) s

end Sys2Proof.Machine
end

