-- ==== Sys2Proof/Machine/Codec.lean ====
section
/-! DEFINITION. The codec (41_codec.md): UNPACK (posit_unpack_codec) and PACK (posit_pack_codec). -/

namespace Sys2Proof.Machine

/-- `MAG(v, n)`: the magnitude pattern, the two's complement of a view with the sign bit set (R91). -/
def mag (n : Nat) (v : Nat) : Nat := if signBit n v then (2 ^ n - v) % 2 ^ n else v

/-- `UNPACK(v, n, es)` of rule R90: the fields of the magnitude pattern; a truncated exponent field holds the
most significant exponent bits (R92); the fraction is left-justified in the `W`-bit word (R93). -/
def unpackView (c : Config) (n es : Nat) (v : Nat) : Record :=
  let p := mag n v
  let ew := expWidth p n es
  let fw := fracWidth p n es
  let rest := p % 2 ^ remBits p n
  { sign := signBit n v
    regime := regimeOf p n
    exponent := rest / 2 ^ fw * 2 ^ (es - ew)
    fraction := rest % 2 ^ fw * 2 ^ (c.W - fw) }

/-- `REGCODE(r)` as a bit string, most significant bit first (R96). -/
def regcode (r : Int) : List Bool :=
  if 0 ≤ r then List.replicate (r.toNat + 1) true ++ [false]
  else List.replicate (-r).toNat false ++ [true]

/-- A word as a string of `k` bits, most significant bit first (R10, R95). -/
def bitString : Nat → Nat → List Bool
  | 0, _ => []
  | k + 1, v => v.testBit k :: bitString k v

/-- A bit string read as an unsigned integer, most significant bit first (R95). -/
def natOfBits (l : List Bool) : Nat := l.foldl (fun acc b => 2 * acc + (if b then 1 else 0)) 0

/-- The unbounded bit string `S` of rule R95: regime code, exponent as `es` bits, fraction as `W` bits. -/
def packString (c : Config) (es : Nat) (r : Record) : List Bool :=
  regcode r.regime ++ bitString es r.exponent ++ bitString c.W r.fraction

/-- The length `k` of `REGCODE(r)` (R96, R97). -/
def regcodeLen (r : Int) : Nat := if 0 ≤ r then r.toNat + 2 else (-r).toNat + 1

/-- `REGCODE(r)` as a `k`-bit word: ones then a zero, or zeros then a one (R97). -/
def regcodeWord (r : Int) : Nat := if 0 ≤ r then 2 ^ regcodeLen r - 2 else 1

/-- The magnitude pattern PACK builds: the first `n-1` bits of `S` as an integer, in the arithmetic form that
rule R97 gives, its two saturated ends first. Everything beyond the first `n-1` bits is dropped, never rounded
(R98). -/
def packBody (c : Config) (n es : Nat) (r : Record) : Nat :=
  if (n : Int) - 2 ≤ r.regime then 2 ^ (n - 1) - 1
  else if r.regime ≤ 1 - (n : Int) then 0
  else
    (regcodeWord r.regime * 2 ^ (es + c.W) + (r.exponent * 2 ^ c.W + r.fraction)) /
      2 ^ (regcodeLen r.regime + es + c.W - (n - 1))

/-- The sign step of PACK: two's complement with the sign bit forced to 1 when `sign = 1` (R99). -/
def packSign (n : Nat) (sign : Bool) (p : Nat) : Nat :=
  if sign then ((2 ^ n - p) % 2 ^ n) ||| 2 ^ (n - 1) else p

/-- `PACK(sign, regime, exponent, fraction, n, es)` of rule R95, as a view. -/
def packView (c : Config) (n es : Nat) (r : Record) : Nat := packSign n r.sign (packBody c n es r)

/-- Pack a combined exponent: clip it, split it, pack it (R77, R78, R95); what MUL, ADD, FROMF32 and FROMF64
end with, since "an operation that must never turn a nonzero number into zero clips explicitly" (R101). -/
def packClipped (c : Config) (n es : Nat) (sign : Bool) (e : Int) (fraction : Nat) : Nat :=
  packView c n es
    { sign := sign, regime := regimePart (clip e n es) es, exponent := exponentPart (clip e n es) es,
      fraction := fraction }

/-- UNPACK (R90). -/
def execUnpack (f : Fmt) (x : Value) (s : State) : Host.Outcome State Fault Refusal :=
  answer (paramsLegal s.cfg f) (readable s.cfg f.nbits x)
    (.ofRecord (unpackView s.cfg f.nbits f.es (viewOf s.cfg f.nbits x))) s

/-- PACK (R95). -/
def execPack (f : Fmt) (r : Record) (s : State) : Host.Outcome State Fault Refusal :=
  answer (paramsLegal s.cfg f) (recordLegal f r)
    (.ofValue (.finite (lj s.cfg f.nbits (packView s.cfg f.nbits f.es r)))) s

end Sys2Proof.Machine
end

