-- ==== Sys2Proof/Machine/IeeeInterop.lean ====
section
/-! DEFINITION. IEEE interop (42_ieee_interop.md): FROMF32, FROMF64, TOF32, TOF64. The field widths 8/23 and
11/52 are the spec's own, from general knowledge (R110, G5). -/

namespace Sys2Proof.Machine

/-- The widths of an IEEE format: `EWI` and `FWI` (R110). -/
structure IeeeFmt where
  ew : Nat
  fw : Nat
  deriving DecidableEq, Repr

/-- IEEE single precision: 8 exponent bits, 23 fraction bits (R110). -/
def single : IeeeFmt := { ew := 8, fw := 23 }

/-- IEEE double precision: 11 exponent bits, 52 fraction bits (R110). -/
def double : IeeeFmt := { ew := 11, fw := 52 }

/-- `bias = 2^(EWI-1) - 1` (R110). -/
def IeeeFmt.bias (w : IeeeFmt) : Nat := 2 ^ (w.ew - 1) - 1

/-- The exponent field of all ones (R112, R115). -/
def IeeeFmt.ones (w : IeeeFmt) : Nat := 2 ^ w.ew - 1

/-- `isign = raw[EWI+FWI]` (R110). -/
def ieeeSign (w : IeeeFmt) (raw : Nat) : Bool := raw.testBit (w.ew + w.fw)

/-- `iexp = raw[EWI+FWI-1 : FWI]` (R110). -/
def ieeeExp (w : IeeeFmt) (raw : Nat) : Nat := slice raw w.fw w.ew

/-- `ifrac = raw[FWI-1 : 0]` (R110). -/
def ieeeFrac (w : IeeeFmt) (raw : Nat) : Nat := slice raw 0 w.fw

/-- Rescale a fraction field of `k` bits to `k'` bits, both left-justified: shift left, or right truncating
(R111, R115). -/
def rescale (k k' : Nat) (x : Nat) : Nat := if k ≤ k' then x * 2 ^ (k' - k) else x / 2 ^ (k - k')

/-- `FROMIEEE` of rules R111 and R112. -/
def fromIeee (c : Config) (w : IeeeFmt) (n es : Nat) (raw : Nat) : Posit :=
  if ieeeExp w raw = 0 then .view zeroView
  else if ieeeExp w raw = w.ones then
    if ieeeFrac w raw = 0 then .view (infView n) else .nan
  else
    .view (packClipped c n es (ieeeSign w raw) ((ieeeExp w raw : Int) - (w.bias : Int))
      (rescale w.fw c.W (ieeeFrac w raw)))

/-- An IEEE pattern from its three fields (R115). -/
def ieeePattern (w : IeeeFmt) (sign : Bool) (iexp ifrac : Nat) : Nat :=
  flagWord sign * 2 ^ (w.ew + w.fw) ||| iexp * 2 ^ w.fw ||| ifrac

/-- `TOIEEE` of rules R115 and R116: the specials, then rebias and rescale; above the normal range the IEEE
infinity of that sign, below it the IEEE zero of that sign. -/
def toIeee (c : Config) (w : IeeeFmt) (n es : Nat) : Posit → Nat
  | .nan => ieeePattern w false w.ones (2 ^ (w.fw - 1))
  | .view v =>
    if v = zeroView then 0
    else if v = infView n then ieeePattern w false w.ones 0
    else
      let r := unpackView c n es v
      let iexp := combined es r + (w.bias : Int)
      if (w.ones : Int) ≤ iexp then ieeePattern w r.sign w.ones 0
      else if iexp ≤ 0 then ieeePattern w r.sign 0 0
      else ieeePattern w r.sign iexp.toNat (rescale c.W w.fw r.fraction)

/-- FROMF32 (R113). -/
def execFromF32 (f : Fmt) (raw : Nat) (s : State) : Host.Outcome State Fault Refusal :=
  answer (paramsLegal s.cfg f) (rawIs32 raw)
    (.ofValue ((fromIeee s.cfg single f.nbits f.es raw).toValue s.cfg f.nbits)) s

/-- FROMF64 (R114). -/
def execFromF64 (f : Fmt) (raw : Nat) (s : State) : Host.Outcome State Fault Refusal :=
  answer (paramsLegal s.cfg f) true
    (.ofValue ((fromIeee s.cfg double f.nbits f.es raw).toValue s.cfg f.nbits)) s

/-- TOF32 (R117). -/
def execToF32 (f : Fmt) (x : Value) (s : State) : Host.Outcome State Fault Refusal :=
  answer (paramsLegal s.cfg f) (justified s.cfg f.nbits x)
    (.ofNat (toIeee s.cfg single f.nbits f.es (Posit.ofValue s.cfg f.nbits x))) s

/-- TOF64 (R118). -/
def execToF64 (f : Fmt) (x : Value) (s : State) : Host.Outcome State Fault Refusal :=
  answer (paramsLegal s.cfg f) (justified s.cfg f.nbits x)
    (.ofNat (toIeee s.cfg double f.nbits f.es (Posit.ofValue s.cfg f.nbits x))) s

end Sys2Proof.Machine
end

