-- ==== Sys2Proof/Machine/Arithmetic.lean ====
section
/-! DEFINITION. The arithmetic engine (43_arithmetic.md): NEG, REC, MUL, DIV, ADD, SUB.

The functions ending in `View` work on `n`-bit views; those ending in `Posit` also take NaN, which they test
before every fast path (R131). -/

namespace Sys2Proof.Machine

/-! ## NEG and REC -/

/-- The two's complement of an `n`-bit view (R132). -/
def negView (n : Nat) (x : Nat) : Nat := (2 ^ n - x) % 2 ^ n

/-- NEG (R131, R132). -/
def negPosit (n : Nat) : Posit → Posit
  | .nan => .nan
  | .view x => .view (negView n x)

/-- Keep the sign bit, two's-complement the other `n-1` bits; zero and infinity exchange (R133). -/
def recView (n : Nat) (x : Nat) : Nat :=
  if x = zeroView then infView n
  else if x = infView n then zeroView
  else flagWord (signBit n x) * 2 ^ (n - 1) ||| (2 ^ (n - 1) - x % 2 ^ (n - 1)) % 2 ^ (n - 1)

/-- REC (R131, R133). -/
def recPosit (n : Nat) : Posit → Posit
  | .nan => .nan
  | .view x => .view (recView n x)

/-! ## MUL and DIV -/

/-- The `W`-bit significand `1.f` of a stored fraction (R136). -/
def significand (c : Config) (fraction : Nat) : Nat := 2 ^ (c.W - 1) ||| fraction / 2

/-- `MULGEN`, the general path of MUL (R136): multiply the significands, normalise by at most one place, clip,
pack. It truncates (R138). -/
def mulGen (c : Config) (n es : Nat) (x y : Nat) : Nat :=
  let u := unpackView c n es x
  let v := unpackView c n es y
  let mfrac := significand c u.fraction * significand c v.fraction / 2 ^ c.W
  let shift : Nat := if mfrac.testBit (c.W - 1) then 0 else 1
  packClipped c n es (xor u.sign v.sign) (combined es u + combined es v - (shift : Int) + 1)
    (mfrac * 2 ^ (shift + 1) % 2 ^ c.W)

/-- The fast paths of MUL, "checked in order", then the general path (R135). -/
def mulView (c : Config) (n es : Nat) (x y : Nat) : Posit :=
  if x = zeroView then (if y = infView n then .nan else .view zeroView)
  else if y = zeroView then (if x = infView n then .nan else .view zeroView)
  else if x = oneView n then .view y
  else if x = moneView n then .view (negView n y)
  else if y = oneView n then .view x
  else if y = moneView n then .view (negView n x)
  else if x = infView n ∨ y = infView n then .view (infView n)
  else if x = recView n y then .view (oneView n)
  else if x = negView n (recView n y) then .view (moneView n)
  else .view (mulGen c n es x y)

/-- MUL (R131, R135). -/
def mulPosit (c : Config) (n es : Nat) : Posit → Posit → Posit
  | .view x, .view y => mulView c n es x y
  | .nan, _ => .nan
  | .view _, .nan => .nan

/-- DIV: multiply by the reciprocal, as it stands (R139, R140). -/
def divPosit (c : Config) (n es : Nat) (x y : Posit) : Posit := mulPosit c n es x (recPosit n y)

/-! ## ADD and SUB -/

/-- `FWOF(r, n, es)`: the fraction bits available at regime `r` (R142). -/
def fwof (r : Int) (n es : Nat) : Nat := n - 1 - min (n - 1) (regcodeLen r) - es

/-- `ROUND(T, sh)`: `T / 2^sh` to nearest, ties by `ADD_TIE` (R142). -/
def roundShift (tie : AddTie) (t sh : Nat) : Nat :=
  let q := t / 2 ^ sh
  let rem := t % 2 ^ sh
  let half := 2 ^ (sh - 1)
  if half < rem then q + 1
  else if rem < half then q
  else
    match tie with
    | .even => if q % 2 = 1 then q + 1 else q
    | .away => q + 1

/-- A signed significand, aligned to the exponent `k` by a left shift: `x = alignedTerm * 2^(k - W)` (R142). -/
def alignedTerm (c : Config) (es : Nat) (k : Int) (r : Record) : Int :=
  let a : Nat := (2 ^ c.W + r.fraction) * 2 ^ (combined es r - k).toNat
  if r.sign then -(a : Int) else (a : Int)

/-- The end of `ADDGEN` (R142): the exact sum is `(-1)^sign * t * 2^(k - W)`; find its exponent, round the
significand once to the fraction width the regime leaves, clip and pack. -/
def roundPack (c : Config) (n es : Nat) (sign : Bool) (t : Nat) (k : Int) : Nat :=
  let bl := bitlen t
  let e : Int := (bl : Int) - 1 + k - (c.W : Int)
  if cmax n es < e ∨ e < cmin n es then packClipped c n es sign e 0
  else
    let fw := fwof (regimePart e es) n es
    let q := if bl - 1 ≤ fw then t * 2 ^ (fw - (bl - 1)) else roundShift c.addTie t (bl - 1 - fw)
    let carried := q == 2 ^ (fw + 1)
    let e' := if carried then e + 1 else e
    let q' := if carried then 2 ^ fw else q
    packClipped c n es sign e' ((q' - 2 ^ fw) * 2 ^ (c.W - fw))

/-- `ADDGEN`, the general path of ADD (R142): the exact sum, rounded once. -/
def addGen (c : Config) (n es : Nat) (x y : Nat) : Nat :=
  let u := unpackView c n es x
  let v := unpackView c n es y
  let k := min (combined es u) (combined es v)
  let t := alignedTerm c es k u + alignedTerm c es k v
  roundPack c n es (decide (t < 0)) t.natAbs k

/-- The fast paths of ADD in order, then the general path (R141). -/
def addView (c : Config) (n es : Nat) (x y : Nat) : Posit :=
  if x = zeroView then .view y
  else if y = zeroView then .view x
  else if x = infView n ∧ y = infView n then .nan
  else if x = infView n ∨ y = infView n then .view (infView n)
  else if x = negView n y then .view zeroView
  else .view (addGen c n es x y)

/-- ADD (R131, R141). -/
def addPosit (c : Config) (n es : Nat) : Posit → Posit → Posit
  | .view x, .view y => addView c n es x y
  | .nan, _ => .nan
  | .view _, .nan => .nan

/-- SUB: add the negation (R143). -/
def subPosit (c : Config) (n es : Nat) (x y : Posit) : Posit := addPosit c n es x (negPosit n y)

/-! ## Operations -/

/-- The shape of an operation that reads one value and writes one. -/
def unaryValue (op : Nat → Posit → Posit) (f : Fmt) (x : Value) (s : State) : Host.Outcome State Fault Refusal :=
  answer (paramsLegal s.cfg f) (justified s.cfg f.nbits x)
    (.ofValue ((op f.nbits (Posit.ofValue s.cfg f.nbits x)).toValue s.cfg f.nbits)) s

/-- The shape of an operation that reads two values and writes one. -/
def binaryValue (op : Config → Nat → Nat → Posit → Posit → Posit) (f : Fmt) (x y : Value) (s : State) :
    Host.Outcome State Fault Refusal :=
  answer (paramsLegal s.cfg f) (justified s.cfg f.nbits x && justified s.cfg f.nbits y)
    (.ofValue ((op s.cfg f.nbits f.es (Posit.ofValue s.cfg f.nbits x) (Posit.ofValue s.cfg f.nbits y)).toValue
      s.cfg f.nbits)) s

/-- NEG (R132). -/
def execNeg (f : Fmt) (x : Value) (s : State) : Host.Outcome State Fault Refusal := unaryValue negPosit f x s

/-- REC (R133). -/
def execRec (f : Fmt) (x : Value) (s : State) : Host.Outcome State Fault Refusal := unaryValue recPosit f x s

/-- MUL (R135). -/
def execMul (f : Fmt) (x y : Value) (s : State) : Host.Outcome State Fault Refusal := binaryValue mulPosit f x y s

/-- DIV (R139). -/
def execDiv (f : Fmt) (x y : Value) (s : State) : Host.Outcome State Fault Refusal := binaryValue divPosit f x y s

/-- ADD (R141). -/
def execAdd (f : Fmt) (x y : Value) (s : State) : Host.Outcome State Fault Refusal := binaryValue addPosit f x y s

/-- SUB (R143). -/
def execSub (f : Fmt) (x y : Value) (s : State) : Host.Outcome State Fault Refusal := binaryValue subPosit f x y s

end Sys2Proof.Machine
end

