-- ==== Sys2Proof/Machine/Comparisons.lean ====
section
/-! DEFINITION. Predicates and comparisons (44_predicates_comparisons.md): ISZERO, ISONE, ISINF, ISNEG, ISNAN,
EQ, GT, GE, LT, LE. Each writes `rsp.flag` and nothing else; a NaN operand is legal for all of them (R180). -/

namespace Sys2Proof.Machine

/-- The shape of a predicate: one value read, the flag written. -/
def unaryFlag (test : Nat → Posit → Bool) (f : Fmt) (x : Value) (s : State) : Host.Outcome State Fault Refusal :=
  answer (paramsLegal s.cfg f) (justified s.cfg f.nbits x)
    (.ofFlag (test f.nbits (Posit.ofValue s.cfg f.nbits x))) s

/-- The shape of a comparison: two values read, the flag written. -/
def binaryFlag (test : Nat → Posit → Posit → Bool) (f : Fmt) (x y : Value) (s : State) :
    Host.Outcome State Fault Refusal :=
  answer (paramsLegal s.cfg f) (justified s.cfg f.nbits x && justified s.cfg f.nbits y)
    (.ofFlag (test f.nbits (Posit.ofValue s.cfg f.nbits x) (Posit.ofValue s.cfg f.nbits y))) s

/-- ISZERO (R170). -/
def execIsZero (f : Fmt) (x : Value) (s : State) : Host.Outcome State Fault Refusal :=
  unaryFlag (fun _ => isZeroFlag) f x s

/-- ISONE (R171). -/
def execIsOne (f : Fmt) (x : Value) (s : State) : Host.Outcome State Fault Refusal := unaryFlag isOneFlag f x s

/-- ISINF (R172). -/
def execIsInf (f : Fmt) (x : Value) (s : State) : Host.Outcome State Fault Refusal := unaryFlag isInfFlag f x s

/-- ISNEG (R173). -/
def execIsNeg (f : Fmt) (x : Value) (s : State) : Host.Outcome State Fault Refusal := unaryFlag isNegFlag f x s

/-- ISNAN (R174). -/
def execIsNan (f : Fmt) (x : Value) (s : State) : Host.Outcome State Fault Refusal :=
  unaryFlag (fun _ => isNanFlag) f x s

/-- EQ (R175). -/
def execEq (f : Fmt) (x y : Value) (s : State) : Host.Outcome State Fault Refusal :=
  binaryFlag (fun _ => eqFlag) f x y s

/-- GT (R176). -/
def execGt (f : Fmt) (x y : Value) (s : State) : Host.Outcome State Fault Refusal := binaryFlag gtFlag f x y s

/-- GE (R177). -/
def execGe (f : Fmt) (x y : Value) (s : State) : Host.Outcome State Fault Refusal := binaryFlag geFlag f x y s

/-- LT (R178). -/
def execLt (f : Fmt) (x y : Value) (s : State) : Host.Outcome State Fault Refusal := binaryFlag ltFlag f x y s

/-- LE (R179). -/
def execLe (f : Fmt) (x y : Value) (s : State) : Host.Outcome State Fault Refusal := binaryFlag leFlag f x y s

end Sys2Proof.Machine
end

