-- ==== Sys2Proof/Machine/Construction.lean ====
section
/-! DEFINITION. Construction and extraction (45_construction_extraction.md): CZERO, CONE, CINF, CNAN, SETBITS,
GETBITS. -/

namespace Sys2Proof.Machine

/-- The shape of a sentinel constructor: no operand, a view written as `LJ(v)`. -/
def construct (v : Nat → Nat) (f : Fmt) (s : State) : Host.Outcome State Fault Refusal :=
  answer (paramsLegal s.cfg f) true (.ofValue (.finite (lj s.cfg f.nbits (v f.nbits)))) s

/-- CZERO (R190). -/
def execCZero (f : Fmt) (s : State) : Host.Outcome State Fault Refusal := construct (fun _ => zeroView) f s

/-- CONE (R191). -/
def execCOne (f : Fmt) (s : State) : Host.Outcome State Fault Refusal := construct oneView f s

/-- CINF (R192). -/
def execCInf (f : Fmt) (s : State) : Host.Outcome State Fault Refusal := construct infView f s

/-- CNAN: the NaN flag set, the bits unspecified (R193). -/
def execCNan (f : Fmt) (s : State) : Host.Outcome State Fault Refusal :=
  answer (paramsLegal s.cfg f) true (.ofValue .nan) s

/-- SETBITS: the right-justified pattern as a value; a pattern wider than `nbits` is refused (R194). -/
def execSetBits (f : Fmt) (raw : Nat) (s : State) : Host.Outcome State Fault Refusal :=
  answer (paramsLegal s.cfg f) (rawIsView f raw) (.ofValue (.finite (lj s.cfg f.nbits raw))) s

/-- GETBITS: the view of a value that is not a NaN (R195). -/
def execGetBits (f : Fmt) (x : Value) (s : State) : Host.Outcome State Fault Refusal :=
  answer (paramsLegal s.cfg f) (readable s.cfg f.nbits x) (.ofNat (viewOf s.cfg f.nbits x)) s

end Sys2Proof.Machine
end

