-- ==== Sys2Proof/Machine/Dispatch.lean ====
section
/-! DEFINITION. The dispatch: one arm per operation of rule R52. -/

namespace Sys2Proof.Machine

def exec (i : Instr) (s : State) : Host.Outcome State Fault Refusal :=
  match i with
  | .ssw f => Sys2Proof.Machine.execSsw f s
  | .rsw f x => Sys2Proof.Machine.execRsw f x s
  | .esw f x => Sys2Proof.Machine.execEsw f x s
  | .fsw f x => Sys2Proof.Machine.execFsw f x s
  | .useed f => Sys2Proof.Machine.execUseed f s
  | .unpack f x => Sys2Proof.Machine.execUnpack f x s
  | .pack f r => Sys2Proof.Machine.execPack f r s
  | .fromF32 f raw => Sys2Proof.Machine.execFromF32 f raw s
  | .fromF64 f raw => Sys2Proof.Machine.execFromF64 f raw s
  | .toF32 f x => Sys2Proof.Machine.execToF32 f x s
  | .toF64 f x => Sys2Proof.Machine.execToF64 f x s
  | .neg f x => Sys2Proof.Machine.execNeg f x s
  | .recip f x => Sys2Proof.Machine.execRec f x s
  | .mul f x y => Sys2Proof.Machine.execMul f x y s
  | .div f x y => Sys2Proof.Machine.execDiv f x y s
  | .add f x y => Sys2Proof.Machine.execAdd f x y s
  | .sub f x y => Sys2Proof.Machine.execSub f x y s
  | .isZero f x => Sys2Proof.Machine.execIsZero f x s
  | .isOne f x => Sys2Proof.Machine.execIsOne f x s
  | .isInf f x => Sys2Proof.Machine.execIsInf f x s
  | .isNeg f x => Sys2Proof.Machine.execIsNeg f x s
  | .isNan f x => Sys2Proof.Machine.execIsNan f x s
  | .eq f x y => Sys2Proof.Machine.execEq f x y s
  | .gt f x y => Sys2Proof.Machine.execGt f x y s
  | .ge f x y => Sys2Proof.Machine.execGe f x y s
  | .lt f x y => Sys2Proof.Machine.execLt f x y s
  | .le f x y => Sys2Proof.Machine.execLe f x y s
  | .cZero f => Sys2Proof.Machine.execCZero f s
  | .cOne f => Sys2Proof.Machine.execCOne f s
  | .cInf f => Sys2Proof.Machine.execCInf f s
  | .cNan f => Sys2Proof.Machine.execCNan f s
  | .setBits f raw => Sys2Proof.Machine.execSetBits f raw s
  | .getBits f x => Sys2Proof.Machine.execGetBits f x s

end Sys2Proof.Machine
end

