-- ==== Sys2Proof/Machine/Step.lean ====
section
/-! DEFINITION. One step of the machine: the block answers the outstanding request (R44, R223). There is no
program counter and no fetch from memory (R31, R45): the next instruction is the request on the port. -/

namespace Sys2Proof.Machine

/-- One step. An idle block stays as it is (log entry 5). A request whose code is reserved is refused with
`ILLEGAL_OP`, before every other check (R56, R203); any other is executed. -/
def step (s : State) : Host.Outcome State Fault Refusal :=
  match s.request with
  | none => .next s
  | some q =>
    match decode s.cfg q with
    | .instr i => exec i s
    | .reservedOp _ => refuse .illegalOp s

/-- `s` with the instruction word `w` of `nbits` bits on the request port, every bit above `nbits` zero: the very
next step runs exactly it. The word is numbered as the flat `REQ` vector of rule R57. -/
def State.withFetchWord (s : State) (nbits w : Nat) : State :=
  { s with request := some (Request.ofVector s.cfg (w % 2 ^ nbits)) }

end Sys2Proof.Machine
end

