-- ==== Sys2Proof/Safety.lean ====
section
/-! DEFINITION. What claims are stated in: which requests are legal and with which code an illegal one is refused
(written from rule R202's list, apart from the checks the meanings make), which states have every port value
inside its port's width, and the service of a list of requests. -/

namespace Sys2Proof.Safety

open Sys2Proof.Machine

/-- The operands of an instruction keep their types' invariants: rule R55 read through rule R202's list of which
operation can be refused for what. -/
def operandsLegal (c : Config) : Instr → Bool
  | .ssw _ => true
  | .useed _ => true
  | .fromF64 _ _ => true
  | .cZero _ => true
  | .cOne _ => true
  | .cInf _ => true
  | .cNan _ => true
  | .rsw f x => readable c f.nbits x
  | .esw f x => readable c f.nbits x
  | .fsw f x => readable c f.nbits x
  | .unpack f x => readable c f.nbits x
  | .getBits f x => readable c f.nbits x
  | .pack f r => recordLegal f r
  | .fromF32 _ raw => rawIs32 raw
  | .setBits f raw => rawIsView f raw
  | .toF32 f x => justified c f.nbits x
  | .toF64 f x => justified c f.nbits x
  | .neg f x => justified c f.nbits x
  | .recip f x => justified c f.nbits x
  | .isZero f x => justified c f.nbits x
  | .isOne f x => justified c f.nbits x
  | .isInf f x => justified c f.nbits x
  | .isNeg f x => justified c f.nbits x
  | .isNan f x => justified c f.nbits x
  | .mul f x y => justified c f.nbits x && justified c f.nbits y
  | .div f x y => justified c f.nbits x && justified c f.nbits y
  | .add f x y => justified c f.nbits x && justified c f.nbits y
  | .sub f x y => justified c f.nbits x && justified c f.nbits y
  | .eq f x y => justified c f.nbits x && justified c f.nbits y
  | .gt f x y => justified c f.nbits x && justified c f.nbits y
  | .ge f x y => justified c f.nbits x && justified c f.nbits y
  | .lt f x y => justified c f.nbits x && justified c f.nbits y
  | .le f x y => justified c f.nbits x && justified c f.nbits y

/-- The parameters of an instruction are inside the supported range: rule R54, and for USEED also rule R79. -/
def formatLegal (c : Config) : Instr → Bool
  | .useed f => paramsLegal c f && decide (2 ^ f.es < c.NW)
  | i => paramsLegal c i.fmt

/-- The code an instruction is refused with, none when it is legal: the parameters first (R202, R203). -/
def refusalOf (c : Config) (i : Instr) : Option RefusalCode :=
  if formatLegal c i then
    if operandsLegal c i then none else some .illegalOperand
  else some .illegalParam

/-- "A request that passes rules R56, R54 and R55 is *legal*" (R55). -/
def legal (c : Config) (q : Request) : Bool :=
  match decode c q with
  | .instr i => (refusalOf c i).isNone
  | .reservedOp _ => false

/-- The response fits the widths of rule R51. -/
def responseFits (c : Config) : Response → Bool
  | .ok p => p.r.wellFormed c && p.record.wellFormed c && Word.fits c.NW p.n
  | .refused _ => true

/-- The configuration is legal and whatever stands on a port fits the port: the invariant every step keeps. -/
def portsFit (s : State) : Bool :=
  s.cfg.legal && (s.request.all fun q => q.wellFormed s.cfg) && (s.response.all fun r => responseFits s.cfg r)

/-- A step from `s` is safe: it answers a next state in which no request is outstanding and, if one was, its
response stands on the port ("Every request is answered", R223). -/
def safeStep (s : State) : Prop :=
  ∃ t, step s = .next t ∧ t.request = none ∧ (s.request ≠ none → t.response ≠ none)

/-- The host presents the requests of a list one after another, each when the last has been answered, and
collects the responses; `none` when some request is not answered (R44, R58). -/
def serve (s : State) : List Request → Option (List Response × State)
  | [] => some ([], s)
  | q :: qs =>
    match s.present q with
    | none => none
    | some s' =>
      match step s' with
      | .next t =>
        match t.response, serve t qs with
        | some r, some (rs, u) => some (r :: rs, u)
        | _, _ => none
      | .fault _ => none
      | .refused _ => none

/-- The response an instance that has just been reset gives to one request alone. -/
def responseAlone (c : Config) (q : Request) : Option Response :=
  match step { State.resetOf c with request := some q } with
  | .next t => t.response
  | .fault _ => none
  | .refused _ => none

/-! ## The vocabulary of claims -/

/-- The format parameters pass rule R54: `2 <= nbits <= W` and `es <= ES_MAX`. -/
abbrev FmtLegal (c : Config) (f : Fmt) : Prop := 2 ≤ f.nbits ∧ f.nbits ≤ c.W ∧ f.es ≤ c.esMax

/-- The value whose view is `v`: `{bits: LJ(v), nan: 0}` (R23). -/
def packed (c : Config) (n : Nat) (v : Nat) : Value := .finite (lj c n v)

/-- A value operand with a stray low bit: a word that is not left-justified (R55 (a)). -/
abbrev Stray (c : Config) (n : Nat) : Value → Prop
  | .nan => False
  | .finite b => b % 2 ^ (c.W - n) ≠ 0

/-- A NaN or an `n`-bit view: what the operation rules of files 42 to 44 are stated for. -/
abbrev OnViews (n : Nat) : Posit → Prop
  | .nan => True
  | .view v => v < 2 ^ n

/-- A view other than `ZERO` and `INF`: it denotes the number of its unpacked record (R29). -/
abbrev Denotes (n : Nat) (v : Nat) : Prop := v < 2 ^ n ∧ v ≠ 0 ∧ v ≠ 2 ^ (n - 1)

/-- A view other than `INF`: it denotes a real number (R29). -/
abbrev FiniteView (n : Nat) (v : Nat) : Prop := v < 2 ^ n ∧ v ≠ 2 ^ (n - 1)

/-- The number a record denotes: `(-1)^sign * 2^(2^es * regime + exponent) * (1 + fraction / 2^W)` (R29). -/
def recordValue (c : Config) (es : Nat) (r : Record) : ℚ :=
  (if r.sign then -1 else 1) * (2 : ℚ) ^ combined es r * (1 + (r.fraction : ℚ) / 2 ^ c.W)

/-- The number a view other than `INF` denotes: 0 for `ZERO`, and otherwise the number of its unpacked record, which for
`ZERO` would not be 0: "whatever their unpacked records say" (R29). -/
def viewValue (c : Config) (n es : Nat) (v : Nat) : ℚ :=
  if v = zeroView then 0 else recordValue c es (unpackView c n es v)

/-- What a non-NaN view can denote (R29). -/
inductive Number where
  /-- the one unsigned infinity -/
  | infinity
  | real (q : ℚ)
  deriving DecidableEq, Repr

/-- What a non-NaN view denotes: `INF` the unsigned infinity, `ZERO` 0, every other view the number of its unpacked
record (R29). -/
def denoted (c : Config) (n es : Nat) (v : Nat) : Number :=
  if v = infView n then .infinity else .real (viewValue c n es v)

/-- Pack an exact nonzero number by truncation: its exponent is `floor(log2 |v|)`, its fraction the first `W` bits
of the significand's fraction, and CLIP and PACK do the rest (R77, R95, R98). -/
def truncateExact (c : Config) (n es : Nat) (v : ℚ) : Nat :=
  let e := Int.log 2 |v|
  packClipped c n es (decide (v < 0)) e ⌊(|v| / 2 ^ e - 1) * 2 ^ c.W⌋₊

/-- Round a non-negative number to the nearest integer, ties by `ADD_TIE` (R142). -/
def roundNearest (tie : AddTie) (m : ℚ) : Nat :=
  let q := ⌊m⌋₊
  let rem := m - q
  if rem > 1 / 2 ∨ (rem = 1 / 2 ∧ (tie = .away ∨ q % 2 = 1)) then q + 1 else q

/-- Pack an exact nonzero number by the rounding of rule R142: outside the representable range the signed maxpos
or minpos; inside it the significand rounded once to the fraction width of its regime, a carry to 2.0 raising the
exponent. -/
def roundExact (c : Config) (n es : Nat) (v : ℚ) : Nat :=
  let e := Int.log 2 |v|
  if cmax n es < e ∨ e < cmin n es then packClipped c n es (decide (v < 0)) e 0
  else
    let fw := fwof (regimePart e es) n es
    let q := roundNearest c.addTie (|v| / 2 ^ e * 2 ^ fw)
    if q = 2 ^ (fw + 1) then packClipped c n es (decide (v < 0)) (e + 1) 0
    else packClipped c n es (decide (v < 0)) e ((q - 2 ^ fw) * 2 ^ (c.W - fw))

/-- The request fields an operation reads beside `op`, `nbits` and `es` (R53). -/
inductive Reads where
  | nothing
  | a
  | ab
  | record
  | raw
  deriving DecidableEq, Repr

/-- The table of rule R53, its column "reads". -/
def reads : Instr → Reads
  | .ssw _ => .nothing
  | .useed _ => .nothing
  | .rsw _ _ => .a
  | .esw _ _ => .a
  | .fsw _ _ => .a
  | .getBits _ _ => .a
  | .toF32 _ _ => .a
  | .toF64 _ _ => .a
  | .unpack _ _ => .a
  | .pack _ _ => .record
  | .fromF32 _ _ => .raw
  | .fromF64 _ _ => .raw
  | .setBits _ _ => .raw
  | .neg _ _ => .a
  | .recip _ _ => .a
  | .mul _ _ _ => .ab
  | .div _ _ _ => .ab
  | .add _ _ _ => .ab
  | .sub _ _ _ => .ab
  | .isZero _ _ => .a
  | .isOne _ _ => .a
  | .isInf _ _ => .a
  | .isNeg _ _ => .a
  | .isNan _ _ => .a
  | .eq _ _ _ => .ab
  | .gt _ _ _ => .ab
  | .ge _ _ _ => .ab
  | .lt _ _ _ => .ab
  | .le _ _ _ => .ab
  | .cZero _ => .nothing
  | .cOne _ => .nothing
  | .cInf _ => .nothing
  | .cNan _ => .nothing

/-- Two value ports carry the same value: the same NaN flag and, unless it is set, the same bits (R21, R25). -/
abbrev SameValue (p p' : ValuePort) : Prop := p.nan = p'.nan ∧ (p.nan = false → p.bits = p'.bits)

/-- Two requests agree on `op`, `nbits`, `es` and the fields `r` names: on all that an operation reads (R53). -/
abbrev AgreeOn (r : Reads) (q q' : Request) : Prop :=
  q.op = q'.op ∧ q.nbits = q'.nbits ∧ q.es = q'.es ∧
    match r with
    | .nothing => True
    | .a => SameValue q.a q'.a
    | .ab => SameValue q.a q'.a ∧ SameValue q.b q'.b
    | .record => q.record = q'.record
    | .raw => q.raw = q'.raw

/-- The result field an operation writes (R53). -/
inductive Written where
  | r
  | record
  | n
  | flag
  deriving DecidableEq, Repr

/-- The table of rule R53, its column "writes". -/
def written : Instr → Written
  | .ssw _ => .n
  | .useed _ => .n
  | .rsw _ _ => .n
  | .esw _ _ => .n
  | .fsw _ _ => .n
  | .getBits _ _ => .n
  | .toF32 _ _ => .n
  | .toF64 _ _ => .n
  | .unpack _ _ => .record
  | .pack _ _ => .r
  | .fromF32 _ _ => .r
  | .fromF64 _ _ => .r
  | .setBits _ _ => .r
  | .neg _ _ => .r
  | .recip _ _ => .r
  | .mul _ _ _ => .r
  | .div _ _ _ => .r
  | .add _ _ _ => .r
  | .sub _ _ _ => .r
  | .isZero _ _ => .flag
  | .isOne _ _ => .flag
  | .isInf _ _ => .flag
  | .isNeg _ _ => .flag
  | .isNan _ _ => .flag
  | .eq _ _ _ => .flag
  | .gt _ _ _ => .flag
  | .ge _ _ _ => .flag
  | .lt _ _ _ => .flag
  | .le _ _ _ => .flag
  | .cZero _ => .r
  | .cOne _ => .r
  | .cInf _ => .r
  | .cNan _ => .r

/-- Which legal requests give a `NaN` result: the list of rule R208, on the values of the operands. -/
def resultIsNan (c : Config) : Instr → Bool
  | .cNan _ => true
  | .neg _ x => x == .nan
  | .recip _ x => x == .nan
  | .mul _ x y => x == .nan || y == .nan || (x == .finite 0 && y == .finite (2 ^ (c.W - 1))) ||
      (x == .finite (2 ^ (c.W - 1)) && y == .finite 0)
  | .div _ x y => x == .nan || y == .nan || (x == .finite 0 && y == .finite 0) ||
      (x == .finite (2 ^ (c.W - 1)) && y == .finite (2 ^ (c.W - 1)))
  | .add _ x y => x == .nan || y == .nan || (x == .finite (2 ^ (c.W - 1)) && y == .finite (2 ^ (c.W - 1)))
  | .sub _ x y => x == .nan || y == .nan || (x == .finite (2 ^ (c.W - 1)) && y == .finite (2 ^ (c.W - 1)))
  | .fromF32 _ raw => decide (raw / 2 ^ 23 % 2 ^ 8 = 2 ^ 8 - 1) && decide (raw % 2 ^ 23 ≠ 0)
  | .fromF64 _ raw => decide (raw / 2 ^ 52 % 2 ^ 11 = 2 ^ 11 - 1) && decide (raw % 2 ^ 52 ≠ 0)
  | .ssw _ => false
  | .rsw _ _ => false
  | .esw _ _ => false
  | .fsw _ _ => false
  | .useed _ => false
  | .unpack _ _ => false
  | .pack _ _ => false
  | .toF32 _ _ => false
  | .toF64 _ _ => false
  | .isZero _ _ => false
  | .isOne _ _ => false
  | .isInf _ _ => false
  | .isNeg _ _ => false
  | .isNan _ _ => false
  | .eq _ _ _ => false
  | .gt _ _ _ => false
  | .ge _ _ _ => false
  | .lt _ _ _ => false
  | .le _ _ _ => false
  | .cZero _ => false
  | .cOne _ => false
  | .cInf _ => false
  | .setBits _ _ => false
  | .getBits _ _ => false

end Sys2Proof.Safety
end

