-- ==== Sys2Proof/Certificates/Slice0/Obligations.lean ====
section
/-! DEFINITION. The statements for the provers. Each is a Prop about the machine, for every configuration the
state may carry; OBLIGATIONS.json says of each which rule of spec/ it formalises or rests on.

An operand is written `x.toValue s.cfg f.nbits` for a `Posit` `x` that is a NaN or an `n`-bit view
(`OnViews`), or `packed s.cfg f.nbits v` for a view `v < 2^n`. By `ViewAndWordAreInverse` these are all the
values that rule R55 (a) lets through, so no operand form is shut out; what the other operands meet is
`RefusalsAreExactlyTheListed`. -/

open Sys2Proof Sys2Proof.Machine Sys2Proof.Safety

/-! ## Encoding and the step -/

/-- The decoder gives back every well-formed instruction from the encoder's flat `REQ` vector, under every legal
configuration (R50, R52, R53, R57, R60). -/
def Obligations.DecodeOfEncodedVector : Prop :=
  ∀ (c : Config) (i : Instr), c.legal = true → i.wellFormed c = true →
    decodeVector c (encode c i) = .instr i

/-- "a field an operation does not read is ignored" (R50): two requests that agree on `op`, `nbits`, `es` and the fields
rule R53 lists for the operation decode to the same instruction, whatever their other fields and the bits of a NaN
hold. And a well-formed request that decodes to `i` agrees, on all that is read, with the request the encoder forms
for `i`, which is well-formed and decodes to `i`. -/
def Obligations.UnreadFieldsAreIgnored : Prop :=
  (∀ (c : Config) (q q' : Request) (i : Instr), decode c q = .instr i → AgreeOn (reads i) q q' →
    decode c q' = .instr i) ∧
  (∀ (c : Config) (q : Request) (i : Instr), c.legal = true → q.wellFormed c = true → decode c q = .instr i →
    i.wellFormed c = true ∧ AgreeOn (reads i) q (requestOf c i) ∧ decode c (requestOf c i) = .instr i)

/-- The flat layout of rule R57: a well-formed request is read back from its vector, whatever the parameters, and its
vector fits the port; and at the default parameters the fields of both records stand at the bit positions the rule
prints. -/
def Obligations.RecordsAsFlatVectors : Prop :=
  (∀ (c : Config) (q : Request), q.wellFormed c = true →
    Request.ofVector c (q.toVector c) = q ∧ q.toVector c < 2 ^ Request.width c) ∧
  (∀ q : Request, q.wellFormed Config.default = true →
    let v := q.toVector Config.default
    slice v 0 8 = q.op ∧ slice v 8 8 = q.nbits ∧ slice v 16 8 = q.es ∧
    slice v 24 32 = q.a.bits ∧ slice v 56 1 = flagWord q.a.nan ∧
    slice v 57 32 = q.b.bits ∧ slice v 89 1 = flagWord q.b.nan ∧
    slice v 90 1 = flagWord q.record.sign ∧ slice v 91 32 = q.record.regime ∧
    slice v 123 8 = q.record.exponent ∧ slice v 131 32 = q.record.fraction ∧ slice v 163 64 = q.raw) ∧
  (∀ p : ResponsePort,
    let v := p.toVector Config.default
    slice v 0 2 = p.status % 2 ^ 2 ∧ slice v 2 32 = p.rBits % 2 ^ 32 ∧ slice v 34 1 = p.rNan % 2 ∧
    slice v 35 1 = p.sign % 2 ∧ slice v 36 32 = p.regime % 2 ^ 32 ∧ slice v 68 8 = p.exponent % 2 ^ 8 ∧
    slice v 76 32 = p.fraction % 2 ^ 32 ∧ slice v 108 64 = p.n % 2 ^ 64 ∧ slice v 172 1 = p.flag % 2)

/-- Request vectors printed in 95_test_vectors.md section 4 decode to the requests printed beside them. -/
def Obligations.DecodingOfPrintedVectors : Prop :=
  decodeVector Config.default 0x831 = .instr (.cOne ⟨8, 0⟩) ∧
  decodeVector Config.default 0x80000000C000000000081A = .instr
    (.mul ⟨8, 0⟩ (.finite 0xC0000000) (.finite 0x40000000)) ∧
  decodeVector Config.default 0x20000000100000000000828 = .instr (.eq ⟨8, 0⟩ .nan .nan) ∧
  decodeVector Config.default 0x20000000008000000080000000000000000010809 = .instr
    (.pack ⟨8, 1⟩ ⟨false, 1, 1, 0x40000000⟩) ∧
  decodeVector Config.default 0x1FE0000000000000000000000000000000000000000000810 = .instr
    (.fromF32 ⟨8, 0⟩ 0x3FC00000) ∧
  decodeVector Config.default 0x81E = .reservedOp 0x1E

/-- Reserved codes, the ranges of rule R56: refused with `ILLEGAL_OP` whatever the rest of the request holds. -/
def Obligations.ReservedCodesAreRefused : Prop :=
  ∀ (s : State) (q : Request), s.request = some q →
    (0x05 ≤ q.op ∧ q.op ≤ 0x07) ∨ (0x0A ≤ q.op ∧ q.op ≤ 0x0F) ∨ (0x14 ≤ q.op ∧ q.op ≤ 0x17) ∨
      q.op = 0x1E ∨ q.op = 0x1F ∨ (0x25 ≤ q.op ∧ q.op ≤ 0x27) ∨ (0x2D ≤ q.op ∧ q.op ≤ 0x2F) ∨
      (0x36 ≤ q.op ∧ q.op ≤ 0xFF) →
    step s = .next (s.answered (.refused .illegalOp))

/-- A step runs exactly the instruction that the outstanding request decodes to, from whatever request or vector it
was read. With no request outstanding a step changes nothing: that clause is the model's own (log entry 5). -/
def Obligations.StepRunsDecodedRequest : Prop :=
  (∀ (s : State) (q : Request) (i : Instr), s.request = some q → decode s.cfg q = .instr i → step s = exec i s) ∧
  (∀ (s : State) (nbits w : Nat) (i : Instr), decodeVector s.cfg (w % 2 ^ nbits) = .instr i →
    step (s.withFetchWord nbits w) = exec i (s.withFetchWord nbits w)) ∧
  (∀ s : State, s.request = none → step s = .next s)

/-- "The response to a request is a function of that request alone (and of the configuration parameters ...)"
(R20): two instances with the same parameters answer one request alike, whatever they answered before, and each
always answers it (R223), changing nothing but its ports. -/
def Obligations.ResponseIsFunctionOfRequest : Prop :=
  ∀ (s s' : State) (q : Request), s.cfg = s'.cfg → s.request = some q → s'.request = some q →
    ∃ rsp, step s = .next (s.answered rsp) ∧ step s' = .next (s'.answered rsp)

/-- Requests are taken one at a time, answered in the order taken, each with the response it would get alone from a
block that has just been reset (R44); none can be presented while one is outstanding. -/
def Obligations.ServiceInOrder : Prop :=
  (∀ (s : State) (qs : List Request), s.request = none →
    ∃ rs u, serve s qs = some (rs, u) ∧ rs.map some = qs.map (responseAlone s.cfg) ∧
      u.cfg = s.cfg ∧ u.request = none) ∧
  (∀ (s : State) (q q' : Request), s.request = some q → s.present q' = none)

/-- The bits of a NaN operand are never read (R25, R55 (b)): changing them changes no answer. -/
def Obligations.NanBitsAreNeverRead : Prop :=
  ∀ (s : State) (q : Request) (k : Nat),
    (q.a.nan = true → step { s with request := some { q with a := { q.a with bits := k } } } =
      step { s with request := some q }) ∧
    (q.b.nan = true → step { s with request := some { q with b := { q.b with bits := k } } } =
      step { s with request := some q })

/-! ## State, reset, refusals -/

/-- Whatever stands on a port fits the port, and the configuration stays legal: every step keeps it (R51, R60,
R26). -/
def Obligations.StepKeepsPortsFit : Prop :=
  ∀ s t : State, portsFit s = true → step s = .next t → portsFit t = true

/-- The model's reset state meets the invariant (at the default parameters, log entry 2), and asserting reset keeps
it. -/
def Obligations.ResetMeetsPortsFit : Prop :=
  portsFit State.reset = true ∧ ∀ s : State, portsFit s = true → portsFit s.assertReset = true

/-- Reset (R220), of any instance and of the machine's own reset state: no request is outstanding, the one that was
gets no response, the response port holds no defined value, and neither reset nor any operation changes the
configuration parameters. -/
def Obligations.ResetIsIdleAndKeepsParameters : Prop :=
  (∀ s : State, s.assertReset.request = none ∧ s.assertReset.response = none ∧ s.assertReset.cfg = s.cfg) ∧
  State.reset.request = none ∧ State.reset.response = none ∧
  (∀ (i : Instr) (s t : State), exec i s = .next t → t.cfg = s.cfg) ∧
  (∀ s t : State, step s = .next t → t.cfg = s.cfg)

/-- Every operation: it is refused exactly when rule R202 lists it, with the code and in the priority of rule R203,
and otherwise it is answered `OK`, a next state; refused or not, nothing changes but the two ports (R43, R205). -/
def Obligations.RefusalsAreExactlyTheListed : Prop :=
  ∀ (i : Instr) (s : State),
    (∀ code, refusalOf s.cfg i = some code → exec i s = .next (s.answered (.refused code))) ∧
    (refusalOf s.cfg i = none → ∃ p, exec i s = .next (s.answered (.ok p)))

/-- The parameter check of rule R54, made for every operation before its operands are looked at. -/
def Obligations.IllegalParametersAreRefused : Prop :=
  ∀ (i : Instr) (s : State), i.fmt.nbits < 2 ∨ s.cfg.W < i.fmt.nbits ∨ s.cfg.esMax < i.fmt.es →
    exec i s = .next (s.answered (.refused .illegalParam))

/-- "When `status = OK`, the fields the operation writes (rule R53) hold its result and every other field is zero"
(R51), as fields and on the wires of the response port. The wires hold the status codes of rule R201, the regime as
its `RW`-bit two's-complement word (R60), and anything at all where the spec specifies nothing: the bits of a NaN
result (R25), every field but the status of a refused response (R51, R201). -/
def Obligations.ResponseFieldsAndWires : Prop :=
  (∀ (i : Instr) (s : State) (p : Reply), exec i s = .next (s.answered (.ok p)) →
    (written i ≠ .r → p.r = .finite 0) ∧
    (written i ≠ .record → p.record = ⟨false, 0, 0, 0⟩) ∧
    (written i ≠ .n → p.n = 0) ∧
    (written i ≠ .flag → p.flag = false)) ∧
  (∀ (c : Config) (any : ResponsePort) (p : Reply),
    let w := Response.onPort c any (.ok p)
    w.status = 0 ∧
    (∀ b, p.r = .finite b → w.rBits = b ∧ w.rNan = 0) ∧
    (p.r = .nan → w.rNan = 1 ∧ ∀ k, Response.onPort c { any with rBits := k } (.ok p) = { w with rBits := k }) ∧
    (w.sign = 1 ↔ p.record.sign = true) ∧ w.sign < 2 ∧
    (w.regime : Int) = p.record.regime % ((2 ^ c.RW : Nat) : Int) ∧
    w.exponent = p.record.exponent ∧ w.fraction = p.record.fraction ∧ w.n = p.n ∧
    (w.flag = 1 ↔ p.flag = true) ∧ w.flag < 2) ∧
  (∀ (c : Config) (w : ResponsePort),
    Response.onPort c w (.refused .illegalOp) = { w with status := 1 } ∧
    Response.onPort c w (.refused .illegalParam) = { w with status := 2 } ∧
    Response.onPort c w (.refused .illegalOperand) = { w with status := 3 }) ∧
  (∀ (c : Config) (any : ResponsePort) (rsp : Response), (Response.onPort c any rsp).status = rsp.status)

/-- "Every non-NaN result the block produces satisfies the invariant" of left-justification (R22), and fits the
word. -/
def Obligations.ResultsAreLeftJustified : Prop :=
  ∀ (i : Instr) (s : State) (p : Reply) (b : Nat), s.cfg.legal = true → i.wellFormed s.cfg = true →
    exec i s = .next (s.answered (.ok p)) → p.r = .finite b →
    b % 2 ^ (s.cfg.W - i.fmt.nbits) = 0 ∧ b < 2 ^ s.cfg.W

/-- Which results are NaN: exactly the list of rule R208. -/
def Obligations.NanResultsAreExactlyTheListed : Prop :=
  ∀ (i : Instr) (s : State) (p : Reply), s.cfg.legal = true → i.wellFormed s.cfg = true →
    exec i s = .next (s.answered (.ok p)) → (p.r = .nan ↔ resultIsNan s.cfg i = true)

/-- `V(x) = x.bits >> (W - n)`, `LJ(v) = v << (W - n)`, `V(LJ(v)) = v`, and a left-justified `W`-bit word is `LJ` of its
view (R23). -/
def Obligations.ViewAndWordAreInverse : Prop :=
  ∀ (c : Config) (n : Nat), 2 ≤ n → n ≤ c.W →
    (∀ b, view c n b = b / 2 ^ (c.W - n)) ∧ (∀ v, lj c n v = v * 2 ^ (c.W - n)) ∧
    (∀ v, v < 2 ^ n →
      view c n (lj c n v) = v ∧ lj c n v < 2 ^ c.W ∧ justified c n (.finite (lj c n v)) = true) ∧
    (∀ b, b < 2 ^ c.W → justified c n (.finite b) = true → lj c n (view c n b) = b ∧ view c n b < 2 ^ n)

/-! ## Field arithmetic -/

/-- RSW answers the largest `m` in `[1, n-1]` such that the `m` bits from bit `n-2` down are equal (R70, R72); a NaN
operand or stray low bits are refused. -/
def Obligations.RegimeWidthIsTheMaximalRun : Prop :=
  ∀ (s : State) (f : Fmt), FmtLegal s.cfg f →
    (∀ v, v < 2 ^ f.nbits →
      ∃ m, exec (.rsw f (packed s.cfg f.nbits v)) s = .next (s.answered (.ok (.ofNat m))) ∧
        1 ≤ m ∧ m ≤ f.nbits - 1 ∧
        (∀ i, i < m → v.testBit (f.nbits - 2 - i) = v.testBit (f.nbits - 2)) ∧
        (m < f.nbits - 1 → v.testBit (f.nbits - 2 - m) ≠ v.testBit (f.nbits - 2))) ∧
    (∀ x : Value, x = .nan ∨ Stray s.cfg f.nbits x →
      exec (.rsw f x) s = .next (s.answered (.refused .illegalOperand)))

/-- ESW answers `min(es, R)` and FSW `R - min(es, R)`, with `R = max(0, n - 2 - m)` for the run length `m` of RSW
(R73, R74, R75); a NaN operand or stray low bits are refused. -/
def Obligations.ExponentAndFractionWidths : Prop :=
  ∀ (s : State) (f : Fmt), FmtLegal s.cfg f →
    (∀ v, v < 2 ^ f.nbits →
      ∃ m, exec (.rsw f (packed s.cfg f.nbits v)) s = .next (s.answered (.ok (.ofNat m))) ∧
        exec (.esw f (packed s.cfg f.nbits v)) s = .next (s.answered (.ok (.ofNat (min f.es (f.nbits - 2 - m))))) ∧
        exec (.fsw f (packed s.cfg f.nbits v)) s =
          .next (s.answered (.ok (.ofNat (f.nbits - 2 - m - min f.es (f.nbits - 2 - m)))))) ∧
    (∀ x : Value, x = .nan ∨ Stray s.cfg f.nbits x →
      exec (.esw f x) s = .next (s.answered (.refused .illegalOperand)) ∧
      exec (.fsw f x) s = .next (s.answered (.refused .illegalOperand)))

/-- "For every pattern, `SSW + RSW + TERM + ESW + FSW = nbits`" (R81). -/
def Obligations.WidthsSumToNbits : Prop :=
  ∀ (s : State) (f : Fmt) (v : Nat), FmtLegal s.cfg f → v < 2 ^ f.nbits →
    ∃ ss m ew fw,
      exec (.ssw f) s = .next (s.answered (.ok (.ofNat ss))) ∧
      exec (.rsw f (packed s.cfg f.nbits v)) s = .next (s.answered (.ok (.ofNat m))) ∧
      exec (.esw f (packed s.cfg f.nbits v)) s = .next (s.answered (.ok (.ofNat ew))) ∧
      exec (.fsw f (packed s.cfg f.nbits v)) s = .next (s.answered (.ok (.ofNat fw))) ∧
      ss + m + (if m < f.nbits - 1 then 1 else 0) + ew + fw = f.nbits

/-- SSW answers 1 (R71); USEED answers `2^(2^es)`, and is refused `ILLEGAL_PARAM` when `2^es >= NW` (R79). -/
def Obligations.SignWidthAndUseed : Prop :=
  ∀ (s : State) (f : Fmt), FmtLegal s.cfg f →
    exec (.ssw f) s = .next (s.answered (.ok (.ofNat 1))) ∧
    (2 ^ f.es < s.cfg.NW → exec (.useed f) s = .next (s.answered (.ok (.ofNat (2 ^ 2 ^ f.es))))) ∧
    (s.cfg.NW ≤ 2 ^ f.es → exec (.useed f) s = .next (s.answered (.refused .illegalParam)))

/-- `DECOMP` splits a combined exponent by floor division and is the inverse of rule R28 (R78). -/
def Obligations.DecompInvertsCombinedExponent : Prop :=
  (∀ (e : Int) (es : Nat), exponentPart e es < 2 ^ es ∧
    ((2 ^ es : Nat) : Int) * regimePart e es + (exponentPart e es : Int) = e) ∧
  (∀ (es : Nat) (r : Record), r.exponent < 2 ^ es →
    regimePart (combined es r) es = r.regime ∧ exponentPart (combined es r) es = r.exponent)

/-! ## The codec -/

/-- UNPACK of the sentinel patterns (R94). -/
def Obligations.UnpackOfSentinels : Prop :=
  ∀ (s : State) (f : Fmt), FmtLegal s.cfg f →
    exec (.unpack f (packed s.cfg f.nbits 0)) s =
      .next (s.answered (.ok (.ofRecord ⟨false, 1 - (f.nbits : Int), 0, 0⟩))) ∧
    exec (.unpack f (packed s.cfg f.nbits (2 ^ (f.nbits - 1)))) s =
      .next (s.answered (.ok (.ofRecord ⟨true, 1 - (f.nbits : Int), 0, 0⟩))) ∧
    exec (.unpack f (packed s.cfg f.nbits (2 ^ (f.nbits - 2)))) s =
      .next (s.answered (.ok (.ofRecord ⟨false, 0, 0, 0⟩))) ∧
    exec (.unpack f (packed s.cfg f.nbits (2 ^ (f.nbits - 1) + 2 ^ (f.nbits - 2)))) s =
      .next (s.answered (.ok (.ofRecord ⟨true, 0, 0, 0⟩)))

/-- The ranges of an unpacked record: the sign is the top bit, the exponent an `es`-bit integer (R26), the regime in
`[-(n-1), n-2]` (R76), the fraction a `W`-bit word whose three low bits are zero (R93); and the regime is exact
on its `RW`-bit port (R60). -/
def Obligations.UnpackedRecordRanges : Prop :=
  ∀ (s : State) (f : Fmt) (v : Nat), s.cfg.legal = true → FmtLegal s.cfg f → v < 2 ^ f.nbits →
    ∃ r, exec (.unpack f (packed s.cfg f.nbits v)) s = .next (s.answered (.ok (.ofRecord r))) ∧
      r.sign = v.testBit (f.nbits - 1) ∧ r.exponent < 2 ^ f.es ∧
      1 - (f.nbits : Int) ≤ r.regime ∧ r.regime ≤ (f.nbits : Int) - 2 ∧
      r.fraction < 2 ^ s.cfg.W ∧ r.fraction % 8 = 0 ∧
      regimeOfWord s.cfg.RW (wordOfRegime s.cfg.RW r.regime) = r.regime

/-- UNPACK reads the layout of rule R27: for a view other than `ZERO` and `INF`, the bits of the magnitude pattern
after the sign are the regime code, the exponent and the fraction of the record, cut to `n-1` bits, and everything cut
off is zero (R90 to R93, R96). -/
def Obligations.UnpackReadsTheFieldLayout : Prop :=
  ∀ (s : State) (f : Fmt) (v : Nat), FmtLegal s.cfg f → Denotes f.nbits v →
    ∃ r, exec (.unpack f (packed s.cfg f.nbits v)) s = .next (s.answered (.ok (.ofRecord r))) ∧
      (packString s.cfg f.es r).take (f.nbits - 1) =
        bitString (f.nbits - 1) (if v.testBit (f.nbits - 1) then 2 ^ f.nbits - v else v) ∧
      (∀ b ∈ (packString s.cfg f.es r).drop (f.nbits - 1), b = false)

/-- PACK writes the first `n-1` bits of the string `S` (regime code, exponent, fraction) as the magnitude, and for
sign 1 its two's complement with the sign bit forced (R95, R96, R98, R99); an exponent wider than `es` bits is
refused. -/
def Obligations.PackTakesTheFirstBitsOfS : Prop :=
  ∀ (s : State) (f : Fmt) (r : Record), FmtLegal s.cfg f → r.fraction < 2 ^ s.cfg.W →
    (r.exponent < 2 ^ f.es → exec (.pack f r) s = .next (s.answered (.ok (.ofValue (packed s.cfg f.nbits
      (let p := natOfBits ((packString s.cfg f.es r).take (f.nbits - 1))
       if r.sign then ((2 ^ f.nbits - p) % 2 ^ f.nbits) ||| 2 ^ (f.nbits - 1) else p)))))) ∧
    (2 ^ f.es ≤ r.exponent → exec (.pack f r) s = .next (s.answered (.refused .illegalOperand)))

/-- Saturation of PACK (R97): at and above regime `n-2` maxpos; at regime `-(n-2)` with nothing after it minpos; at
and below `-(n-1)` the all-zero magnitude, which is `ZERO`, or `INF` for sign 1 (R99, R101). -/
def Obligations.PackSaturates : Prop :=
  ∀ (s : State) (f : Fmt) (r : Record), FmtLegal s.cfg f → r.exponent < 2 ^ f.es → r.fraction < 2 ^ s.cfg.W →
    ((f.nbits : Int) - 2 ≤ r.regime → exec (.pack f r) s = .next (s.answered (.ok (.ofValue
      (packed s.cfg f.nbits (if r.sign then 2 ^ (f.nbits - 1) + 1 else 2 ^ (f.nbits - 1) - 1)))))) ∧
    (r.regime = 2 - (f.nbits : Int) → exec (.pack f r) s = .next (s.answered (.ok (.ofValue
      (packed s.cfg f.nbits (if r.sign then 2 ^ f.nbits - 1 else 1)))))) ∧
    (r.regime ≤ 1 - (f.nbits : Int) → exec (.pack f r) s = .next (s.answered (.ok (.ofValue
      (packed s.cfg f.nbits (if r.sign then 2 ^ (f.nbits - 1) else 0))))))

/-- "For every representable packed bit pattern `b` of a given `(nbits, es)`, `pack(unpack(b)) == b`" (R100), for
every view, `ZERO` and `INF` included. -/
def Obligations.PackOfUnpackIsIdentity : Prop :=
  ∀ (s : State) (f : Fmt) (v : Nat), FmtLegal s.cfg f → v < 2 ^ f.nbits →
    ∃ r, exec (.unpack f (packed s.cfg f.nbits v)) s = .next (s.answered (.ok (.ofRecord r))) ∧
      exec (.pack f r) s = .next (s.answered (.ok (.ofValue (packed s.cfg f.nbits v))))

/-- "after `CLIP` the regime lies in `[-(n-2), n-2]` and PACK's result is never `ZERO` or `INF`" (R101). -/
def Obligations.ClippedPackIsFiniteNonzero : Prop :=
  ∀ (c : Config) (n es : Nat) (sign : Bool) (e : Int) (fraction : Nat), 2 ≤ n → n ≤ c.W → fraction < 2 ^ c.W →
    Denotes n (packClipped c n es sign e fraction)

/-- What views denote (R29), and their order (R34 as corrected by 90_conflicts.md C5): `ZERO` denotes 0 and `INF` the
unsigned infinity; negation negates the number; the unsigned order of views is numeric order between two views of the
same sign, `ZERO` at the bottom of the non-negative ones; a view with the sign bit set denotes a smaller number than
one with it clear; and distinct views denote distinct numbers (R142 (d)). -/
def Obligations.UnsignedOrderIsNumericWithinASign : Prop :=
  ∀ (c : Config) (n es : Nat) (x y : Nat), 2 ≤ n → n ≤ c.W →
    denoted c n es 0 = .real 0 ∧ denoted c n es (2 ^ (n - 1)) = .infinity ∧
    (FiniteView n x → viewValue c n es (negView n x) = -viewValue c n es x) ∧
    (FiniteView n x → FiniteView n y → x.testBit (n - 1) = y.testBit (n - 1) → x < y →
      viewValue c n es x < viewValue c n es y) ∧
    (FiniteView n x → FiniteView n y → x.testBit (n - 1) = true → y.testBit (n - 1) = false →
      viewValue c n es x < viewValue c n es y) ∧
    (Denotes n x → x.testBit (n - 1) = false → 0 < viewValue c n es x) ∧
    (x < 2 ^ n → y < 2 ^ n → denoted c n es x = denoted c n es y → x = y)

/-! ## IEEE interop -/

/-- The IEEE special patterns (R112): zero and every subnormal give `ZERO`, the infinities `INF`, every NaN `NaN`,
whatever the sign. -/
def Obligations.FromIeeeSpecials : Prop :=
  ∀ (s : State) (f : Fmt) (raw : Nat), FmtLegal s.cfg f →
    (raw < 2 ^ 32 →
      (raw % 2 ^ 31 < 0x00800000 →
        exec (.fromF32 f raw) s = .next (s.answered (.ok (.ofValue (.finite 0))))) ∧
      (raw % 2 ^ 31 = 0x7F800000 →
        exec (.fromF32 f raw) s = .next (s.answered (.ok (.ofValue (packed s.cfg f.nbits (2 ^ (f.nbits - 1))))))) ∧
      (0x7F800000 < raw % 2 ^ 31 → exec (.fromF32 f raw) s = .next (s.answered (.ok (.ofValue .nan))))) ∧
    (raw < 2 ^ 64 →
      (raw % 2 ^ 63 < 0x0010000000000000 →
        exec (.fromF64 f raw) s = .next (s.answered (.ok (.ofValue (.finite 0))))) ∧
      (raw % 2 ^ 63 = 0x7FF0000000000000 →
        exec (.fromF64 f raw) s = .next (s.answered (.ok (.ofValue (packed s.cfg f.nbits (2 ^ (f.nbits - 1))))))) ∧
      (0x7FF0000000000000 < raw % 2 ^ 63 → exec (.fromF64 f raw) s = .next (s.answered (.ok (.ofValue .nan)))))

/-- The general conversion from IEEE (R111, R113, R114): the exponent field less the bias, clipped to
`[2^es*(-n+2), 2^es*(n-2)]`, split by floor division, and packed with the rescaled fraction and the IEEE sign. -/
def Obligations.FromIeeeNormals : Prop :=
  ∀ (s : State) (f : Fmt) (sign : Bool) (iexp ifrac : Nat), FmtLegal s.cfg f →
    (0 < iexp → iexp < 255 → ifrac < 2 ^ 23 →
      let fexp := max (-((2 ^ f.es * (f.nbits - 2) : Nat) : Int))
        (min ((iexp : Int) - 127) ((2 ^ f.es * (f.nbits - 2) : Nat) : Int))
      exec (.fromF32 f (flagWord sign * 2 ^ 31 + iexp * 2 ^ 23 + ifrac)) s =
        .next (s.answered (.ok (.ofValue (packed s.cfg f.nbits (packView s.cfg f.nbits f.es
          ⟨sign, fexp / ((2 ^ f.es : Nat) : Int), (fexp % ((2 ^ f.es : Nat) : Int)).toNat,
            if 23 ≤ s.cfg.W then ifrac * 2 ^ (s.cfg.W - 23) else ifrac / 2 ^ (23 - s.cfg.W)⟩)))))) ∧
    (0 < iexp → iexp < 2047 → ifrac < 2 ^ 52 →
      let fexp := max (-((2 ^ f.es * (f.nbits - 2) : Nat) : Int))
        (min ((iexp : Int) - 1023) ((2 ^ f.es * (f.nbits - 2) : Nat) : Int))
      exec (.fromF64 f (flagWord sign * 2 ^ 63 + iexp * 2 ^ 52 + ifrac)) s =
        .next (s.answered (.ok (.ofValue (packed s.cfg f.nbits (packView s.cfg f.nbits f.es
          ⟨sign, fexp / ((2 ^ f.es : Nat) : Int), (fexp % ((2 ^ f.es : Nat) : Int)).toNat,
            if 52 ≤ s.cfg.W then ifrac * 2 ^ (s.cfg.W - 52) else ifrac / 2 ^ (52 - s.cfg.W)⟩))))))

/-- The general conversion from IEEE packs the exact IEEE number by truncation, and no bit that PACK would keep is lost
on the way to the `W`-bit fraction (the remarks of R111 and R114): the result is the one of packing the number through
a fraction of `W'` bits for every `W' >= n`, however large, at which nothing of the IEEE fraction is cut off. -/
def Obligations.FromIeeeTruncatesTheNumber : Prop :=
  ∀ (s : State) (f : Fmt) (sign : Bool) (iexp ifrac W' : Nat), FmtLegal s.cfg f → f.nbits ≤ W' →
    (0 < iexp → iexp < 255 → ifrac < 2 ^ 23 →
      exec (.fromF32 f (flagWord sign * 2 ^ 31 + iexp * 2 ^ 23 + ifrac)) s =
        .next (s.answered (.ok (.ofValue (packed s.cfg f.nbits (truncateExact { s.cfg with W := W' } f.nbits f.es
          ((if sign then -1 else 1) * (2 : ℚ) ^ ((iexp : Int) - 127) * (1 + (ifrac : ℚ) / 2 ^ 23))))))) ) ∧
    (0 < iexp → iexp < 2047 → ifrac < 2 ^ 52 →
      exec (.fromF64 f (flagWord sign * 2 ^ 63 + iexp * 2 ^ 52 + ifrac)) s =
        .next (s.answered (.ok (.ofValue (packed s.cfg f.nbits (truncateExact { s.cfg with W := W' } f.nbits f.es
          ((if sign then -1 else 1) * (2 : ℚ) ^ ((iexp : Int) - 1023) * (1 + (ifrac : ℚ) / 2 ^ 52))))))) )

/-- The special values on the way out (R116): `ZERO` to IEEE positive zero, `INF` to IEEE positive infinity, `NaN`
to the quiet NaN of sign 0. -/
def Obligations.ToIeeeSpecials : Prop :=
  ∀ (s : State) (f : Fmt), FmtLegal s.cfg f →
    exec (.toF32 f (packed s.cfg f.nbits 0)) s = .next (s.answered (.ok (.ofNat 0))) ∧
    exec (.toF64 f (packed s.cfg f.nbits 0)) s = .next (s.answered (.ok (.ofNat 0))) ∧
    exec (.toF32 f (packed s.cfg f.nbits (2 ^ (f.nbits - 1)))) s = .next (s.answered (.ok (.ofNat 0x7F800000))) ∧
    exec (.toF64 f (packed s.cfg f.nbits (2 ^ (f.nbits - 1)))) s =
      .next (s.answered (.ok (.ofNat 0x7FF0000000000000))) ∧
    exec (.toF32 f .nan) s = .next (s.answered (.ok (.ofNat 0x7FC00000))) ∧
    exec (.toF64 f .nan) s = .next (s.answered (.ok (.ofNat 0x7FF8000000000000)))

/-- The general reverse conversion (R115, R117, R118): the combined exponent rebiased, the fraction rescaled by
truncation; above the normal range the IEEE infinity of the sign, below it the IEEE zero of the sign. -/
def Obligations.ToIeeeOfNumbers : Prop :=
  ∀ (s : State) (f : Fmt) (v : Nat), FmtLegal s.cfg f → Denotes f.nbits v →
    ∃ r, exec (.unpack f (packed s.cfg f.nbits v)) s = .next (s.answered (.ok (.ofRecord r))) ∧
      (let e := ((2 ^ f.es : Nat) : Int) * r.regime + (r.exponent : Int)
       let sign := flagWord r.sign
       exec (.toF32 f (packed s.cfg f.nbits v)) s = .next (s.answered (.ok (.ofNat
         (if 255 ≤ e + 127 then sign * 2 ^ 31 + 0x7F800000
          else if e + 127 ≤ 0 then sign * 2 ^ 31
          else sign * 2 ^ 31 + (e + 127).toNat * 2 ^ 23 +
            (if 23 ≤ s.cfg.W then r.fraction / 2 ^ (s.cfg.W - 23) else r.fraction * 2 ^ (23 - s.cfg.W)))))) ∧
       exec (.toF64 f (packed s.cfg f.nbits v)) s = .next (s.answered (.ok (.ofNat
         (if 2047 ≤ e + 1023 then sign * 2 ^ 63 + 0x7FF0000000000000
          else if e + 1023 ≤ 0 then sign * 2 ^ 63
          else sign * 2 ^ 63 + (e + 1023).toNat * 2 ^ 52 +
            (if 52 ≤ s.cfg.W then r.fraction / 2 ^ (s.cfg.W - 52) else r.fraction * 2 ^ (52 - s.cfg.W)))))))

/-- Round trips through IEEE (R119): FROMF64 after TOF64 when `n <= 55` and `2^es * (n-2) <= 1022`, FROMF32 after
TOF32 when `n <= 26` and `2^es * (n-2) <= 126`, the special values included. -/
def Obligations.IeeeRoundTrip : Prop :=
  ∀ (s : State) (f : Fmt) (x : Posit), FmtLegal s.cfg f → OnViews f.nbits x →
    (f.nbits ≤ 55 → 2 ^ f.es * (f.nbits - 2) ≤ 1022 →
      ∃ k, exec (.toF64 f (x.toValue s.cfg f.nbits)) s = .next (s.answered (.ok (.ofNat k))) ∧
        exec (.fromF64 f k) s = .next (s.answered (.ok (.ofValue (x.toValue s.cfg f.nbits))))) ∧
    (f.nbits ≤ 26 → 2 ^ f.es * (f.nbits - 2) ≤ 126 →
      ∃ k, exec (.toF32 f (x.toValue s.cfg f.nbits)) s = .next (s.answered (.ok (.ofNat k))) ∧
        exec (.fromF32 f k) s = .next (s.answered (.ok (.ofValue (x.toValue s.cfg f.nbits)))))

/-! ## The arithmetic engine -/

/-- NEG writes the two's complement of the view, and NaN for NaN (R132, R131); stray low bits are refused. -/
def Obligations.NegIsTwosComplement : Prop :=
  ∀ (s : State) (f : Fmt), FmtLegal s.cfg f →
    exec (.neg f .nan) s = .next (s.answered (.ok (.ofValue .nan))) ∧
    (∀ v, v < 2 ^ f.nbits →
      exec (.neg f (packed s.cfg f.nbits v)) s =
        .next (s.answered (.ok (.ofValue (packed s.cfg f.nbits ((2 ^ f.nbits - v) % 2 ^ f.nbits)))))) ∧
    (∀ x, Stray s.cfg f.nbits x → exec (.neg f x) s = .next (s.answered (.refused .illegalOperand)))

/-- REC keeps the sign bit and two's-complements the other `n-1` bits; `ZERO` and `INF` exchange; NaN for NaN
(R133, R131); stray low bits are refused. -/
def Obligations.RecComplementsBelowTheSign : Prop :=
  ∀ (s : State) (f : Fmt), FmtLegal s.cfg f →
    exec (.recip f .nan) s = .next (s.answered (.ok (.ofValue .nan))) ∧
    exec (.recip f (packed s.cfg f.nbits 0)) s =
      .next (s.answered (.ok (.ofValue (packed s.cfg f.nbits (2 ^ (f.nbits - 1)))))) ∧
    exec (.recip f (packed s.cfg f.nbits (2 ^ (f.nbits - 1)))) s =
      .next (s.answered (.ok (.ofValue (packed s.cfg f.nbits 0)))) ∧
    (∀ v, Denotes f.nbits v →
      exec (.recip f (packed s.cfg f.nbits v)) s =
        .next (s.answered (.ok (.ofValue (packed s.cfg f.nbits
          (flagWord (v.testBit (f.nbits - 1)) * 2 ^ (f.nbits - 1) +
            (2 ^ (f.nbits - 1) - v % 2 ^ (f.nbits - 1)))))))) ∧
    (∀ x, Stray s.cfg f.nbits x → exec (.recip f x) s = .next (s.answered (.refused .illegalOperand)))

/-- "`negate(negate(x)) == x`" and "`reciprocal(reciprocal(x)) == x`", for every operand (R144, R132, R133). -/
def Obligations.NegAndRecAreInvolutions : Prop :=
  ∀ (s : State) (f : Fmt) (x : Posit), FmtLegal s.cfg f → OnViews f.nbits x →
    (∃ y, exec (.neg f (x.toValue s.cfg f.nbits)) s = .next (s.answered (.ok (.ofValue y))) ∧
      exec (.neg f y) s = .next (s.answered (.ok (.ofValue (x.toValue s.cfg f.nbits))))) ∧
    (∃ y, exec (.recip f (x.toValue s.cfg f.nbits)) s = .next (s.answered (.ok (.ofValue y))) ∧
      exec (.recip f y) s = .next (s.answered (.ok (.ofValue (x.toValue s.cfg f.nbits)))))

/-- What REC does to the fields (R134): the sign stays; with fraction 0 the combined exponent is negated, otherwise
it becomes `-c - 1` and the fraction is two's-complemented. -/
def Obligations.RecOnTheFields : Prop :=
  ∀ (c : Config) (n es : Nat) (x : Nat), 2 ≤ n → n ≤ c.W → Denotes n x →
    let r := unpackView c n es x
    let r' := unpackView c n es (recView n x)
    r'.sign = r.sign ∧
    (r.fraction = 0 → combined es r' = -combined es r ∧ r'.fraction = 0) ∧
    (r.fraction ≠ 0 → combined es r' = -combined es r - 1 ∧ r'.fraction = 2 ^ c.W - r.fraction)

/-- MUL (R135, R131): NaN first, then the fast paths in order, then the general path; stray low
bits of either operand are refused. -/
def Obligations.MulFastPathsInOrder : Prop :=
  (∀ (s : State) (f : Fmt) (x y : Nat), FmtLegal s.cfg f → x < 2 ^ f.nbits → y < 2 ^ f.nbits →
    let n := f.nbits
    let inf := 2 ^ (n - 1)
    let one := 2 ^ (n - 2)
    let mone := 2 ^ (n - 1) + 2 ^ (n - 2)
    let neg := fun v => (2 ^ n - v) % 2 ^ n
    let val := fun v => packed s.cfg n v
    exec (.mul f .nan (val y)) s = .next (s.answered (.ok (.ofValue .nan))) ∧
    exec (.mul f (val x) .nan) s = .next (s.answered (.ok (.ofValue .nan))) ∧
    exec (.mul f .nan .nan) s = .next (s.answered (.ok (.ofValue .nan))) ∧
    exec (.mul f (val x) (val y)) s = .next (s.answered (.ok (.ofValue
      (if x = 0 then (if y = inf then .nan else val 0)
       else if y = 0 then (if x = inf then .nan else val 0)
       else if x = one then val y
       else if x = mone then val (neg y)
       else if y = one then val x
       else if y = mone then val (neg x)
       else if x = inf ∨ y = inf then val inf
       else if x = recView n y then val one
       else if x = neg (recView n y) then val mone
       else val (mulGen s.cfg n f.es x y)))))) ∧
  (∀ (s : State) (f : Fmt) (x y : Value), FmtLegal s.cfg f → Stray s.cfg f.nbits x ∨ Stray s.cfg f.nbits y →
    exec (.mul f x y) s = .next (s.answered (.refused .illegalOperand)))

/-- The general path of MUL (R136) as its steps are printed, on the records of the two operands. -/
def Obligations.MulGeneralPathSteps : Prop :=
  ∀ (c : Config) (n es : Nat) (x y : Nat), 2 ≤ n → n ≤ c.W → Denotes n x → Denotes n y →
    let u := unpackView c n es x
    let v := unpackView c n es y
    let mfrac := (2 ^ (c.W - 1) + u.fraction / 2) * (2 ^ (c.W - 1) + v.fraction / 2) / 2 ^ c.W
    let shift : Nat := if 2 ^ (c.W - 1) ≤ mfrac then 0 else 1
    let e := max (-((2 ^ es * (n - 2) : Nat) : Int))
      (min (combined es u + combined es v - shift + 1) ((2 ^ es * (n - 2) : Nat) : Int))
    mulGen c n es x y = packView c n es
      ⟨xor u.sign v.sign, e / ((2 ^ es : Nat) : Int), (e % ((2 ^ es : Nat) : Int)).toNat,
        mfrac * 2 ^ (shift + 1) % 2 ^ c.W⟩

/-- "the magnitude of a general-path product is the exact product truncated toward zero" (R138): MUL's general path
packs the exact product of the two numbers. -/
def Obligations.MulPacksTheExactProduct : Prop :=
  ∀ (c : Config) (n es : Nat) (x y : Nat), 2 ≤ n → n ≤ c.W → Denotes n x → Denotes n y →
    mulGen c n es x y = truncateExact c n es (viewValue c n es x * viewValue c n es y)

/-- "MUL is commutative bit for bit" (R138) and "`ADD(x, y) = ADD(y, x)`" (R144), for every pair of operands the ports
can carry. -/
def Obligations.MulAndAddAreCommutative : Prop :=
  ∀ (s : State) (f : Fmt) (x y : Value), x.wellFormed s.cfg = true → y.wellFormed s.cfg = true →
    exec (.mul f x y) s = exec (.mul f y x) s ∧ exec (.add f x y) s = exec (.add f y x) s

/-- Multiplicative identity for every operand and zero absorption (R144). -/
def Obligations.MulIdentityAndZeroAbsorption : Prop :=
  ∀ (s : State) (f : Fmt), FmtLegal s.cfg f →
    (∀ x : Posit, OnViews f.nbits x →
      exec (.mul f (x.toValue s.cfg f.nbits) (packed s.cfg f.nbits (2 ^ (f.nbits - 2)))) s =
        .next (s.answered (.ok (.ofValue (x.toValue s.cfg f.nbits)))) ∧
      exec (.mul f (packed s.cfg f.nbits (2 ^ (f.nbits - 2))) (x.toValue s.cfg f.nbits)) s =
        .next (s.answered (.ok (.ofValue (x.toValue s.cfg f.nbits))))) ∧
    (∀ v, Denotes f.nbits v → exec (.mul f (packed s.cfg f.nbits v) (packed s.cfg f.nbits 0)) s =
      .next (s.answered (.ok (.ofValue (packed s.cfg f.nbits 0))))) ∧
    exec (.mul f (packed s.cfg f.nbits (2 ^ (f.nbits - 1))) (packed s.cfg f.nbits 0)) s =
      .next (s.answered (.ok (.ofValue .nan)))

/-- The fast paths for one and minus one give what the general path would (R137). -/
def Obligations.OneFastPathsAgreeWithGeneralPath : Prop :=
  ∀ (c : Config) (n es : Nat) (x : Nat), 2 ≤ n → n ≤ c.W → Denotes n x →
    mulGen c n es x (oneView n) = x ∧ mulGen c n es (oneView n) x = x ∧
    mulGen c n es x (moneView n) = negView n x ∧ mulGen c n es (moneView n) x = negView n x

/-- DIV is MUL by the reciprocal, computing identical bits (R139); stray low bits of either
operand are refused. -/
def Obligations.DivIsMulByReciprocal : Prop :=
  (∀ (s : State) (f : Fmt) (x y : Posit), FmtLegal s.cfg f → OnViews f.nbits x → OnViews f.nbits y →
    ∃ y' z, exec (.recip f (y.toValue s.cfg f.nbits)) s = .next (s.answered (.ok (.ofValue y'))) ∧
      exec (.mul f (x.toValue s.cfg f.nbits) y') s = .next (s.answered (.ok (.ofValue z))) ∧
      exec (.div f (x.toValue s.cfg f.nbits) (y.toValue s.cfg f.nbits)) s = .next (s.answered (.ok (.ofValue z)))) ∧
  (∀ (s : State) (f : Fmt) (x y : Value), FmtLegal s.cfg f → Stray s.cfg f.nbits x ∨ Stray s.cfg f.nbits y →
    exec (.div f x y) s = .next (s.answered (.refused .illegalOperand)))

/-- The corner cases of DIV (R139): `x/x`, `x/(-x)`, `0/0`, `INF/INF`, `x/0`, `0/x`, `x/INF`, `INF/x`. -/
def Obligations.DivCornerCases : Prop :=
  ∀ (s : State) (f : Fmt) (v : Nat), FmtLegal s.cfg f → Denotes f.nbits v →
    let val := fun w => packed s.cfg f.nbits w
    let inf := 2 ^ (f.nbits - 1)
    let one := 2 ^ (f.nbits - 2)
    exec (.div f (val v) (val v)) s = .next (s.answered (.ok (.ofValue (val one)))) ∧
    exec (.div f (val v) (val (2 ^ f.nbits - v))) s = .next (s.answered (.ok (.ofValue (val (inf + one))))) ∧
    exec (.div f (val 0) (val 0)) s = .next (s.answered (.ok (.ofValue .nan))) ∧
    exec (.div f (val inf) (val inf)) s = .next (s.answered (.ok (.ofValue .nan))) ∧
    exec (.div f (val v) (val 0)) s = .next (s.answered (.ok (.ofValue (val inf)))) ∧
    exec (.div f (val 0) (val v)) s = .next (s.answered (.ok (.ofValue (val 0)))) ∧
    exec (.div f (val v) (val inf)) s = .next (s.answered (.ok (.ofValue (val 0)))) ∧
    exec (.div f (val inf) (val v)) s = .next (s.answered (.ok (.ofValue (val inf))))

/-- ADD (R141, R131): NaN first, then the fast paths in order, then the general path; stray low
bits of either operand are refused. -/
def Obligations.AddFastPathsInOrder : Prop :=
  (∀ (s : State) (f : Fmt) (x y : Nat), FmtLegal s.cfg f → x < 2 ^ f.nbits → y < 2 ^ f.nbits →
    let n := f.nbits
    let inf := 2 ^ (n - 1)
    let val := fun v => packed s.cfg n v
    exec (.add f .nan (val y)) s = .next (s.answered (.ok (.ofValue .nan))) ∧
    exec (.add f (val x) .nan) s = .next (s.answered (.ok (.ofValue .nan))) ∧
    exec (.add f .nan .nan) s = .next (s.answered (.ok (.ofValue .nan))) ∧
    exec (.add f (val x) (val y)) s = .next (s.answered (.ok (.ofValue
      (if x = 0 then val y
       else if y = 0 then val x
       else if x = inf ∧ y = inf then .nan
       else if x = inf ∨ y = inf then val inf
       else if x = (2 ^ n - y) % 2 ^ n then val 0
       else val (addGen s.cfg n f.es x y)))))) ∧
  (∀ (s : State) (f : Fmt) (x y : Value), FmtLegal s.cfg f → Stray s.cfg f.nbits x ∨ Stray s.cfg f.nbits y →
    exec (.add f x y) s = .next (s.answered (.refused .illegalOperand)))

/-- The general path of ADD rounds the exact sum of the two numbers once, to the fraction width of the sum's regime,
ties by `ADD_TIE`, and clips (R142). -/
def Obligations.AddRoundsTheExactSumOnce : Prop :=
  ∀ (c : Config) (n es : Nat) (x y : Nat), 2 ≤ n → n ≤ c.W → Denotes n x → Denotes n y → x ≠ negView n y →
    addGen c n es x y = roundExact c n es (viewValue c n es x + viewValue c n es y)

/-- SUB is ADD of the negation (R143); stray low bits of either
operand are refused. -/
def Obligations.SubIsAddOfNegation : Prop :=
  (∀ (s : State) (f : Fmt) (x y : Posit), FmtLegal s.cfg f → OnViews f.nbits x → OnViews f.nbits y →
    ∃ y' z, exec (.neg f (y.toValue s.cfg f.nbits)) s = .next (s.answered (.ok (.ofValue y'))) ∧
      exec (.add f (x.toValue s.cfg f.nbits) y') s = .next (s.answered (.ok (.ofValue z))) ∧
      exec (.sub f (x.toValue s.cfg f.nbits) (y.toValue s.cfg f.nbits)) s = .next (s.answered (.ok (.ofValue z)))) ∧
  (∀ (s : State) (f : Fmt) (x y : Value), FmtLegal s.cfg f → Stray s.cfg f.nbits x ∨ Stray s.cfg f.nbits y →
    exec (.sub f x y) s = .next (s.answered (.refused .illegalOperand)))

/-- Identity of ADD, and the corner cases of SUB: `x - x` is `ZERO`, `INF - INF` is NaN, `0 - x` is the negation,
`x - 0` is `x` (R144, R143). -/
def Obligations.AddAndSubIdentities : Prop :=
  ∀ (s : State) (f : Fmt), FmtLegal s.cfg f →
    let val := fun w => packed s.cfg f.nbits w
    let inf := 2 ^ (f.nbits - 1)
    (∀ x : Posit, OnViews f.nbits x →
      exec (.add f (x.toValue s.cfg f.nbits) (val 0)) s = .next (s.answered (.ok (.ofValue (x.toValue s.cfg f.nbits)))) ∧
      exec (.add f (val 0) (x.toValue s.cfg f.nbits)) s = .next (s.answered (.ok (.ofValue (x.toValue s.cfg f.nbits)))) ∧
      exec (.sub f (x.toValue s.cfg f.nbits) (val 0)) s = .next (s.answered (.ok (.ofValue (x.toValue s.cfg f.nbits))))) ∧
    (∀ v, v < 2 ^ f.nbits → v ≠ inf →
      exec (.sub f (val v) (val v)) s = .next (s.answered (.ok (.ofValue (val 0))))) ∧
    (∀ v, v < 2 ^ f.nbits →
      exec (.sub f (val 0) (val v)) s = .next (s.answered (.ok (.ofValue (val ((2 ^ f.nbits - v) % 2 ^ f.nbits)))))) ∧
    exec (.sub f (val inf) (val inf)) s = .next (s.answered (.ok (.ofValue .nan)))

/-- "No result of any operation in this spec, seen through its `nbits`-wide view, depends on `W`"; `W` shows only in the
left-justified position of `bits` and of the record's `fraction` (R6). Two configurations that differ in storage width,
both wide enough, compute the same views and the same IEEE patterns, PACK the same record with its fraction rescaled
alike, and UNPACK the same record up to the scale of its fraction. The other operations
use `W` in `V` and `LJ` alone. -/
def Obligations.ViewsDoNotDependOnStorageWidth : Prop :=
  ∀ (c c' : Config) (n es : Nat) (x y : Posit) (raw : Nat), 2 ≤ n → n ≤ c.W → n ≤ c'.W → c.addTie = c'.addTie →
    OnViews n x → OnViews n y →
    mulPosit c n es x y = mulPosit c' n es x y ∧
    divPosit c n es x y = divPosit c' n es x y ∧
    addPosit c n es x y = addPosit c' n es x y ∧
    subPosit c n es x y = subPosit c' n es x y ∧
    toIeee c single n es x = toIeee c' single n es x ∧
    toIeee c double n es x = toIeee c' double n es x ∧
    fromIeee c single n es raw = fromIeee c' single n es raw ∧
    fromIeee c double n es raw = fromIeee c' double n es raw ∧
    (∀ v, v < 2 ^ n → unpackView c' n es v =
      { unpackView c n es v with fraction := rescale c.W c'.W (unpackView c n es v).fraction }) ∧
    (∀ r : Record, r.exponent < 2 ^ es → r.fraction < 2 ^ c.W →
      packView c n es r = packView c' n es { r with fraction := rescale c.W c'.W r.fraction })

/-! ## Predicates and comparisons -/

/-- The five predicates: tests of the view against `ZERO`, `ONE`, `INF` and of the top bit, all false of a NaN, and
ISNAN, which reads the side flag only (R170 to R174, R180); stray low bits of a word are refused. -/
def Obligations.PredicateFlags : Prop :=
  ∀ (s : State) (f : Fmt), FmtLegal s.cfg f →
    (∀ v, v < 2 ^ f.nbits →
      exec (.isZero f (packed s.cfg f.nbits v)) s = .next (s.answered (.ok (.ofFlag (decide (v = 0))))) ∧
      exec (.isOne f (packed s.cfg f.nbits v)) s =
        .next (s.answered (.ok (.ofFlag (decide (v = 2 ^ (f.nbits - 2)))))) ∧
      exec (.isInf f (packed s.cfg f.nbits v)) s =
        .next (s.answered (.ok (.ofFlag (decide (v = 2 ^ (f.nbits - 1)))))) ∧
      exec (.isNeg f (packed s.cfg f.nbits v)) s = .next (s.answered (.ok (.ofFlag (v.testBit (f.nbits - 1))))) ∧
      exec (.isNan f (packed s.cfg f.nbits v)) s = .next (s.answered (.ok (.ofFlag false)))) ∧
    exec (.isZero f .nan) s = .next (s.answered (.ok (.ofFlag false))) ∧
    exec (.isOne f .nan) s = .next (s.answered (.ok (.ofFlag false))) ∧
    exec (.isInf f .nan) s = .next (s.answered (.ok (.ofFlag false))) ∧
    exec (.isNeg f .nan) s = .next (s.answered (.ok (.ofFlag false))) ∧
    exec (.isNan f .nan) s = .next (s.answered (.ok (.ofFlag true))) ∧
    (∀ x, Stray s.cfg f.nbits x →
      exec (.isZero f x) s = .next (s.answered (.refused .illegalOperand)) ∧
      exec (.isOne f x) s = .next (s.answered (.refused .illegalOperand)) ∧
      exec (.isInf f x) s = .next (s.answered (.refused .illegalOperand)) ∧
      exec (.isNeg f x) s = .next (s.answered (.refused .illegalOperand)) ∧
      exec (.isNan f x) s = .next (s.answered (.refused .illegalOperand)))

/-- EQ is packed-bit equality; GT is the unsigned comparison of the packed words, false when either is the infinity
pattern; both are false with a NaN operand (R175, R176, R180). Stated on the `W`-bit words. -/
def Obligations.EqualsAndGreaterThan : Prop :=
  ∀ (s : State) (f : Fmt), FmtLegal s.cfg f →
    (∀ x y : Nat, x < 2 ^ s.cfg.W → y < 2 ^ s.cfg.W → x % 2 ^ (s.cfg.W - f.nbits) = 0 →
      y % 2 ^ (s.cfg.W - f.nbits) = 0 →
      exec (.eq f (.finite x) (.finite y)) s = .next (s.answered (.ok (.ofFlag (decide (x = y))))) ∧
      exec (.gt f (.finite x) (.finite y)) s = .next (s.answered (.ok (.ofFlag
        (decide (x ≠ 2 ^ (s.cfg.W - 1) ∧ y ≠ 2 ^ (s.cfg.W - 1) ∧ y < x)))))) ∧
    (∀ x : Value, justified s.cfg f.nbits x = true →
      exec (.eq f x .nan) s = .next (s.answered (.ok (.ofFlag false))) ∧
      exec (.eq f .nan x) s = .next (s.answered (.ok (.ofFlag false))) ∧
      exec (.gt f x .nan) s = .next (s.answered (.ok (.ofFlag false))) ∧
      exec (.gt f .nan x) s = .next (s.answered (.ok (.ofFlag false)))) ∧
    (∀ x y : Value, Stray s.cfg f.nbits x ∨ Stray s.cfg f.nbits y →
      exec (.eq f x y) s = .next (s.answered (.refused .illegalOperand)) ∧
      exec (.gt f x y) s = .next (s.answered (.refused .illegalOperand)))

/-- GE, LT and LE are derived from GT and EQ (R177, R178, R179), for every pair of operands; stray low bits of either
operand are refused. -/
def Obligations.DerivedComparisons : Prop :=
  (∀ (s : State) (f : Fmt) (x y : Posit), FmtLegal s.cfg f → OnViews f.nbits x → OnViews f.nbits y →
    ∃ eq gt gt', exec (.eq f (x.toValue s.cfg f.nbits) (y.toValue s.cfg f.nbits)) s =
        .next (s.answered (.ok (.ofFlag eq))) ∧
      exec (.gt f (x.toValue s.cfg f.nbits) (y.toValue s.cfg f.nbits)) s = .next (s.answered (.ok (.ofFlag gt))) ∧
      exec (.gt f (y.toValue s.cfg f.nbits) (x.toValue s.cfg f.nbits)) s = .next (s.answered (.ok (.ofFlag gt'))) ∧
      exec (.ge f (x.toValue s.cfg f.nbits) (y.toValue s.cfg f.nbits)) s =
        .next (s.answered (.ok (.ofFlag (gt || eq)))) ∧
      exec (.lt f (x.toValue s.cfg f.nbits) (y.toValue s.cfg f.nbits)) s = .next (s.answered (.ok (.ofFlag gt'))) ∧
      exec (.le f (x.toValue s.cfg f.nbits) (y.toValue s.cfg f.nbits)) s =
        .next (s.answered (.ok (.ofFlag (gt' || eq))))) ∧
  (∀ (s : State) (f : Fmt) (x y : Value), FmtLegal s.cfg f → Stray s.cfg f.nbits x ∨ Stray s.cfg f.nbits y →
    exec (.ge f x y) s = .next (s.answered (.refused .illegalOperand)) ∧
    exec (.lt f x y) s = .next (s.answered (.refused .illegalOperand)) ∧
    exec (.le f x y) s = .next (s.answered (.refused .illegalOperand)))

/-- The comparisons on the classes of operands (R181): between operands neither infinite nor NaN exactly one of EQ,
GT, LT is true, `GE = not LT` and `LE = not GT`; with an infinite or NaN operand GT and LT are false and GE and LE
are EQ. -/
def Obligations.ComparisonClasses : Prop :=
  ∀ (s : State) (f : Fmt) (x y : Posit), FmtLegal s.cfg f → OnViews f.nbits x → OnViews f.nbits y →
    ∃ eq gt ge lt le,
      exec (.eq f (x.toValue s.cfg f.nbits) (y.toValue s.cfg f.nbits)) s = .next (s.answered (.ok (.ofFlag eq))) ∧
      exec (.gt f (x.toValue s.cfg f.nbits) (y.toValue s.cfg f.nbits)) s = .next (s.answered (.ok (.ofFlag gt))) ∧
      exec (.ge f (x.toValue s.cfg f.nbits) (y.toValue s.cfg f.nbits)) s = .next (s.answered (.ok (.ofFlag ge))) ∧
      exec (.lt f (x.toValue s.cfg f.nbits) (y.toValue s.cfg f.nbits)) s = .next (s.answered (.ok (.ofFlag lt))) ∧
      exec (.le f (x.toValue s.cfg f.nbits) (y.toValue s.cfg f.nbits)) s = .next (s.answered (.ok (.ofFlag le))) ∧
      (if x = .nan ∨ y = .nan ∨ x = .view (2 ^ (f.nbits - 1)) ∨ y = .view (2 ^ (f.nbits - 1)) then
        gt = false ∧ lt = false ∧ ge = eq ∧ le = eq ∧
          (eq = true ↔ x = .view (2 ^ (f.nbits - 1)) ∧ y = .view (2 ^ (f.nbits - 1)))
       else
        (eq = true ↔ x = y) ∧ (eq, gt, lt) ∈ [(true, false, false), (false, true, false), (false, false, true)] ∧
          ge = !lt ∧ le = !gt)

/-! ## Construction and extraction -/

/-- The sentinel constructors as `W`-bit words (R190 to R193): `0`, `2^(W-2)` and `2^(W-1)` for every `nbits`, and
the NaN flag. -/
def Obligations.ConstructorWords : Prop :=
  ∀ (s : State) (f : Fmt), FmtLegal s.cfg f →
    exec (.cZero f) s = .next (s.answered (.ok (.ofValue (.finite 0)))) ∧
    exec (.cOne f) s = .next (s.answered (.ok (.ofValue (.finite (2 ^ (s.cfg.W - 2)))))) ∧
    exec (.cInf f) s = .next (s.answered (.ok (.ofValue (.finite (2 ^ (s.cfg.W - 1)))))) ∧
    exec (.cNan f) s = .next (s.answered (.ok (.ofValue .nan)))

/-- SETBITS and GETBITS are inverse to each other; a pattern wider than `nbits` and a NaN are refused (R194, R195). -/
def Obligations.SetBitsAndGetBits : Prop :=
  ∀ (s : State) (f : Fmt), FmtLegal s.cfg f →
    (∀ raw, raw < 2 ^ f.nbits →
      exec (.setBits f raw) s = .next (s.answered (.ok (.ofValue (.finite (raw * 2 ^ (s.cfg.W - f.nbits)))))) ∧
      exec (.getBits f (.finite (raw * 2 ^ (s.cfg.W - f.nbits)))) s = .next (s.answered (.ok (.ofNat raw)))) ∧
    (∀ raw, 2 ^ f.nbits ≤ raw → exec (.setBits f raw) s = .next (s.answered (.refused .illegalOperand))) ∧
    exec (.getBits f .nan) s = .next (s.answered (.refused .illegalOperand)) ∧
    (∀ b, b % 2 ^ (s.cfg.W - f.nbits) ≠ 0 →
      exec (.getBits f (.finite b)) s = .next (s.answered (.refused .illegalOperand))) ∧
    (∀ b, b < 2 ^ s.cfg.W → b % 2 ^ (s.cfg.W - f.nbits) = 0 →
      ∃ v, exec (.getBits f (.finite b)) s = .next (s.answered (.ok (.ofNat v))) ∧
        exec (.setBits f v) s = .next (s.answered (.ok (.ofValue (.finite b)))))
end

