-- ==== Sys2Proof/Laws/Bits.lean ====
section
/-! SUPPORT. Small lemmas of the bit-field functions: slices of concatenated fields, the regime's port word,
`bitlen`. -/

namespace Sys2Proof

theorem slice_lt (v : Nat) (lo k : Nat) : slice v lo k < 2 ^ k := Nat.mod_lt _ (Nat.two_pow_pos k)

/-- The first field of a concatenation. -/
theorem slice_concatFields_head (k : Nat) (v : Nat) (rest : List (Nat × Nat)) :
    slice (concatFields ((k, v) :: rest)) 0 k = v % 2 ^ k := by
  simp [slice, concatFields, Nat.add_mul_mod_self_left]

/-- A field above the first is a field of the rest. -/
theorem slice_concatFields_tail (k lo j : Nat) (v : Nat) (rest : List (Nat × Nat)) :
    slice (concatFields ((k, v) :: rest)) (k + lo) j = slice (concatFields rest) lo j := by
  have h : (v % 2 ^ k + 2 ^ k * concatFields rest) / 2 ^ k = concatFields rest := by
    rw [Nat.add_mul_div_left _ _ (Nat.two_pow_pos k), Nat.div_eq_of_lt (Nat.mod_lt _ (Nat.two_pow_pos k)), Nat.zero_add]
  simp only [slice, concatFields, pow_add, ← Nat.div_div_eq_div_mul, h]

/-- A concatenation fits the sum of its widths. -/
theorem concatFields_lt (l : List (Nat × Nat)) : concatFields l < 2 ^ (l.map Prod.fst).sum := by
  induction l with
  | nil => simp [concatFields]
  | cons h t ih =>
    obtain ⟨k, v⟩ := h
    simp only [concatFields, List.map_cons, List.sum_cons, pow_add]
    calc v % 2 ^ k + 2 ^ k * concatFields t
        < 2 ^ k + 2 ^ k * concatFields t := Nat.add_lt_add_right (Nat.mod_lt v (Nat.two_pow_pos k)) _
      _ = 2 ^ k * (concatFields t + 1) := by ring
      _ ≤ 2 ^ k * 2 ^ (t.map Prod.fst).sum := Nat.mul_le_mul_left _ ih

theorem flagWord_lt (b : Bool) : flagWord b < 2 := by cases b <;> decide

@[simp] theorem flagWord_beq_one (b : Bool) : (flagWord b == 1) = b := by cases b <;> rfl

/-- The port word of a regime that fits the port reads back as the regime (R60). -/
theorem regimeOfWord_wordOfRegime {k : Nat} (hk : 0 < k) {v : Int} (hlo : -((2 ^ (k - 1) : Nat) : Int) ≤ v)
    (hhi : v < ((2 ^ (k - 1) : Nat) : Int)) : regimeOfWord k (wordOfRegime k v) = v := by
  have hp : (2 : Nat) ^ k = 2 * 2 ^ (k - 1) := by rw [← pow_succ', Nat.sub_add_cancel hk]
  unfold regimeOfWord wordOfRegime
  rw [hp]
  generalize 2 ^ (k - 1) = P at hlo hhi ⊢
  rcases Int.lt_or_le v 0 with h | h
  · have hm : v % ((2 * P : Nat) : Int) = v + 2 * P := by
      rw [← Int.add_emod_right, Int.emod_eq_of_lt (by push_cast; omega) (by push_cast; omega)]
      push_cast
      ring
    rw [hm, if_neg (by omega)]
    omega
  · rw [Int.emod_eq_of_lt h (by push_cast; omega), if_pos (by omega)]
    omega

theorem wordOfRegime_lt (k : Nat) (v : Int) : wordOfRegime k v < 2 ^ k := by
  have h0 : ((2 ^ k : Nat) : Int) ≠ 0 := by exact_mod_cast (Nat.two_pow_pos k).ne'
  have h1 := Int.emod_nonneg v h0
  have h2 := Int.emod_lt_of_pos v (by positivity : (0 : Int) < ((2 ^ k : Nat) : Int))
  unfold wordOfRegime
  rw [Int.toNat_lt h1]
  exact h2

namespace Machine

/-- `bitlen(x)` is the least `k` with `x < 2^k` (R12). -/
theorem bitlen_le_iff (x k : Nat) : bitlen x ≤ k ↔ x < 2 ^ k := by
  unfold bitlen
  split
  · next h => subst h; simp
  · next h => rw [Nat.succ_le_iff, Nat.log2_lt h]

end Machine

end Sys2Proof
end

