-- ==== Sys2Proof/Laws/State.lean ====
section
/-! SUPPORT. One lemma per field per update of the state, each true by `rfl`. -/

namespace Sys2Proof.Machine

@[simp] theorem State.answered_cfg (s : State) (r : Response) : (s.answered r).cfg = s.cfg := rfl

@[simp] theorem State.answered_request (s : State) (r : Response) : (s.answered r).request = none := rfl

@[simp] theorem State.answered_response (s : State) (r : Response) : (s.answered r).response = some r := rfl

/-- Answering forgets what stood on the ports before. -/
@[simp] theorem State.answered_answered (s : State) (r r' : Response) : (s.answered r).answered r' = s.answered r' :=
  rfl

/-- What was outstanding does not show in the answered state. -/
@[simp] theorem State.answered_withRequest (s : State) (q : Option Request) (r : Response) :
    State.answered { s with request := q } r = s.answered r := rfl

/-- An answered state is its parameters and the response. -/
theorem State.answered_eq_of_cfg {s s' : State} (h : s.cfg = s'.cfg) (r : Response) :
    s.answered r = s'.answered r := by
  simp [State.answered, h]

@[simp] theorem State.resetOf_cfg (c : Config) : (State.resetOf c).cfg = c := rfl

@[simp] theorem State.resetOf_request (c : Config) : (State.resetOf c).request = none := rfl

@[simp] theorem State.resetOf_response (c : Config) : (State.resetOf c).response = none := rfl

@[simp] theorem State.withFetchWord_cfg (s : State) (nbits w : Nat) : (s.withFetchWord nbits w).cfg = s.cfg := rfl

@[simp] theorem State.withFetchWord_request (s : State) (nbits w : Nat) :
    (s.withFetchWord nbits w).request = some (Request.ofVector s.cfg (w % 2 ^ nbits)) := rfl

@[simp] theorem State.withFetchWord_response (s : State) (nbits w : Nat) :
    (s.withFetchWord nbits w).response = s.response := rfl

/-- The reply fields of each kind of result. -/
@[simp] theorem Reply.ofValue_r (v : Value) : (Reply.ofValue v).r = v := rfl

@[simp] theorem Reply.ofValue_record (v : Value) : (Reply.ofValue v).record = ⟨false, 0, 0, 0⟩ := rfl

@[simp] theorem Reply.ofValue_n (v : Value) : (Reply.ofValue v).n = 0 := rfl

@[simp] theorem Reply.ofValue_flag (v : Value) : (Reply.ofValue v).flag = false := rfl

@[simp] theorem Reply.ofRecord_r (r : Record) : (Reply.ofRecord r).r = .finite 0 := rfl

@[simp] theorem Reply.ofRecord_record (r : Record) : (Reply.ofRecord r).record = r := rfl

@[simp] theorem Reply.ofRecord_n (r : Record) : (Reply.ofRecord r).n = 0 := rfl

@[simp] theorem Reply.ofRecord_flag (r : Record) : (Reply.ofRecord r).flag = false := rfl

@[simp] theorem Reply.ofNat_r (n : Nat) : (Reply.ofNat n).r = .finite 0 := rfl

@[simp] theorem Reply.ofNat_record (n : Nat) : (Reply.ofNat n).record = ⟨false, 0, 0, 0⟩ := rfl

@[simp] theorem Reply.ofNat_n (n : Nat) : (Reply.ofNat n).n = n := rfl

@[simp] theorem Reply.ofNat_flag (n : Nat) : (Reply.ofNat n).flag = false := rfl

@[simp] theorem Reply.ofFlag_r (b : Bool) : (Reply.ofFlag b).r = .finite 0 := rfl

@[simp] theorem Reply.ofFlag_record (b : Bool) : (Reply.ofFlag b).record = ⟨false, 0, 0, 0⟩ := rfl

@[simp] theorem Reply.ofFlag_n (b : Bool) : (Reply.ofFlag b).n = 0 := rfl

@[simp] theorem Reply.ofFlag_flag (b : Bool) : (Reply.ofFlag b).flag = b := rfl

end Sys2Proof.Machine
end

