-- ==== Sys2Proof/Laws/Ops.lean ====
section
/-! SUPPORT. What each shared operation can do, said once: answering, the legality checks, presenting a request,
the words of a view, and the two shapes of the arithmetic and comparison families. -/

namespace Sys2Proof.Machine

/-! ## Answering -/

/-- The checks in one equation: the response an operation gives, by the first check that fails. -/
theorem answer_eq (a b : Bool) (p : Reply) (s : State) :
    answer a b p s =
      .next (s.answered (if a then (if b then .ok p else .refused .illegalOperand) else .refused .illegalParam)) := by
  cases a <;> cases b <;> rfl

@[simp] theorem answer_legal (p : Reply) (s : State) : answer true true p s = .next (s.answered (.ok p)) := rfl

@[simp] theorem answer_illegalOperand (p : Reply) (s : State) :
    answer true false p s = .next (s.answered (.refused .illegalOperand)) := rfl

@[simp] theorem answer_illegalParam (b : Bool) (p : Reply) (s : State) :
    answer false b p s = .next (s.answered (.refused .illegalParam)) := rfl

/-- An operation answers `OK` exactly when both checks pass, and then with its own result. -/
theorem answer_ok_iff (a b : Bool) (p p' : Reply) (s : State) :
    answer a b p s = .next (s.answered (.ok p')) ↔ a = true ∧ b = true ∧ p = p' := by
  cases a <;> cases b <;> simp [answer_eq, State.answered]

/-- The parameter check as inequalities. -/
theorem paramsLegal_iff (c : Config) (f : Fmt) :
    paramsLegal c f = true ↔ 2 ≤ f.nbits ∧ f.nbits ≤ c.W ∧ f.es ≤ c.esMax := by
  simp [paramsLegal, and_assoc]

/-- A request can be presented exactly when none is outstanding. -/
theorem State.present_eq_some_iff (s t : State) (q : Request) :
    s.present q = some t ↔ s.request = none ∧ t = { s with request := some q } := by
  unfold State.present
  cases s.request <;> simp [eq_comm]

/-! ## Views and words -/

theorem view_lj (c : Config) (n : Nat) (v : Nat) : view c n (lj c n v) = v :=
  Nat.mul_div_cancel v (Nat.two_pow_pos _)

theorem lj_mod (c : Config) (n : Nat) (v : Nat) : lj c n v % 2 ^ (c.W - n) = 0 :=
  Nat.mul_mod_left v _

theorem lj_lt {c : Config} {n : Nat} {v : Nat} (hn : n ≤ c.W) (hv : v < 2 ^ n) : lj c n v < 2 ^ c.W := by
  have h : (2 : Nat) ^ c.W = 2 ^ n * 2 ^ (c.W - n) := by rw [← pow_add, Nat.add_sub_cancel' hn]
  rw [h]
  exact Nat.mul_lt_mul_of_pos_right hv (Nat.two_pow_pos _)

theorem lj_view {c : Config} {n : Nat} {b : Nat} (h : b % 2 ^ (c.W - n) = 0) : lj c n (view c n b) = b :=
  Nat.div_mul_cancel (Nat.dvd_of_mod_eq_zero h)

theorem view_lt {c : Config} {n : Nat} {b : Nat} (hn : n ≤ c.W) (hb : b < 2 ^ c.W) : view c n b < 2 ^ n := by
  have h : (2 : Nat) ^ c.W = 2 ^ (c.W - n) * 2 ^ n := by rw [← pow_add, Nat.sub_add_cancel hn]
  exact Nat.div_lt_of_lt_mul (h ▸ hb)

@[simp] theorem justified_lj (c : Config) (n : Nat) (v : Nat) : justified c n (.finite (lj c n v)) = true := by
  simp [justified, lj_mod]

@[simp] theorem readable_lj (c : Config) (n : Nat) (v : Nat) : readable c n (.finite (lj c n v)) = true := by
  simp [readable, lj_mod]

@[simp] theorem justified_toValue (c : Config) (n : Nat) (x : Posit) : justified c n (x.toValue c n) = true := by
  cases x with
  | nan => rfl
  | view v => exact justified_lj c n v

@[simp] theorem ofValue_toValue (c : Config) (n : Nat) (x : Posit) : Posit.ofValue c n (x.toValue c n) = x := by
  cases x with
  | nan => rfl
  | view v => exact congrArg Posit.view (view_lj c n v)

@[simp] theorem viewOf_lj (c : Config) (n : Nat) (v : Nat) : viewOf c n (.finite (lj c n v)) = v := view_lj c n v

/-- A justified operand is the packed form of the value the rules read from it. -/
theorem toValue_ofValue {c : Config} {n : Nat} {x : Value} (h : justified c n x = true) :
    (Posit.ofValue c n x).toValue c n = x := by
  cases x with
  | nan => rfl
  | finite b => exact congrArg Value.finite (lj_view (by simpa [justified] using h))

/-! ## The shapes of the families -/

/-- A one-operand value operation on a legal operand. -/
theorem unaryValue_legal (op : Nat → Posit → Posit) {f : Fmt} {s : State} (h : paramsLegal s.cfg f = true) (x : Posit) :
    unaryValue op f (x.toValue s.cfg f.nbits) s =
      .next (s.answered (.ok (.ofValue ((op f.nbits x).toValue s.cfg f.nbits)))) := by
  simp [unaryValue, h]

/-- A two-operand value operation on legal operands. -/
theorem binaryValue_legal (op : Config → Nat → Nat → Posit → Posit → Posit) {f : Fmt} {s : State}
    (h : paramsLegal s.cfg f = true) (x y : Posit) :
    binaryValue op f (x.toValue s.cfg f.nbits) (y.toValue s.cfg f.nbits) s =
      .next (s.answered (.ok (.ofValue ((op s.cfg f.nbits f.es x y).toValue s.cfg f.nbits)))) := by
  simp [binaryValue, h]

/-- A predicate on a legal operand. -/
theorem unaryFlag_legal (test : Nat → Posit → Bool) {f : Fmt} {s : State} (h : paramsLegal s.cfg f = true) (x : Posit) :
    unaryFlag test f (x.toValue s.cfg f.nbits) s = .next (s.answered (.ok (.ofFlag (test f.nbits x)))) := by
  simp [unaryFlag, h]

/-- A comparison on legal operands. -/
theorem binaryFlag_legal (test : Nat → Posit → Posit → Bool) {f : Fmt} {s : State} (h : paramsLegal s.cfg f = true)
    (x y : Posit) :
    binaryFlag test f (x.toValue s.cfg f.nbits) (y.toValue s.cfg f.nbits) s =
      .next (s.answered (.ok (.ofFlag (test f.nbits x y)))) := by
  simp [binaryFlag, h]

/-- A sentinel constructor with legal parameters. -/
theorem construct_legal (v : Nat → Nat) {f : Fmt} {s : State} (h : paramsLegal s.cfg f = true) :
    construct v f s = .next (s.answered (.ok (.ofValue (.finite (lj s.cfg f.nbits (v f.nbits)))))) := by
  simp [construct, h]

end Sys2Proof.Machine
end

