-- ==== Sys2Proof/Laws/Exec.lean ====
section
/-! SUPPORT. What `exec` and `step` can do, said once: an operation answers a next state that differs from the one
before in the two ports alone, and a step runs the decoded instruction or refuses a reserved code. -/

namespace Sys2Proof.Machine

/-- An operation answers its request: a next state with a response on the port and no request outstanding. -/
theorem exec_answers (i : Instr) (s : State) : ∃ r, exec i s = .next (s.answered r) := by
  have h : ∀ (a b : Bool) (p : Reply), ∃ r, answer a b p s = .next (s.answered r) := fun a b p => ⟨_, answer_eq a b p s⟩
  cases i <;> exact h _ _ _

/-- The inversion of `exec`. -/
theorem exec_cases {i : Instr} {s t : State} (h : exec i s = .next t) : ∃ r, t = s.answered r := by
  obtain ⟨r, hr⟩ := exec_answers i s
  exact ⟨r, by rw [hr] at h; exact (Host.Outcome.next.inj h).symm⟩

/-- A step with a decodable request outstanding runs its instruction. -/
theorem step_of_decode {s : State} {q : Request} {i : Instr} (hq : s.request = some q)
    (hd : decode s.cfg q = .instr i) : step s = exec i s := by
  simp [step, hq, hd]

/-- A step with a reserved code outstanding refuses it. -/
theorem step_of_reserved {s : State} {q : Request} {op : Nat} (hq : s.request = some q)
    (hd : decode s.cfg q = .reservedOp op) : step s = .next (s.answered (.refused .illegalOp)) := by
  simp [step, hq, hd, refuse]

/-- Everything a step can do: stay idle, or answer the outstanding request. -/
theorem step_cases {s t : State} (h : step s = .next t) :
    (s.request = none ∧ t = s) ∨
    (∃ q i, s.request = some q ∧ decode s.cfg q = .instr i ∧ exec i s = .next t) ∨
    (∃ q op, s.request = some q ∧ decode s.cfg q = .reservedOp op ∧ t = s.answered (.refused .illegalOp)) := by
  cases hq : s.request with
  | none => exact .inl ⟨rfl, by simpa [step, hq] using h.symm⟩
  | some q =>
    cases hd : decode s.cfg q with
    | instr i => exact .inr (.inl ⟨q, i, rfl, hd, by rwa [step_of_decode hq hd] at h⟩)
    | reservedOp op =>
      rw [step_of_reserved hq hd] at h
      exact .inr (.inr ⟨q, op, rfl, hd, (Host.Outcome.next.inj h).symm⟩)

end Sys2Proof.Machine
end

