-- ==== Sys2Proof/Laws/Fields.lean ====
section
/-! SUPPORT. Small lemmas of the field functions of 40_field_arithmetic.md and of the codec's bit strings. -/

namespace Sys2Proof.Machine

/-! ## The regime scan (R70) -/

theorem runFrom_le (p : Nat) (b : Bool) (k : Nat) : runFrom p b k ≤ k := by
  induction k with
  | zero => exact Nat.le_refl 0
  | succ k ih => simp only [runFrom]; split <;> omega

/-- The bits inside the run are equal to the run's bit. -/
theorem testBit_of_lt_runFrom (p : Nat) (b : Bool) (k : Nat) : ∀ i, i < runFrom p b k → p.testBit (k - 1 - i) = b := by
  induction k with
  | zero => intro i h; exact absurd h (Nat.not_lt_zero i)
  | succ k ih =>
    intro i h
    simp only [runFrom] at h
    split at h
    · next hb =>
      cases i with
      | zero => simpa using hb
      | succ i =>
        have := ih i (by omega)
        rwa [show k + 1 - 1 - (i + 1) = k - 1 - i by omega]
    · exact absurd h (Nat.not_lt_zero i)

/-- The bit after a run that ends early is the opposite one. -/
theorem testBit_at_runFrom (p : Nat) (b : Bool) (k : Nat) : runFrom p b k < k →
    p.testBit (k - 1 - runFrom p b k) ≠ b := by
  induction k with
  | zero => intro h; exact absurd h (Nat.not_lt_zero _)
  | succ k ih =>
    intro h
    simp only [runFrom] at h ⊢
    split
    · next hb =>
      rw [if_pos hb] at h
      have := ih (by omega)
      rwa [show k + 1 - 1 - (runFrom p b k + 1) = k - 1 - runFrom p b k by omega]
    · next hb => simpa using hb

theorem runLen_le (p : Nat) (n : Nat) : runLen p n ≤ n - 1 := runFrom_le p _ _

theorem runLen_pos (p : Nat) {n : Nat} (hn : 2 ≤ n) : 1 ≤ runLen p n := by
  obtain ⟨k, rfl⟩ : ∃ k, n = k + 2 := ⟨n - 2, by omega⟩
  simp [runLen, runFrom, runBit]

/-- "in one formula `R = max(0, n - 2 - m)`" (R75). -/
theorem remBits_eq (p : Nat) (n : Nat) : remBits p n = n - 2 - runLen p n := by
  have := runLen_le p n
  unfold remBits term
  split <;> omega

theorem term_le_one (p : Nat) (n : Nat) : term p n ≤ 1 := by unfold term; split <;> omega

theorem expWidth_le_es (p : Nat) (n es : Nat) : expWidth p n es ≤ es := Nat.min_le_left _ _

theorem expWidth_add_fracWidth (p : Nat) (n es : Nat) : expWidth p n es + fracWidth p n es = remBits p n := by
  have : expWidth p n es ≤ remBits p n := Nat.min_le_right _ _
  unfold fracWidth
  omega

/-! ## Clipping and splitting (R77, R78) -/

theorem cmax_nonneg (n es : Nat) : 0 ≤ cmax n es := Int.natCast_nonneg _

theorem clip_le_cmax (e : Int) (n es : Nat) : clip e n es ≤ cmax n es := by
  have := cmax_nonneg n es
  unfold clip cmin
  omega

theorem cmin_le_clip (e : Int) (n es : Nat) : cmin n es ≤ clip e n es := Int.le_max_left _ _

theorem clip_of_mem {e : Int} {n es : Nat} (h1 : cmin n es ≤ e) (h2 : e ≤ cmax n es) : clip e n es = e := by
  unfold clip
  omega

/-- The exponent part is the remainder of the floor division. -/
theorem exponentPart_eq (e : Int) (es : Nat) : (exponentPart e es : Int) = e % ((2 ^ es : Nat) : Int) := by
  have h0 : (0 : Int) < ((2 ^ es : Nat) : Int) := by exact_mod_cast Nat.two_pow_pos es
  have h1 := Int.emod_nonneg e h0.ne'
  have h2 := Int.mul_ediv_add_emod e ((2 ^ es : Nat) : Int)
  unfold exponentPart regimePart
  omega

/-! ## Bit strings (R95, R96) -/

@[simp] theorem bitString_length (k : Nat) (v : Nat) : (bitString k v).length = k := by
  induction k with
  | zero => rfl
  | succ k ih => simp [bitString, ih]

@[simp] theorem regcode_length (r : Int) : (regcode r).length = regcodeLen r := by
  unfold regcode regcodeLen
  split <;> simp

@[simp] theorem packString_length (c : Config) (es : Nat) (r : Record) :
    (packString c es r).length = regcodeLen r.regime + es + c.W := by
  simp [packString]
  omega

/-- A bit string of `k` bits of a `k`-bit word reads back as the word. -/
theorem natOfBits_bitString (k : Nat) (v : Nat) : natOfBits (bitString k v) = v % 2 ^ k := by
  have key : ∀ (k acc : Nat), (bitString k v).foldl (fun acc b => 2 * acc + (if b then 1 else 0)) acc =
      acc * 2 ^ k + v % 2 ^ k := by
    intro k
    induction k with
    | zero => intro acc; simp [bitString, Nat.mod_one]
    | succ k ih =>
      intro acc
      have h : (if v.testBit k then 1 else 0) = v / 2 ^ k % 2 := by
        rw [← Nat.toNat_testBit]
        cases v.testBit k <;> rfl
      rw [bitString, List.foldl_cons, ih, h, Nat.mod_pow_succ, pow_succ]
      ring
  have h := key k 0
  rwa [Nat.zero_mul, Nat.zero_add] at h

end Sys2Proof.Machine
end

