-- ==== Sys2Proof/Laws/PerInstr.lean ====
section
/-! SUPPORT. Statements about every instruction as syntax, one lemma per constructor of `Instr`.

Family `RequestHeader`: the request the encoder forms carries the instruction's operation code, an 8-bit number,
and its format parameters (R50, R52, R53). -/

namespace Sys2Proof.Laws.RequestHeader

/-- The header fields of an instruction's request. -/
def Statement (i : Instr) : Prop :=
  ∀ c : Config, (requestOf c i).op = opcode i ∧ opcode i < 2 ^ 8 ∧
    (requestOf c i).nbits = i.fmt.nbits ∧ (requestOf c i).es = i.fmt.es

theorem ssw (f : Fmt) : Statement (.ssw f) := fun _ => ⟨rfl, by simp [opcode], rfl, rfl⟩

theorem rsw (f : Fmt) (x : Value) : Statement (.rsw f x) := fun _ => ⟨rfl, by simp [opcode], rfl, rfl⟩

theorem esw (f : Fmt) (x : Value) : Statement (.esw f x) := fun _ => ⟨rfl, by simp [opcode], rfl, rfl⟩

theorem fsw (f : Fmt) (x : Value) : Statement (.fsw f x) := fun _ => ⟨rfl, by simp [opcode], rfl, rfl⟩

theorem useed (f : Fmt) : Statement (.useed f) := fun _ => ⟨rfl, by simp [opcode], rfl, rfl⟩

theorem unpack (f : Fmt) (x : Value) : Statement (.unpack f x) := fun _ => ⟨rfl, by simp [opcode], rfl, rfl⟩

theorem pack (f : Fmt) (r : Record) : Statement (.pack f r) := fun _ => ⟨rfl, by simp [opcode], rfl, rfl⟩

theorem fromF32 (f : Fmt) (w : Nat) : Statement (.fromF32 f w) := fun _ => ⟨rfl, by simp [opcode], rfl, rfl⟩

theorem fromF64 (f : Fmt) (w : Nat) : Statement (.fromF64 f w) := fun _ => ⟨rfl, by simp [opcode], rfl, rfl⟩

theorem toF32 (f : Fmt) (x : Value) : Statement (.toF32 f x) := fun _ => ⟨rfl, by simp [opcode], rfl, rfl⟩

theorem toF64 (f : Fmt) (x : Value) : Statement (.toF64 f x) := fun _ => ⟨rfl, by simp [opcode], rfl, rfl⟩

theorem neg (f : Fmt) (x : Value) : Statement (.neg f x) := fun _ => ⟨rfl, by simp [opcode], rfl, rfl⟩

theorem recip (f : Fmt) (x : Value) : Statement (.recip f x) := fun _ => ⟨rfl, by simp [opcode], rfl, rfl⟩

theorem mul (f : Fmt) (x : Value) (y : Value) : Statement (.mul f x y) := fun _ => ⟨rfl, by simp [opcode], rfl, rfl⟩

theorem div (f : Fmt) (x : Value) (y : Value) : Statement (.div f x y) := fun _ => ⟨rfl, by simp [opcode], rfl, rfl⟩

theorem add (f : Fmt) (x : Value) (y : Value) : Statement (.add f x y) := fun _ => ⟨rfl, by simp [opcode], rfl, rfl⟩

theorem sub (f : Fmt) (x : Value) (y : Value) : Statement (.sub f x y) := fun _ => ⟨rfl, by simp [opcode], rfl, rfl⟩

theorem isZero (f : Fmt) (x : Value) : Statement (.isZero f x) := fun _ => ⟨rfl, by simp [opcode], rfl, rfl⟩

theorem isOne (f : Fmt) (x : Value) : Statement (.isOne f x) := fun _ => ⟨rfl, by simp [opcode], rfl, rfl⟩

theorem isInf (f : Fmt) (x : Value) : Statement (.isInf f x) := fun _ => ⟨rfl, by simp [opcode], rfl, rfl⟩

theorem isNeg (f : Fmt) (x : Value) : Statement (.isNeg f x) := fun _ => ⟨rfl, by simp [opcode], rfl, rfl⟩

theorem isNan (f : Fmt) (x : Value) : Statement (.isNan f x) := fun _ => ⟨rfl, by simp [opcode], rfl, rfl⟩

theorem eq (f : Fmt) (x : Value) (y : Value) : Statement (.eq f x y) := fun _ => ⟨rfl, by simp [opcode], rfl, rfl⟩

theorem gt (f : Fmt) (x : Value) (y : Value) : Statement (.gt f x y) := fun _ => ⟨rfl, by simp [opcode], rfl, rfl⟩

theorem ge (f : Fmt) (x : Value) (y : Value) : Statement (.ge f x y) := fun _ => ⟨rfl, by simp [opcode], rfl, rfl⟩

theorem lt (f : Fmt) (x : Value) (y : Value) : Statement (.lt f x y) := fun _ => ⟨rfl, by simp [opcode], rfl, rfl⟩

theorem le (f : Fmt) (x : Value) (y : Value) : Statement (.le f x y) := fun _ => ⟨rfl, by simp [opcode], rfl, rfl⟩

theorem cZero (f : Fmt) : Statement (.cZero f) := fun _ => ⟨rfl, by simp [opcode], rfl, rfl⟩

theorem cOne (f : Fmt) : Statement (.cOne f) := fun _ => ⟨rfl, by simp [opcode], rfl, rfl⟩

theorem cInf (f : Fmt) : Statement (.cInf f) := fun _ => ⟨rfl, by simp [opcode], rfl, rfl⟩

theorem cNan (f : Fmt) : Statement (.cNan f) := fun _ => ⟨rfl, by simp [opcode], rfl, rfl⟩

theorem setBits (f : Fmt) (w : Nat) : Statement (.setBits f w) := fun _ => ⟨rfl, by simp [opcode], rfl, rfl⟩

theorem getBits (f : Fmt) (x : Value) : Statement (.getBits f x) := fun _ => ⟨rfl, by simp [opcode], rfl, rfl⟩

end Sys2Proof.Laws.RequestHeader
end

