-- ==== Sys2Proof/Laws/Safety.lean ====
section
/-! SUPPORT. Small lemmas of what claims are stated in: the numbers views denote (R29), values that two ports carry
alike. -/

namespace Sys2Proof.Safety

open Sys2Proof.Machine

@[simp] theorem viewValue_zero (c : Config) (n es : Nat) : viewValue c n es 0 = 0 := rfl

/-- Away from `ZERO` a view's number is its record's. -/
theorem viewValue_of_ne_zero (c : Config) (es : Nat) {n v : Nat} (h : v ≠ 0) :
    viewValue c n es v = recordValue c es (unpackView c n es v) := if_neg h

theorem viewValue_of_denotes (c : Config) (es : Nat) {n v : Nat} (h : Denotes n v) :
    viewValue c n es v = recordValue c es (unpackView c n es v) := viewValue_of_ne_zero c es h.2.1

@[simp] theorem denoted_inf (c : Config) (n es : Nat) : denoted c n es (infView n) = .infinity := if_pos rfl

theorem denoted_of_finiteView (c : Config) (es : Nat) {n v : Nat} (h : FiniteView n v) :
    denoted c n es v = .real (viewValue c n es v) := if_neg h.2

/-- A finite view is `ZERO` or denotes its record's number. -/
theorem finiteView_iff (n v : Nat) : FiniteView n v ↔ (v = 0 ∧ FiniteView n 0) ∨ Denotes n v := by
  by_cases h : v = 0
  · subst h; simp
  · simp [h]

/-- Ports that carry the same value are read as the same operand (R25). -/
theorem valueOfPort_of_sameValue {p p' : ValuePort} (h : SameValue p p') : valueOfPort p = valueOfPort p' := by
  obtain ⟨hn, hb⟩ := h
  cases hp : p.nan with
  | true => simp [valueOfPort, ← hn, hp]
  | false => simp [valueOfPort, ← hn, hp, hb hp]

/-- The encoder's port carries the value it was formed from. -/
@[simp] theorem valueOfPort_portOfValue (x : Value) : valueOfPort (portOfValue x) = x := by
  cases x <;> rfl

end Sys2Proof.Safety
end

