-- ==== Sys2Proof/Tests/Slice0.lean ====
section
/-! SUPPORT. The model's own tests. Expected results are the spec's: the worked examples and vectors of
95_test_vectors.md and of the rules, and words written out from the encoding tables of rules R50, R52 and R57; none
is the model's own answer. The `witness_` theorems show, for each statement with hypotheses, states and operands that
meet them, at a boundary value for each clause. -/

namespace Sys2Proof.Tests

-- The many small kernel evaluations below run one after another, not in a thread each.
set_option Elab.async false

open Sys2Proof.Machine Sys2Proof.Safety

/-- The 8-bit format without exponent bits, in which most of the spec's vectors are. -/
abbrev f8 : Fmt := ⟨8, 0⟩

/-- An 8-bit view as an operand, at `W = 32`. -/
abbrev v8 (v : Nat) : Value := .finite (v * 2 ^ 24)

/-- The response an instruction gets from a block that has just been reset; `tie` is its `ADD_TIE`. -/
def ask (i : Instr) (tie : AddTie := .even) : Option Response :=
  match exec i (State.resetOf { Config.default with addTie := tie }) with
  | .next t => t.response
  | .fault _ => none
  | .refused _ => none

/-- The response to a flat request vector. -/
def askVector (v : Nat) : Option Response :=
  match step (State.reset.withFetchWord 232 v) with
  | .next t => t.response
  | .fault _ => none
  | .refused _ => none

abbrev okValue (v : Value) : Option Response := some (.ok (.ofValue v))
abbrev okNat (n : Nat) : Option Response := some (.ok (.ofNat n))
abbrev okFlag (b : Bool) : Option Response := some (.ok (.ofFlag b))
abbrev okRecord (r : Record) : Option Response := some (.ok (.ofRecord r))

/-! ## WellFormed: each check refuses an ill-formed term (R50) -/

theorem test_illFormed_nbits_of_nine_bits :
    (Instr.ssw ⟨256, 0⟩).wellFormed Config.default = false := by decide +kernel

theorem test_illFormed_es_of_nine_bits :
    (Instr.useed ⟨8, 256⟩).wellFormed Config.default = false := by decide +kernel

theorem test_illFormed_bits_beyond_W :
    (Instr.neg f8 (.finite (2 ^ 32))).wellFormed Config.default = false := by decide +kernel

theorem test_illFormed_second_operand_beyond_W :
    (Instr.mul f8 .nan (.finite (2 ^ 32))).wellFormed Config.default = false := by decide +kernel

theorem test_illFormed_regime_above_port :
    (Instr.pack f8 ⟨false, 2 ^ 31, 0, 0⟩).wellFormed Config.default = false := by decide +kernel

theorem test_illFormed_regime_below_port :
    (Instr.pack f8 ⟨false, -2 ^ 31 - 1, 0, 0⟩).wellFormed Config.default = false := by decide +kernel

theorem test_illFormed_exponent_beyond_port :
    (Instr.pack f8 ⟨false, 0, 256, 0⟩).wellFormed Config.default = false := by decide +kernel

theorem test_illFormed_fraction_beyond_W :
    (Instr.pack f8 ⟨false, 0, 0, 2 ^ 32⟩).wellFormed Config.default = false := by decide +kernel

theorem test_illFormed_raw_beyond_64_bits :
    (Instr.setBits f8 (2 ^ 64)).wellFormed Config.default = false := by decide +kernel

theorem test_wellFormed_at_the_limits :
    ((Instr.pack ⟨255, 255⟩ ⟨true, -2 ^ 31, 255, 2 ^ 32 - 1⟩).wellFormed Config.default &&
    (Instr.fromF64 f8 (2 ^ 64 - 1)).wellFormed Config.default) = true := by decide +kernel

/-- A request whose every field is at the top of its port. -/
def fullRequest : Request :=
  { op := 255, nbits := 255, es := 255, a := ⟨2 ^ 32 - 1, true⟩, b := ⟨2 ^ 32 - 1, true⟩,
    record := ⟨true, 2 ^ 32 - 1, 255, 2 ^ 32 - 1⟩, raw := 2 ^ 64 - 1 }

theorem test_wellFormed_full_request :
    fullRequest.wellFormed Config.default = true := by decide +kernel

theorem test_illFormed_requests :
    ([{ fullRequest with op := 256 },
      { fullRequest with nbits := 256 },
      { fullRequest with es := 256 },
      { fullRequest with a := ⟨2 ^ 32, false⟩ },
      { fullRequest with b := ⟨2 ^ 32, false⟩ },
      { fullRequest with record := ⟨false, 2 ^ 32, 0, 0⟩ },
      { fullRequest with record := ⟨false, 0, 256, 0⟩ },
      { fullRequest with record := ⟨false, 0, 0, 2 ^ 32⟩ },
      { fullRequest with raw := 2 ^ 64 }]).all
      (fun q => !q.wellFormed Config.default) = true := by decide +kernel

/-! ## Decode: for every constructor a word written out from the spec's encoding

Bits 7:0 `op`, 15:8 `nbits`, 23:16 `es`, 55:24 `a.bits`, 56 `a.nan`, 88:57 `b.bits`, 89 `b.nan`, 90 `rec.sign`, 122:91
`rec.regime`, 130:123 `rec.exponent`, 162:131 `rec.fraction`, 226:163 `raw` (R57). Where 95_test_vectors.md section 4
prints the vector, the word is its. -/

theorem test_decode_ssw :
    decodeVector Config.default 0x10800 =
      .instr (.ssw ⟨8, 1⟩) := by decide +kernel

theorem test_decode_rsw :
    decodeVector Config.default 0xC0000000000801 =
      .instr (.rsw f8 (.finite 0xC0000000)) := by decide +kernel

theorem test_decode_esw :
    decodeVector Config.default 0xC0000000031002 =
      .instr (.esw ⟨16, 3⟩ (.finite 0xC0000000)) := by decide +kernel

theorem test_decode_fsw :
    decodeVector Config.default 0x6A000000010803 =
      .instr (.fsw ⟨8, 1⟩ (.finite 0x6A000000)) := by decide +kernel

theorem test_decode_useed :
    decodeVector Config.default 0x10804 =
      .instr (.useed ⟨8, 1⟩) := by decide +kernel

theorem test_decode_unpack :
    decodeVector Config.default 0x54000000010808 =
      .instr (.unpack ⟨8, 1⟩ (.finite 0x54000000)) := by decide +kernel

theorem test_decode_pack :
    decodeVector Config.default 0x20000000008000000080000000000000000010809 =
      .instr (.pack ⟨8, 1⟩ ⟨false, 1, 1, 0x40000000⟩) := by decide +kernel

theorem test_decode_fromF32 :
    decodeVector Config.default 0x1FE0000000000000000000000000000000000000000000810 =
      .instr (.fromF32 f8 0x3FC00000) := by decide +kernel

theorem test_decode_fromF64 :
    decodeVector Config.default 0x400000000000000080000000000000000000000000000000000011011 =
      .instr (.fromF64 ⟨16, 1⟩ 0x8000000000000001) := by decide +kernel

theorem test_decode_toF32 :
    decodeVector Config.default 0x72000000000812 =
      .instr (.toF32 f8 (.finite 0x72000000)) := by decide +kernel

theorem test_decode_toF64 :
    decodeVector Config.default 0x72000000000813 =
      .instr (.toF64 f8 (.finite 0x72000000)) := by decide +kernel

theorem test_decode_neg :
    decodeVector Config.default 0x40000000000818 =
      .instr (.neg f8 (.finite 0x40000000)) := by decide +kernel

theorem test_decode_rec :
    decodeVector Config.default 0x40000000000819 =
      .instr (.recip f8 (.finite 0x40000000)) := by decide +kernel

theorem test_decode_mul :
    decodeVector Config.default 0x80000000C000000000081A =
      .instr (.mul f8 (.finite 0xC0000000) (.finite 0x40000000)) := by decide +kernel

theorem test_decode_div :
    decodeVector Config.default 0xB00000004000000001101B =
      .instr (.div ⟨16, 1⟩ (.finite 0x40000000) (.finite 0x58000000)) := by decide +kernel

theorem test_decode_add :
    decodeVector Config.default 0x10000000000081C =
      .instr (.add f8 .nan (.finite 0)) := by decide +kernel

theorem test_decode_sub :
    decodeVector Config.default 0x200000000C000000000081D =
      .instr (.sub f8 (.finite 0xC0000000) .nan) := by decide +kernel

theorem test_decode_isZero :
    decodeVector Config.default 0xC0000000000820 =
      .instr (.isZero f8 (.finite 0xC0000000)) := by decide +kernel

theorem test_decode_isOne :
    decodeVector Config.default 0xC0000000000821 =
      .instr (.isOne f8 (.finite 0xC0000000)) := by decide +kernel

theorem test_decode_isInf :
    decodeVector Config.default 0x80000000000822 =
      .instr (.isInf f8 (.finite 0x80000000)) := by decide +kernel

theorem test_decode_isNeg :
    decodeVector Config.default 0xA0000000000823 =
      .instr (.isNeg f8 (.finite 0xA0000000)) := by decide +kernel

theorem test_decode_isNan :
    decodeVector Config.default 0x100000000000824 =
      .instr (.isNan f8 .nan) := by decide +kernel

theorem test_decode_eq :
    decodeVector Config.default 0x20000000100000000000828 =
      .instr (.eq f8 .nan .nan) := by decide +kernel

theorem test_decode_gt :
    decodeVector Config.default 0xA0000000C0000000000829 =
      .instr (.gt f8 (.finite 0xC0000000) (.finite 0x50000000)) := by decide +kernel

theorem test_decode_ge :
    decodeVector Config.default 0xA0000000C000000000082A =
      .instr (.ge f8 (.finite 0xC0000000) (.finite 0x50000000)) := by decide +kernel

theorem test_decode_lt :
    decodeVector Config.default 0xA0000000C000000000082B =
      .instr (.lt f8 (.finite 0xC0000000) (.finite 0x50000000)) := by decide +kernel

theorem test_decode_le :
    decodeVector Config.default 0xA0000000C000000000082C =
      .instr (.le f8 (.finite 0xC0000000) (.finite 0x50000000)) := by decide +kernel

theorem test_decode_cZero :
    decodeVector Config.default 0x830 =
      .instr (.cZero f8) := by decide +kernel

theorem test_decode_cOne :
    decodeVector Config.default 0x11031 =
      .instr (.cOne ⟨16, 1⟩) := by decide +kernel

theorem test_decode_cInf :
    decodeVector Config.default 0x832 =
      .instr (.cInf f8) := by decide +kernel

theorem test_decode_cNan :
    decodeVector Config.default 0x833 =
      .instr (.cNan f8) := by decide +kernel

theorem test_decode_setBits :
    decodeVector Config.default 0x3000000000000000000000000000000000000000834 =
      .instr (.setBits f8 0x60) := by decide +kernel

theorem test_decode_getBits :
    decodeVector Config.default 0x80000000000835 =
      .instr (.getBits f8 (.finite 0x80000000)) := by decide +kernel

theorem test_decode_negative_regime :
    decodeVector Config.default 0x7FFFFFFCC0000000000000000000809 =
    .instr (.pack f8 ⟨true, -7, 0, 0⟩) := by decide +kernel

theorem test_decode_reserved :
    decodeVector Config.default 0x81E = .reservedOp 0x1E := by decide +kernel

/-- The decoder reads a table row's word from the operation code alone: every code of rule R52. -/
theorem test_decode_table_words :
    ([0x00, 0x01, 0x02, 0x03, 0x04, 0x08, 0x09, 0x10, 0x11, 0x12, 0x13, 0x18, 0x19, 0x1A, 0x1B, 0x1C, 0x1D,
      0x20, 0x21, 0x22, 0x23, 0x24, 0x28, 0x29, 0x2A, 0x2B, 0x2C, 0x30, 0x31, 0x32, 0x33, 0x34, 0x35]).all
    (fun op => (decodeTableWord 8 op).map opcode == some op) = true := by decide +kernel

theorem test_decode_table_reserved :
    ([0x05, 0x07, 0x0A, 0x0F, 0x14, 0x17, 0x1E, 0x1F, 0x25, 0x27, 0x2D, 0x2F, 0x36, 0xFF]).all
    (fun op => (decodeTableWord 8 op).isNone) = true := by decide +kernel

theorem test_encode_printed_pack :
    encode Config.default (.pack ⟨8, 1⟩ ⟨false, 1, 1, 0x40000000⟩) = 0x20000000008000000080000000000000000010809 := by decide +kernel

/-! ## The instructions: vectors of 95_test_vectors.md section 3 and of the rules -/

theorem test_ssw :
    ask (.ssw f8) = okNat 1 := by decide +kernel

theorem test_rsw_all_zeros :
    ask (.rsw f8 (v8 0)) = okNat 7 := by decide +kernel

theorem test_rsw_sixteen_bits :
    ask (.rsw ⟨16, 3⟩ (.finite 0xF2230000)) = okNat 3 := by decide +kernel

theorem test_esw_truncated_field :
    ask (.esw ⟨8, 2⟩ (v8 0b01111101)) = okNat 1 := by decide +kernel

theorem test_esw_no_room :
    ask (.esw ⟨8, 2⟩ (v8 0b01111110)) = okNat 0 := by decide +kernel

theorem test_fsw_sixteen_bits :
    ask (.fsw ⟨16, 3⟩ (.finite 0x0DDD0000)) = okNat 8 := by decide +kernel

theorem test_fsw_of_one :
    ask (.fsw f8 (v8 0b01000000)) = okNat 5 := by decide +kernel

theorem test_useed :
    ask (.useed ⟨8, 3⟩) = okNat 256 := by decide +kernel

theorem test_useed_too_wide :
    ask (.useed ⟨8, 6⟩) = some (.refused .illegalParam) := by decide +kernel

theorem test_unpack_negative :
    ask (.unpack ⟨16, 3⟩ (.finite 0xF2230000)) = okRecord ⟨true, -3, 5, 0xDD000000⟩ := by decide +kernel

theorem test_unpack_truncated_exponent :
    ask (.unpack ⟨5, 2⟩ (.finite (0b00011 * 2 ^ 27))) = okRecord ⟨false, -2, 2, 0⟩ := by decide +kernel

theorem test_pack_truncates :
    ask (.pack ⟨8, 2⟩ ⟨false, 3, 3, 0xFFFFFFFF⟩) = okValue (v8 0b01111011) := by decide +kernel

theorem test_pack_zero_magnitude_of_sign_one :
    ask (.pack f8 ⟨true, -7, 0, 0⟩) = okValue (v8 0b10000000) := by decide +kernel

theorem test_fromF32_truncates :
    ask (.fromF32 ⟨16, 1⟩ 0x40490FDB) = okValue (.finite 0x59210000) := by decide +kernel

theorem test_fromF32_clips_to_minpos :
    ask (.fromF32 f8 0x8DA24260) = okValue (v8 0b11111111) := by decide +kernel

theorem test_fromF64_negative :
    ask (.fromF64 ⟨8, 1⟩ 0xBFD8000000000000) = okValue (v8 0b11011000) := by decide +kernel

theorem test_fromF64_infinity :
    ask (.fromF64 f8 0xFFF0000000000000) = okValue (v8 0b10000000) := by decide +kernel

theorem test_toF32_truncates :
    ask (.toF32 ⟨32, 2⟩ (.finite 0x4490FDAA)) = okNat 0x3FC90FDA := by decide +kernel

theorem test_toF32_signed_zero :
    ask (.toF32 ⟨32, 3⟩ (.finite 0xFFFFFFFF)) = okNat 0x80000000 := by decide +kernel

theorem test_toF64 :
    ask (.toF64 ⟨16, 3⟩ (.finite 0x0DDD0000)) = okNat 0x3ECDD00000000000 := by decide +kernel

theorem test_toF64_nan :
    ask (.toF64 f8 .nan) = okNat 0x7FF8000000000000 := by decide +kernel

theorem test_neg :
    ask (.neg f8 (v8 0b01010000)) = okValue (v8 0b10110000) := by decide +kernel

theorem test_neg_infinity :
    ask (.neg f8 (v8 0b10000000)) = okValue (v8 0b10000000) := by decide +kernel

theorem test_rec :
    ask (.recip f8 (v8 0b10110000)) = okValue (v8 0b11010000) := by decide +kernel

theorem test_rec_zero :
    ask (.recip f8 (v8 0)) = okValue (v8 0b10000000) := by decide +kernel

theorem test_mul_truncates :
    ask (.mul f8 (v8 0b01001000) (v8 0b01011000)) = okValue (v8 0b01100001) := by decide +kernel

theorem test_mul_literal_reciprocal :
    ask (.mul f8 (v8 0b11010000) (v8 0b01010000)) = okValue (v8 0b11000000) := by decide +kernel

theorem test_div_is_not_the_quotient :
    ask (.div f8 (v8 0b01011000) (v8 0b01010000)) = okValue (v8 0b01001010) := by decide +kernel

theorem test_div_zero_by_zero :
    ask (.div f8 (v8 0) (v8 0)) = okValue .nan := by decide +kernel

theorem test_add_tie_even :
    ask (.add f8 (v8 0b01111000) (v8 0b01000000)) = okValue (v8 0b01111000) := by decide +kernel

theorem test_add_carry_to_two :
    ask (.add f8 (v8 0b01011111) (v8 0b00000001)) = okValue (v8 0b01100000) := by decide +kernel

theorem test_sub :
    ask (.sub f8 (v8 0b01000000) (v8 0b01100000)) = okValue (v8 0b11000000) := by decide +kernel

theorem test_sub_infinities :
    ask (.sub f8 (v8 0b10000000) (v8 0b10000000)) = okValue .nan := by decide +kernel

theorem test_isZero_of_infinity :
    ask (.isZero f8 (v8 0b10000000)) = okFlag false := by decide +kernel

theorem test_isZero :
    ask (.isZero f8 (v8 0)) = okFlag true := by decide +kernel

theorem test_isOne_of_minus_one :
    ask (.isOne f8 (v8 0b11000000)) = okFlag false := by decide +kernel

theorem test_isOne :
    ask (.isOne f8 (v8 0b01000000)) = okFlag true := by decide +kernel

theorem test_isInf :
    ask (.isInf f8 (v8 0b10000000)) = okFlag true := by decide +kernel

theorem test_isInf_next_pattern :
    ask (.isInf f8 (v8 0b10000001)) = okFlag false := by decide +kernel

theorem test_isNeg_of_infinity :
    ask (.isNeg f8 (v8 0b10000000)) = okFlag true := by decide +kernel

theorem test_isNeg_of_nan :
    ask (.isNeg f8 .nan) = okFlag false := by decide +kernel

theorem test_isNan :
    ask (.isNan f8 .nan) = okFlag true := by decide +kernel

theorem test_isNan_of_infinity :
    ask (.isNan f8 (v8 0b10000000)) = okFlag false := by decide +kernel

theorem test_eq_nan :
    ask (.eq f8 .nan .nan) = okFlag false := by decide +kernel

theorem test_eq_infinities :
    ask (.eq f8 (v8 0b10000000) (v8 0b10000000)) = okFlag true := by decide +kernel

theorem test_gt_across_signs :
    ask (.gt f8 (v8 0b11000000) (v8 0b01000000)) = okFlag true := by decide +kernel

theorem test_gt_infinity :
    ask (.gt f8 (v8 0b10000000) (v8 0b01000000)) = okFlag false := by decide +kernel

theorem test_ge_infinities :
    ask (.ge f8 (v8 0b10000000) (v8 0b10000000)) = okFlag true := by decide +kernel

theorem test_ge_less :
    ask (.ge f8 (v8 0b01000000) (v8 0b01010000)) = okFlag false := by decide +kernel

theorem test_lt :
    ask (.lt f8 (v8 0b01000000) (v8 0b01010000)) = okFlag true := by decide +kernel

theorem test_lt_infinity :
    ask (.lt f8 (v8 0b01000000) (v8 0b10000000)) = okFlag false := by decide +kernel

theorem test_le_greater :
    ask (.le f8 (v8 0b01010000) (v8 0b01000000)) = okFlag false := by decide +kernel

theorem test_le_equal :
    ask (.le f8 (v8 0) (v8 0)) = okFlag true := by decide +kernel

theorem test_cZero :
    ask (.cZero ⟨16, 1⟩) = okValue (.finite 0) := by decide +kernel

theorem test_cOne :
    ask (.cOne ⟨16, 1⟩) = okValue (.finite 0x40000000) := by decide +kernel

theorem test_cInf :
    ask (.cInf ⟨16, 1⟩) = okValue (.finite 0x80000000) := by decide +kernel

theorem test_cNan :
    ask (.cNan f8) = okValue .nan := by decide +kernel

theorem test_setBits :
    ask (.setBits ⟨16, 3⟩ 0xDDD) = okValue (.finite 0x0DDD0000) := by decide +kernel

theorem test_setBits_too_wide :
    ask (.setBits f8 0x100) = some (.refused .illegalOperand) := by decide +kernel

theorem test_getBits_of_nine_bits :
    ask (.getBits ⟨9, 0⟩ (.finite 0x40800000)) = okNat 0x81 := by decide +kernel

theorem test_getBits_nan :
    ask (.getBits f8 .nan) = some (.refused .illegalOperand) := by decide +kernel

theorem test_add_tie_away :
    ask (.add f8 (v8 0b01111000) (v8 0b01000000)) .away = okValue (v8 0b01111001) := by decide +kernel

/-! ## Refusals (R203), the ports, reset (R220) -/

theorem test_priority_reserved_code_first :
    askVector 0x105 = some (.refused .illegalOp) := by decide +kernel

theorem test_priority_parameters_before_operands :
    askVector 0x4000000100011a = some (.refused .illegalParam) := by decide +kernel

theorem test_stray_bit_is_refused :
    askVector 0x4000000100081a = some (.refused .illegalOperand) := by decide +kernel

theorem test_nan_bits_are_ignored :
    askVector 0x100000001000824 = okFlag true := by decide +kernel

theorem test_fields_not_read_are_ignored :
    askVector 0x26800000040480000001c0000000f00000005000831 = okValue (.finite 0x40000000) := by decide +kernel

theorem test_idle_step_stays : step State.reset = .next State.reset := rfl

theorem test_reset_parameters : State.reset.cfg = ⟨32, 8, 32, 64, .even⟩ := rfl

theorem test_reset_drops_the_request :
    ({ State.reset with request := some fullRequest }).assertReset = State.reset := rfl

theorem test_response_wires : ResponsePort.toVector Config.default
    (Response.onPort Config.default ⟨0, 0, 0, 0, 0, 0, 0, 0, 0⟩ (.ok (.ofRecord ⟨true, -3, 5, 0xDD000000⟩))) =
      2 ^ 35 + 0xFFFFFFFD * 2 ^ 36 + 5 * 2 ^ 68 + 0xDD000000 * 2 ^ 76 := by decide +kernel

/-! ## Witnesses: the hypotheses of each statement are met -/

/-- A reset block with `q` outstanding. -/
abbrev asking (q : Request) : State := { State.reset with request := some q }

/-- A plain MUL request in the 8-bit format. -/
def mulRequest : Request :=
  { op := 0x1A, nbits := 8, es := 0, a := ⟨0x50000000, false⟩, b := ⟨0x62000000, false⟩,
    record := ⟨false, 0, 0, 0⟩, raw := 0 }

/-- The same request with both operands NaN. -/
def nanRequest : Request := { mulRequest with a := ⟨5, true⟩, b := ⟨7, true⟩ }

/-- The storage widths of the witnesses about two configurations. -/
abbrev narrow : Config := { Config.default with W := 8 }

theorem witness_DecodeOfEncodedVector :
    Config.default.legal = true ∧ (Instr.pack ⟨8, 0⟩ ⟨true, -2 ^ 31, 255, 2 ^ 32 - 1⟩).wellFormed Config.default = true := by decide +kernel

/-- The same NaN operands with other bits, and other fields that MUL does not read. -/
def nanRequest' : Request :=
  { nanRequest with a := ⟨0, true⟩, b := ⟨9, true⟩, record := ⟨true, 3, 1, 5⟩, raw := 77 }

theorem witness_UnreadFieldsAreIgnored :
    (decode Config.default nanRequest = .instr (.mul f8 .nan .nan) ∧
      AgreeOn (reads (.mul f8 .nan .nan)) nanRequest nanRequest') ∧
    (Config.default.legal = true ∧ nanRequest.wellFormed Config.default = true ∧
      decode Config.default nanRequest = .instr (.mul f8 .nan .nan)) := by
  refine ⟨⟨rfl, rfl, rfl, rfl, ?_⟩, by decide +kernel⟩
  simp [reads, SameValue, nanRequest, nanRequest']

theorem witness_RecordsAsFlatVectors :
    fullRequest.wellFormed Config.default = true := by decide +kernel

/-- The two ends of every range of rule R56. -/
theorem witness_ReservedCodesAreRefused :
    ∀ op ∈ [0x05, 0x07, 0x0A, 0x0F, 0x14, 0x17, 0x1E, 0x1F, 0x25, 0x27, 0x2D, 0x2F, 0x36, 0xFF], ∃ q : Request,
      (asking q).request = some q ∧ q.op = op ∧
      ((0x05 ≤ q.op ∧ q.op ≤ 0x07) ∨ (0x0A ≤ q.op ∧ q.op ≤ 0x0F) ∨ (0x14 ≤ q.op ∧ q.op ≤ 0x17) ∨
        q.op = 0x1E ∨ q.op = 0x1F ∨ (0x25 ≤ q.op ∧ q.op ≤ 0x27) ∨ (0x2D ≤ q.op ∧ q.op ≤ 0x2F) ∨
        (0x36 ≤ q.op ∧ q.op ≤ 0xFF)) := by
  intro op h
  exact ⟨{ fullRequest with op := op }, rfl, rfl, by revert op; decide⟩

theorem witness_StepRunsDecodedRequest :
    (asking mulRequest).request = some mulRequest ∧
      decode Config.default mulRequest = .instr (.mul f8 (.finite 0x50000000) (.finite 0x62000000)) ∧
      decodeVector Config.default (0x831 % 2 ^ 227) = .instr (.cOne f8) ∧ State.reset.request = none := by decide +kernel

theorem witness_ResponseIsFunctionOfRequest :
    (asking mulRequest).cfg = ((asking mulRequest).answered (.refused .illegalOp)).cfg ∧
      (asking mulRequest).request = some mulRequest ∧
      ({ asking mulRequest with response := some (.refused .illegalOp) } : State).request = some mulRequest := by decide +kernel

theorem witness_ServiceInOrder :
    State.reset.request = none ∧ (asking mulRequest).request = some mulRequest := by decide +kernel

theorem witness_NanBitsAreNeverRead :
    nanRequest.a.nan = true ∧ nanRequest.b.nan = true := by decide +kernel

/-- An idle step, an answered request and a refused one, each from a state that meets the invariant. -/
theorem witness_StepKeepsPortsFit :
    (portsFit State.reset = true ∧ step State.reset = .next State.reset) ∧
    (∃ t, portsFit (asking nanRequest) = true ∧ step (asking nanRequest) = .next t) ∧
    (∃ t, portsFit (asking fullRequest) = true ∧ step (asking fullRequest) = .next t) :=
  ⟨⟨by decide +kernel, rfl⟩, ⟨_, by decide +kernel, rfl⟩, ⟨_, by decide +kernel, rfl⟩⟩

theorem witness_ResetMeetsPortsFit : portsFit (asking fullRequest) = true := by decide +kernel

theorem witness_ResetIsIdleAndKeepsParameters :
    (∃ t, exec (.cOne f8) State.reset = .next t) ∧ (∃ t, step (asking mulRequest) = .next t) :=
  ⟨⟨_, rfl⟩, ⟨_, rfl⟩⟩

/-- Both refusals of an instruction, the USEED check, and a legal instruction. -/
theorem witness_RefusalsAreExactlyTheListed :
    refusalOf Config.default (.mul ⟨1, 0⟩ (.finite 1) .nan) = some .illegalParam ∧
      refusalOf Config.default (.useed ⟨8, 6⟩) = some .illegalParam ∧
      refusalOf Config.default (.unpack f8 .nan) = some .illegalOperand ∧
      refusalOf Config.default (.useed ⟨8, 5⟩) = none := by decide +kernel

theorem witness_IllegalParametersAreRefused :
    (Instr.ssw ⟨1, 0⟩).fmt.nbits < 2 ∧ State.reset.cfg.W < (Instr.ssw ⟨33, 0⟩).fmt.nbits ∧
      State.reset.cfg.esMax < (Instr.ssw ⟨8, 9⟩).fmt.es := by decide +kernel

theorem witness_ResponseFieldsAndWires :
    (exec (.cOne f8) State.reset = .next (State.reset.answered (.ok (.ofValue (.finite 0x40000000)))) ∧
      written (.cOne f8) ≠ .record ∧ written (.cOne f8) ≠ .n ∧ written (.cOne f8) ≠ .flag) ∧
    (exec (.ssw f8) State.reset = .next (State.reset.answered (.ok (.ofNat 1))) ∧ written (.ssw f8) ≠ .r) ∧
    ((Reply.ofValue (.finite 0x40000000)).r = .finite 0x40000000 ∧ (Reply.ofValue .nan).r = .nan) :=
  ⟨⟨rfl, by decide, by decide, by decide⟩, ⟨rfl, by decide⟩, ⟨rfl, rfl⟩⟩

theorem witness_ResultsAreLeftJustified :
    State.reset.cfg.legal = true ∧ (Instr.cInf ⟨32, 8⟩).wellFormed State.reset.cfg = true ∧
    exec (.cInf ⟨32, 8⟩) State.reset = .next (State.reset.answered (.ok (.ofValue (.finite 0x80000000)))) ∧
    (Reply.ofValue (.finite 0x80000000)).r = .finite 0x80000000 :=
  ⟨by decide +kernel, by decide +kernel, rfl, rfl⟩

theorem witness_NanResultsAreExactlyTheListed :
    State.reset.cfg.legal = true ∧ (Instr.neg f8 .nan).wellFormed State.reset.cfg = true ∧
    exec (.neg f8 .nan) State.reset = .next (State.reset.answered (.ok (.ofValue .nan))) :=
  ⟨by decide +kernel, by decide +kernel, rfl⟩

theorem witness_ViewAndWordAreInverse :
    2 ≤ 8 ∧ 8 ≤ Config.default.W ∧ 255 < 2 ^ 8 ∧ 0xFF000000 < 2 ^ Config.default.W ∧
      justified Config.default 8 (.finite 0xFF000000) = true := by decide +kernel

/-- The narrowest and the widest format the defaults allow. -/
theorem witness_FmtLegal :
    FmtLegal State.reset.cfg ⟨2, 0⟩ ∧ FmtLegal State.reset.cfg ⟨32, 8⟩ := by decide +kernel

theorem witness_RegimeWidthIsTheMaximalRun :
    FmtLegal State.reset.cfg f8 ∧ 255 < 2 ^ 8 ∧ 0b01101000 < 2 ^ 8 ∧ Stray State.reset.cfg 8 (.finite 1) := by decide +kernel

theorem witness_ExponentAndFractionWidths :
    FmtLegal State.reset.cfg f8 ∧ 255 < 2 ^ 8 ∧ Stray State.reset.cfg 8 (.finite 1) := by decide +kernel

theorem witness_WidthsSumToNbits :
    FmtLegal State.reset.cfg f8 ∧ 255 < 2 ^ 8 := by decide +kernel

theorem witness_SignWidthAndUseed :
    (FmtLegal State.reset.cfg ⟨8, 5⟩ ∧ 2 ^ 5 < State.reset.cfg.NW) ∧
      (FmtLegal State.reset.cfg ⟨8, 6⟩ ∧ State.reset.cfg.NW ≤ 2 ^ 6) := by decide +kernel

theorem witness_DecompInvertsCombinedExponent :
    (⟨true, -2, 3, 0⟩ : Record).exponent < 2 ^ 2 := by decide +kernel

theorem witness_UnpackOfSentinels :
    FmtLegal State.reset.cfg f8 := by decide +kernel

theorem witness_UnpackedRecordRanges :
    State.reset.cfg.legal = true ∧ FmtLegal State.reset.cfg f8 ∧ 255 < 2 ^ 8 := by decide +kernel

theorem witness_UnpackReadsTheFieldLayout :
    FmtLegal State.reset.cfg f8 ∧ Denotes 8 1 ∧ Denotes 8 255 := by decide +kernel

theorem witness_PackTakesTheFirstBitsOfS :
    FmtLegal State.reset.cfg f8 ∧ 0xFFFFFFFF < 2 ^ State.reset.cfg.W ∧ 0 < 2 ^ f8.es ∧ 2 ^ f8.es ≤ 1 := by decide +kernel

/-- The two sides of each bound of the saturation. -/
theorem witness_PackSaturates :
    FmtLegal State.reset.cfg f8 ∧ 0 < 2 ^ f8.es ∧ 0xFFFFFFFF < 2 ^ State.reset.cfg.W ∧ (f8.nbits : Int) - 2 ≤ 6 ∧
      (-6 : Int) = 2 - (f8.nbits : Int) ∧ (-7 : Int) ≤ 1 - (f8.nbits : Int) := by decide +kernel

theorem witness_PackOfUnpackIsIdentity :
    FmtLegal State.reset.cfg f8 ∧ 128 < 2 ^ 8 := by decide +kernel

theorem witness_ClippedPackIsFiniteNonzero :
    2 ≤ 2 ∧ 2 ≤ Config.default.W ∧ 0xFFFFFFFF < 2 ^ Config.default.W := by decide +kernel

/-- Each clause: `ZERO` below minpos, the two ends of the negatives, a negative and `ZERO`, two equal infinities. -/
theorem witness_UnsignedOrderIsNumericWithinASign :
    2 ≤ 8 ∧ 8 ≤ Config.default.W ∧
      (FiniteView 8 0 ∧ FiniteView 8 1 ∧ Nat.testBit 0 (8 - 1) = Nat.testBit 1 (8 - 1) ∧ 0 < 1) ∧
      (FiniteView 8 129 ∧ FiniteView 8 255 ∧ Nat.testBit 129 (8 - 1) = Nat.testBit 255 (8 - 1) ∧ 129 < 255) ∧
      (FiniteView 8 255 ∧ FiniteView 8 0 ∧ Nat.testBit 255 (8 - 1) = true ∧ Nat.testBit 0 (8 - 1) = false) ∧
      (Denotes 8 1 ∧ Nat.testBit 1 (8 - 1) = false) ∧
      (128 < 2 ^ 8 ∧ denoted Config.default 8 0 128 = denoted Config.default 8 0 128) := by decide +kernel

/-- Each class of IEEE patterns at the ends of its range. -/
theorem witness_FromIeeeSpecials :
    FmtLegal State.reset.cfg f8 ∧ (0x807FFFFF < 2 ^ 32 ∧ 0x807FFFFF % 2 ^ 31 < 0x00800000) ∧ (0xFF800000 < 2 ^ 32 ∧ 0xFF800000 % 2 ^ 31 = 0x7F800000) ∧
      (0xFF800001 < 2 ^ 32 ∧ 0x7F800000 < 0xFF800001 % 2 ^ 31) ∧
      (0x800FFFFFFFFFFFFF < 2 ^ 64 ∧ 0x800FFFFFFFFFFFFF % 2 ^ 63 < 0x0010000000000000) ∧
      (0xFFF0000000000000 < 2 ^ 64 ∧ 0xFFF0000000000000 % 2 ^ 63 = 0x7FF0000000000000) ∧
      (0xFFF0000000000001 < 2 ^ 64 ∧ 0x7FF0000000000000 < 0xFFF0000000000001 % 2 ^ 63) := by decide +kernel

theorem witness_FromIeeeNormals :
    FmtLegal State.reset.cfg f8 ∧ (0 < 1 ∧ 1 < 255 ∧ 0 < 254 ∧ 254 < 255 ∧ 2 ^ 23 - 1 < 2 ^ 23) ∧
      (0 < 1 ∧ 1 < 2047 ∧ 0 < 2046 ∧ 2046 < 2047 ∧ 2 ^ 52 - 1 < 2 ^ 52) := by decide +kernel

theorem witness_FromIeeeTruncatesTheNumber :
    FmtLegal State.reset.cfg f8 ∧ f8.nbits ≤ 8 ∧ f8.nbits ≤ 100 ∧
      (0 < 1 ∧ 1 < 255 ∧ 0 < 254 ∧ 254 < 255 ∧ 2 ^ 23 - 1 < 2 ^ 23) ∧
      (0 < 1 ∧ 1 < 2047 ∧ 0 < 2046 ∧ 2046 < 2047 ∧ 2 ^ 52 - 1 < 2 ^ 52) := by decide +kernel

theorem witness_ToIeeeSpecials :
    FmtLegal State.reset.cfg f8 := by decide +kernel

/-- Above, below and inside the single-precision range: regimes 30, -30 and 0 at `es = 3`. -/
theorem witness_ToIeeeOfNumbers :
    FmtLegal State.reset.cfg ⟨32, 3⟩ ∧ Denotes 32 0x7FFFFFFF ∧ Denotes 32 1 ∧ Denotes 32 0x40000000 ∧
      255 ≤ combined 3 (unpackView Config.default 32 3 0x7FFFFFFF) + 127 ∧
      combined 3 (unpackView Config.default 32 3 1) + 127 ≤ 0 ∧
      combined 3 (unpackView Config.default 32 3 0x40000000) + 127 = 127 := by decide +kernel

theorem witness_IeeeRoundTrip :
    (FmtLegal State.reset.cfg ⟨32, 5⟩ ∧ OnViews 32 (.view 0xFFFFFFFF) ∧ OnViews 32 .nan ∧ 32 ≤ 55 ∧
        2 ^ 5 * (32 - 2) ≤ 1022) ∧
      (FmtLegal State.reset.cfg ⟨26, 2⟩ ∧ OnViews 26 (.view (2 ^ 26 - 1)) ∧ 26 ≤ 26 ∧ 2 ^ 2 * (26 - 2) ≤ 126) := by decide +kernel

theorem witness_NegIsTwosComplement :
    FmtLegal State.reset.cfg f8 ∧ 255 < 2 ^ 8 ∧ Stray State.reset.cfg 8 (.finite 1) := by decide +kernel

theorem witness_RecComplementsBelowTheSign :
    FmtLegal State.reset.cfg f8 ∧ Denotes 8 1 ∧ Denotes 8 255 ∧ Stray State.reset.cfg 8 (.finite 1) := by decide +kernel

theorem witness_NegAndRecAreInvolutions :
    FmtLegal State.reset.cfg f8 ∧ OnViews 8 (.view 128) ∧ OnViews 8 .nan := by decide +kernel

/-- A power of two and a number with a fraction. -/
theorem witness_RecOnTheFields :
    2 ≤ 8 ∧ 8 ≤ Config.default.W ∧
      (Denotes 8 0b01100000 ∧ (unpackView Config.default 8 0 0b01100000).fraction = 0) ∧
      (Denotes 8 0b01010000 ∧ (unpackView Config.default 8 0 0b01010000).fraction ≠ 0) := by decide +kernel

theorem witness_MulFastPathsInOrder :
    FmtLegal State.reset.cfg f8 ∧ 255 < 2 ^ 8 ∧ 1 < 2 ^ 8 ∧ Stray State.reset.cfg 8 (.finite 1) := by decide +kernel

theorem witness_MulGeneralPathSteps :
    2 ≤ 8 ∧ 8 ≤ Config.default.W ∧ Denotes 8 0b01001000 ∧ Denotes 8 0b10100001 := by decide +kernel

theorem witness_MulPacksTheExactProduct :
    2 ≤ 8 ∧ 8 ≤ Config.default.W ∧ Denotes 8 0b01001000 ∧ Denotes 8 0b10100001 := by decide +kernel

theorem witness_MulAndAddAreCommutative :
    (Value.finite 0xFFFFFFFF).wellFormed State.reset.cfg = true ∧ Value.nan.wellFormed State.reset.cfg = true := by decide +kernel

theorem witness_MulIdentityAndZeroAbsorption :
    FmtLegal State.reset.cfg f8 ∧ OnViews 8 .nan ∧ OnViews 8 (.view 255) ∧ Denotes 8 255 := by decide +kernel

theorem witness_OneFastPathsAgreeWithGeneralPath :
    2 ≤ 2 ∧ 2 ≤ Config.default.W ∧ Denotes 2 3 ∧ Denotes 8 255 := by decide +kernel

theorem witness_DivIsMulByReciprocal :
    FmtLegal State.reset.cfg f8 ∧ OnViews 8 (.view 255) ∧ OnViews 8 .nan ∧ Stray State.reset.cfg 8 (.finite 1) := by decide +kernel

theorem witness_DivCornerCases :
    FmtLegal State.reset.cfg f8 ∧ Denotes 8 0b01010000 := by decide +kernel

theorem witness_AddFastPathsInOrder :
    FmtLegal State.reset.cfg f8 ∧ 255 < 2 ^ 8 ∧ 1 < 2 ^ 8 ∧ Stray State.reset.cfg 8 (.finite 1) := by decide +kernel

theorem witness_AddRoundsTheExactSumOnce :
    2 ≤ 8 ∧ 8 ≤ Config.default.W ∧ Denotes 8 0b01111000 ∧ Denotes 8 0b01000000 ∧ 0b01111000 ≠ negView 8 0b01000000 := by decide +kernel

theorem witness_SubIsAddOfNegation :
    FmtLegal State.reset.cfg f8 ∧ OnViews 8 (.view 255) ∧ OnViews 8 .nan ∧ Stray State.reset.cfg 8 (.finite 1) := by decide +kernel

theorem witness_AddAndSubIdentities :
    FmtLegal State.reset.cfg f8 ∧ OnViews 8 .nan ∧ OnViews 8 (.view 128) ∧ 255 < 2 ^ 8 ∧ 255 ≠ 2 ^ (8 - 1) := by decide +kernel

theorem witness_ViewsDoNotDependOnStorageWidth :
    2 ≤ 8 ∧ 8 ≤ Config.default.W ∧ 8 ≤ narrow.W ∧ Config.default.addTie = narrow.addTie ∧
      OnViews 8 (.view 255) ∧ OnViews 8 .nan ∧ 255 < 2 ^ 8 ∧
      (⟨true, -100, 0, 0xFFFFFFFF⟩ : Record).exponent < 2 ^ 0 ∧ 0xFFFFFFFF < 2 ^ Config.default.W := by decide +kernel

theorem witness_PredicateFlags :
    FmtLegal State.reset.cfg f8 ∧ 255 < 2 ^ 8 ∧ Stray State.reset.cfg 8 (.finite 1) := by decide +kernel

theorem witness_EqualsAndGreaterThan :
    FmtLegal State.reset.cfg f8 ∧ 0xFF000000 < 2 ^ State.reset.cfg.W ∧ 0xFF000000 % 2 ^ (State.reset.cfg.W - 8) = 0 ∧
      justified State.reset.cfg 8 .nan = true ∧ Stray State.reset.cfg 8 (.finite 1) := by decide +kernel

theorem witness_DerivedComparisons :
    FmtLegal State.reset.cfg f8 ∧ OnViews 8 (.view 255) ∧ OnViews 8 .nan ∧ Stray State.reset.cfg 8 (.finite 1) := by decide +kernel

/-- Both branches: an infinite operand, and two numbers. -/
theorem witness_ComparisonClasses :
    FmtLegal State.reset.cfg f8 ∧ (OnViews 8 (.view 128) ∧ Posit.view 128 = .view (2 ^ (8 - 1))) ∧
      (OnViews 8 (.view 127) ∧ OnViews 8 (.view 129) ∧
        ¬(Posit.view 127 = .nan ∨ Posit.view 129 = .nan ∨ Posit.view 127 = .view (2 ^ (8 - 1)) ∨
          Posit.view 129 = .view (2 ^ (8 - 1)))) := by decide +kernel

theorem witness_ConstructorWords :
    FmtLegal State.reset.cfg f8 := by decide +kernel

theorem witness_SetBitsAndGetBits :
    FmtLegal State.reset.cfg f8 ∧ 255 < 2 ^ 8 ∧ 2 ^ 8 ≤ 256 ∧ 0x40800000 % 2 ^ (State.reset.cfg.W - 8) ≠ 0 ∧
      0xFF000000 < 2 ^ State.reset.cfg.W ∧ 0xFF000000 % 2 ^ (State.reset.cfg.W - 8) = 0 := by decide +kernel

end Sys2Proof.Tests
end

section
/-! Rescaling a left-justified fraction between widths (R111, R115) is multiplication by a power of two, cut down to an
integer; so a detour through a third width is harmless as soon as that width cuts nothing off that is still needed. -/

namespace Sys2Proof.Machine

theorem rescale_eq (k k' x : Nat) : rescale k k' x = x * 2 ^ k' / 2 ^ k := by
  unfold rescale
  split
  · next h =>
    rw [← Nat.sub_add_cancel h, pow_add, ← mul_assoc, Nat.mul_div_cancel _ (Nat.two_pow_pos k), Nat.add_sub_cancel]
  · next h =>
    have hk : (2 : Nat) ^ k = 2 ^ (k - k') * 2 ^ k' := by rw [← pow_add, Nat.sub_add_cancel (by omega)]
    rw [hk, Nat.mul_div_mul_right _ _ (Nat.two_pow_pos k')]

theorem rescale_of_le {k k' : Nat} (h : k ≤ k') (x : Nat) : rescale k k' x = x * 2 ^ (k' - k) := if_pos h

theorem rescale_of_ge {k k' : Nat} (h : k' ≤ k) (x : Nat) : rescale k k' x = x / 2 ^ (k - k') := by
  unfold rescale
  split
  · next h' => simp [Nat.le_antisymm h h']
  · rfl

@[simp] theorem rescale_zero (k k' : Nat) : rescale k k' 0 = 0 := by simp [rescale]

theorem rescale_rescale {i j k : Nat} (h : i ≤ k ∨ j ≤ k) (x : Nat) :
    rescale k j (rescale i k x) = rescale i j x := by
  rcases h with h | h
  · have hk : (2 : Nat) ^ k = 2 ^ i * 2 ^ (k - i) := by rw [← pow_add, Nat.add_sub_cancel' h]
    rw [rescale_of_le h, rescale_eq, rescale_eq, hk, mul_right_comm, Nat.mul_div_mul_right _ _ (Nat.two_pow_pos _)]
  · have hk : (2 : Nat) ^ k = 2 ^ j * 2 ^ (k - j) := by rw [← pow_add, Nat.add_sub_cancel' h]
    rw [rescale_of_ge h, rescale_eq, rescale_eq, Nat.div_div_eq_div_mul, mul_comm (2 ^ i), ← Nat.div_div_eq_div_mul,
      hk, ← mul_assoc, Nat.mul_div_cancel _ (Nat.two_pow_pos _)]

/-- A bit of a rescaled word, counted from the top, does not depend on the width rescaled to. -/
theorem testBit_rescale {W i : Nat} (hi : i < W) (k x : Nat) :
    (rescale k W x).testBit i = (rescale k (W - i) x).testBit 0 := by
  rw [← rescale_rescale (.inr (Nat.sub_le W i)), rescale_of_ge (Nat.sub_le W i), show W - (W - i) = i by omega,
    Nat.testBit_div_two_pow, Nat.zero_add]

/-- The top `j` bits of a `W`-bit word after a left shift by `s` (R136's last step). -/
theorem rescale_shiftLeft_mod {W j s : Nat} (h : j + s ≤ W) (x : Nat) :
    rescale W j (x * 2 ^ s % 2 ^ W) = rescale W (j + s) x % 2 ^ j := by
  obtain ⟨d, rfl⟩ := Nat.exists_eq_add_of_le h
  rw [rescale_of_ge (by omega), rescale_of_ge (by omega), show j + s + d - j = d + s by omega, Nat.add_sub_cancel_left,
    show j + s + d = d + s + j by omega, pow_add 2 (d + s) j, Nat.mod_mul_right_div_self, pow_add 2 d s,
    Nat.mul_div_mul_right _ _ (Nat.two_pow_pos s)]

end Sys2Proof.Machine
end

section
/-! PACK and UNPACK in their dependence on the storage width: PACK reads only the first `n - 3` bits of a fraction
(sign and regime code take at least three of the `n` bits, R95 to R98), and UNPACK's fraction is a field of at most
`n - 3` bits, left-justified (R90, R93). -/

namespace Sys2Proof.Machine

variable {c c' : Config} {n : Nat}

/-! ## PACK -/

/-- Between its saturated ends PACK reads `n - 3` bits of the fraction, and the storage width nowhere else. -/
theorem packBody_of_unsaturated {es : Nat} {r : Record} (hW : n ≤ c.W) (hlo : 1 - (n : Int) < r.regime)
    (hhi : r.regime < (n : Int) - 2) :
    packBody c n es r =
      ((regcodeWord r.regime * 2 ^ es + r.exponent) * 2 ^ (n - 3) + rescale c.W (n - 3) r.fraction) /
        2 ^ (regcodeLen r.regime - 2 + es) := by
  have hlen : 2 ≤ regcodeLen r.regime := by unfold regcodeLen; split <;> omega
  have hpow : (2 : Nat) ^ c.W = 2 ^ (n - 3) * 2 ^ (c.W - (n - 3)) := by rw [← pow_add, Nat.add_sub_cancel' (by omega)]
  have hshift : regcodeLen r.regime + es + c.W - (n - 1) = c.W - (n - 3) + (regcodeLen r.regime - 2 + es) := by omega
  have hnum : regcodeWord r.regime * 2 ^ (es + c.W) + (r.exponent * 2 ^ c.W + r.fraction) =
      r.fraction + (regcodeWord r.regime * 2 ^ es + r.exponent) * 2 ^ (n - 3) * 2 ^ (c.W - (n - 3)) := by
    rw [pow_add, hpow]; ring
  rw [packBody, if_neg (by omega), if_neg (by omega), hshift, hnum, pow_add, ← Nat.div_div_eq_div_mul,
    Nat.add_mul_div_right _ _ (Nat.two_pow_pos _), ← rescale_of_ge (by omega), Nat.add_comm]

/-- Fractions that agree in their first `n - 3` bits are packed alike, whatever their widths. -/
theorem packView_congr (hW : n ≤ c.W) (hW' : n ≤ c'.W) (es : Nat) (r : Record) {f : Nat}
    (hf : rescale c.W (n - 3) r.fraction = rescale c'.W (n - 3) f) :
    packView c n es r = packView c' n es { r with fraction := f } := by
  suffices packBody c n es r = packBody c' n es { r with fraction := f } by simp [packView, this]
  rcases lt_or_ge r.regime ((n : Int) - 2) with hhi | hhi
  · rcases lt_or_ge (1 - (n : Int)) r.regime with hlo | hlo
    · rw [packBody_of_unsaturated hW hlo hhi, packBody_of_unsaturated (r := { r with fraction := f }) hW' hlo hhi, hf]
    · simp [packBody, hlo]
  · simp [packBody, hhi]

theorem packClipped_congr (hW : n ≤ c.W) (hW' : n ≤ c'.W) (es : Nat) (sign : Bool) (e : Int) {f f' : Nat}
    (hf : rescale c.W (n - 3) f = rescale c'.W (n - 3) f') :
    packClipped c n es sign e f = packClipped c' n es sign e f' :=
  packView_congr hW hW' es _ hf

/-! ## UNPACK -/

theorem fracWidth_le (p : Nat) (es : Nat) (hn : 2 ≤ n) : fracWidth p n es ≤ n - 3 := by
  have hsum := expWidth_add_fracWidth p n es
  have hrem := remBits_eq p n
  have hrun := runLen_pos p hn
  omega

/-- The fraction field of a view as it stands in the magnitude pattern, before it is left-justified (R90). -/
def storedFraction (n es v : Nat) : Nat :=
  mag n v % 2 ^ remBits (mag n v) n % 2 ^ fracWidth (mag n v) n es

theorem storedFraction_lt (n es v : Nat) : storedFraction n es v < 2 ^ fracWidth (mag n v) n es :=
  Nat.mod_lt _ (Nat.two_pow_pos _)

theorem unpackView_fraction (hn : 2 ≤ n) (hW : n ≤ c.W) (es v : Nat) :
    (unpackView c n es v).fraction = rescale (fracWidth (mag n v) n es) c.W (storedFraction n es v) := by
  have hw := fracWidth_le (mag n v) es hn
  rw [rescale_of_le (by omega)]
  rfl

theorem unpackView_fraction_lt (hn : 2 ≤ n) (hW : n ≤ c.W) (es v : Nat) : (unpackView c n es v).fraction < 2 ^ c.W := by
  have hw := fracWidth_le (mag n v) es hn
  rw [unpackView_fraction hn hW, rescale_of_le (by omega)]
  calc storedFraction n es v * 2 ^ (c.W - fracWidth (mag n v) n es)
      < 2 ^ fracWidth (mag n v) n es * 2 ^ (c.W - fracWidth (mag n v) n es) :=
        Nat.mul_lt_mul_of_pos_right (storedFraction_lt n es v) (Nat.two_pow_pos _)
    _ = 2 ^ c.W := by rw [← pow_add, Nat.add_sub_cancel' (by omega)]

theorem unpackView_exponent_lt (c : Config) (n es v : Nat) : (unpackView c n es v).exponent < 2 ^ es := by
  have hsum := expWidth_add_fracWidth (mag n v) n es
  have hpow : (2 : Nat) ^ es = 2 ^ expWidth (mag n v) n es * 2 ^ (es - expWidth (mag n v) n es) := by
    rw [← pow_add, Nat.add_sub_cancel' (expWidth_le_es _ _ _)]
  simp only [unpackView]
  rw [hpow]
  refine Nat.mul_lt_mul_of_pos_right (Nat.div_lt_of_lt_mul ?_) (Nat.two_pow_pos _)
  rw [← pow_add, Nat.add_comm, hsum]
  exact Nat.mod_lt _ (Nat.two_pow_pos _)

theorem unpackView_sign (c : Config) (n es v : Nat) : (unpackView c n es v).sign = signBit n v := rfl

theorem unpackView_regime (c : Config) (n es v : Nat) : (unpackView c n es v).regime = regimeOf (mag n v) n := rfl

theorem combined_unpackView_congr (c c' : Config) (n es v : Nat) :
    combined es (unpackView c n es v) = combined es (unpackView c' n es v) := rfl

/-- UNPACK at another storage width gives the same record, its fraction rescaled. -/
theorem unpackView_rescale (hn : 2 ≤ n) (hW : n ≤ c.W) (hW' : n ≤ c'.W) (es v : Nat) :
    unpackView c' n es v =
      { unpackView c n es v with fraction := rescale c.W c'.W (unpackView c n es v).fraction } := by
  have hw := fracWidth_le (mag n v) es hn
  rw [unpackView_fraction hn hW, rescale_rescale (.inl (by omega)), ← unpackView_fraction hn hW']
  rfl

end Sys2Proof.Machine
end

section
/-! The IEEE conversions and MUL do not depend on the storage width. FROMIEEE and MULGEN may cut the exact fraction at
the storage width (R111, R136), but never within the `n - 3` bits that PACK reads. -/

namespace Sys2Proof.Machine

variable {c c' : Config} {n : Nat}

/-! ## IEEE conversions -/

theorem fromIeee_congr (hW : n ≤ c.W) (hW' : n ≤ c'.W) (w : IeeeFmt) (es raw : Nat) :
    fromIeee c w n es raw = fromIeee c' w n es raw := by
  have hread (d : Config) (hd : n ≤ d.W) : rescale d.W (n - 3) (rescale w.fw d.W (ieeeFrac w raw)) =
      rescale w.fw (n - 3) (ieeeFrac w raw) := rescale_rescale (.inr (by omega)) _
  unfold fromIeee
  rw [packClipped_congr hW hW' es _ _ ((hread c hW).trans (hread c' hW').symm)]

theorem toIeee_congr (hn : 2 ≤ n) (hW : n ≤ c.W) (hW' : n ≤ c'.W) (w : IeeeFmt) (es : Nat) (x : Posit) :
    toIeee c w n es x = toIeee c' w n es x := by
  cases x with
  | nan => rfl
  | view v =>
    have hw := fracWidth_le (mag n v) es hn
    have hfrac (d : Config) (hd : n ≤ d.W) : rescale d.W w.fw (unpackView d n es v).fraction =
        rescale (fracWidth (mag n v) n es) w.fw (storedFraction n es v) := by
      rw [unpackView_fraction hn hd, rescale_rescale (.inl (by omega))]
    simp only [toIeee, hfrac c hW, hfrac c' hW', unpackView_sign, combined_unpackView_congr c c']

/-! ## MUL -/

/-- The significand `1.f` of a view as an integer of `fracWidth + 1` bits. -/
def integerSignificand (n es v : Nat) : Nat := 2 ^ fracWidth (mag n v) n es + storedFraction n es v

theorem significand_unpackView (hn : 2 ≤ n) (hW : n ≤ c.W) (es v : Nat) :
    significand c (unpackView c n es v).fraction =
      integerSignificand n es v * 2 ^ (c.W - 1 - fracWidth (mag n v) n es) := by
  have hw := fracWidth_le (mag n v) es hn
  have hlt := storedFraction_lt n es v
  rw [unpackView_fraction hn hW, rescale_of_le (by omega), significand, integerSignificand]
  generalize fracWidth (mag n v) n es = w at *
  generalize storedFraction n es v = F at *
  obtain ⟨d, hd⟩ : ∃ d, c.W = w + d + 1 := ⟨c.W - w - 1, by omega⟩
  have hF : F * 2 ^ d < 2 ^ (w + d) := by rw [pow_add]; exact Nat.mul_lt_mul_of_pos_right hlt (Nat.two_pow_pos d)
  have hor : 2 ^ (w + d) ||| F * 2 ^ d = 2 ^ (w + d) + F * 2 ^ d := by
    simpa using (Nat.two_pow_add_eq_or_of_lt hF 1).symm
  rw [show c.W - 1 - w = d by omega, show c.W - 1 = w + d by omega, show c.W - w = d + 1 by omega, pow_succ, ← mul_assoc,
    Nat.mul_div_cancel _ (by decide), hor, add_mul, pow_add]

/-- MULGEN's significand product is the exact product of the integer significands, rescaled to the storage width. -/
theorem significand_mul_significand (hn : 2 ≤ n) (hW : n ≤ c.W) (es x y : Nat) :
    significand c (unpackView c n es x).fraction * significand c (unpackView c n es y).fraction / 2 ^ c.W =
      rescale (fracWidth (mag n x) n es + fracWidth (mag n y) n es + 2) c.W
        (integerSignificand n es x * integerSignificand n es y) := by
  have hw := fracWidth_le (mag n x) es hn
  have hw' := fracWidth_le (mag n y) es hn
  rw [significand_unpackView hn hW, significand_unpackView hn hW, rescale_eq]
  generalize fracWidth (mag n x) n es = w at *
  generalize fracWidth (mag n y) n es = w' at *
  have hpow : (2 : Nat) ^ (c.W - 1 - w) * 2 ^ (c.W - 1 - w') * 2 ^ (w + w' + 2) = 2 ^ c.W * 2 ^ c.W := by
    rw [← pow_add, ← pow_add, ← pow_add]; congr 1; omega
  rw [← Nat.mul_div_mul_right _ (2 ^ c.W) (Nat.two_pow_pos (w + w' + 2)), mul_mul_mul_comm, mul_assoc, hpow, ← mul_assoc,
    mul_comm (2 ^ c.W), Nat.mul_div_mul_right _ _ (Nat.two_pow_pos c.W)]

theorem mulGen_congr (hn : 2 ≤ n) (hW : n ≤ c.W) (hW' : n ≤ c'.W) (es x y : Nat) :
    mulGen c n es x y = mulGen c' n es x y := by
  simp only [mulGen, significand_mul_significand hn hW, significand_mul_significand hn hW']
  generalize fracWidth (mag n x) n es + fracWidth (mag n y) n es + 2 = k
  generalize integerSignificand n es x * integerSignificand n es y = P
  have htop (d : Config) (hd : n ≤ d.W) : (rescale k d.W P).testBit (d.W - 1) = (rescale k 1 P).testBit 0 := by
    rw [testBit_rescale (by omega), show d.W - (d.W - 1) = 1 by omega]
  rw [htop c hW, htop c' hW']
  have hshift : (if (rescale k 1 P).testBit 0 = true then 0 else 1) ≤ 1 := by split <;> decide
  generalize (if (rescale k 1 P).testBit 0 = true then 0 else 1) = shift at *
  have hread (d : Config) (hd : n ≤ d.W) : rescale d.W (n - 3) (rescale k d.W P * 2 ^ (shift + 1) % 2 ^ d.W) =
      rescale k (n - 3 + (shift + 1)) P % 2 ^ (n - 3) := by
    rw [rescale_shiftLeft_mod (by omega), rescale_rescale (.inr (by omega))]
  exact packClipped_congr hW hW' es _ _ ((hread c hW).trans (hread c' hW').symm)

theorem mulPosit_congr (hn : 2 ≤ n) (hW : n ≤ c.W) (hW' : n ≤ c'.W) (es : Nat) (x y : Posit) :
    mulPosit c n es x y = mulPosit c' n es x y := by
  cases x with
  | nan => rfl
  | view x =>
    cases y with
    | nan => rfl
    | view y => simp only [mulPosit, mulView, mulGen_congr hn hW hW']

end Sys2Proof.Machine
end

section
/-! PACK gives back the magnitude of every view that denotes a number, from the record UNPACK reads (R100); so the
record determines the view up to its sign. -/

namespace Sys2Proof.Machine

open Sys2Proof.Safety

variable {c : Config} {n : Nat}

/-! ## The magnitude (R91) -/

theorem two_pow_eq_double (hn : 1 ≤ n) : (2 : Nat) ^ n = 2 * 2 ^ (n - 1) := by
  rw [← pow_succ', Nat.sub_add_cancel hn]

theorem signBit_eq_decide {v : Nat} (hn : 1 ≤ n) (hv : v < 2 ^ n) : signBit n v = decide (2 ^ (n - 1) ≤ v) := by
  rcases lt_or_ge v (2 ^ (n - 1)) with h | h
  · simp [signBit, Nat.testBit_lt_two_pow h, h]
  · have hv' : v < 2 ^ (n - 1 + 1) := by rwa [Nat.sub_add_cancel hn]
    simp [signBit, Nat.testBit_of_two_pow_le_and_two_pow_add_one_gt h hv', h]

theorem mag_eq {v : Nat} (hn : 1 ≤ n) (h : Denotes n v) : mag n v = if 2 ^ (n - 1) ≤ v then 2 ^ n - v else v := by
  obtain ⟨hv, h0, _⟩ := h
  simp only [mag, signBit_eq_decide hn hv, decide_eq_true_eq]
  rw [Nat.mod_eq_of_lt (by omega)]

theorem mag_pos {v : Nat} (hn : 1 ≤ n) (h : Denotes n v) : 0 < mag n v := by
  rw [mag_eq hn h]
  obtain ⟨hv, h0, _⟩ := h
  split <;> omega

theorem mag_lt {v : Nat} (hn : 1 ≤ n) (h : Denotes n v) : mag n v < 2 ^ (n - 1) := by
  rw [mag_eq hn h]
  have hdouble := two_pow_eq_double hn
  obtain ⟨hv, h0, hi⟩ := h
  split <;> omega

/-- Views of one magnitude and opposite signs are two's complements of each other. -/
theorem eq_negView_of_mag_eq {x y : Nat} (hn : 1 ≤ n) (hx : Denotes n x) (hy : Denotes n y)
    (hmag : mag n x = mag n y) (hsign : signBit n x ≠ signBit n y) : x = negView n y := by
  rw [mag_eq hn hx, mag_eq hn hy] at hmag
  rw [signBit_eq_decide hn hx.1, signBit_eq_decide hn hy.1, ne_eq, decide_eq_decide] at hsign
  obtain ⟨hxlt, hx0, _⟩ := hx
  obtain ⟨hylt, hy0, _⟩ := hy
  rw [negView, Nat.mod_eq_of_lt (by omega)]
  split at hmag <;> split at hmag <;> omega

/-! ## The regime run as a regime code (R70, R76, R96) -/

theorem regimeOf_nonneg_iff {p : Nat} (hn : 2 ≤ n) : 0 ≤ regimeOf p n ↔ runBit p n = true := by
  have hrun := runLen_pos p hn
  unfold regimeOf
  split
  · next hb => exact iff_of_true (by omega) hb
  · next hb => exact iff_of_false (by omega) hb

theorem regcodeLen_regimeOf {p : Nat} (hn : 2 ≤ n) : regcodeLen (regimeOf p n) = runLen p n + 1 := by
  have hrun := runLen_pos p hn
  unfold regcodeLen regimeOf
  split <;> split <;> omega

theorem regcodeWord_regimeOf {p : Nat} (hn : 2 ≤ n) :
    regcodeWord (regimeOf p n) = if runBit p n then 2 * (2 ^ runLen p n - 1) else 1 := by
  simp only [regcodeWord, regcodeLen_regimeOf hn, regimeOf_nonneg_iff hn]
  split <;> omega

/-- The bits of a magnitude above its exponent and fraction fields are the code of its regime. -/
theorem div_two_pow_remBits {p : Nat} (hn : 2 ≤ n) (hp : p < 2 ^ (n - 1)) (hm : runLen p n < n - 1) :
    p / 2 ^ remBits p n = regcodeWord (regimeOf p n) := by
  have hrem := remBits_eq p n
  have hend : p.testBit (remBits p n) = !runBit p n := by
    have h := testBit_at_runFrom p (runBit p n) (n - 1) hm
    rw [← runLen, show n - 1 - 1 - runLen p n = remBits p n by omega] at h
    exact Bool.eq_not.2 h
  have hrun (i : Nat) (hi : i < runLen p n) : p.testBit (i + 1 + remBits p n) = runBit p n := by
    have h := testBit_of_lt_runFrom p (runBit p n) (n - 1) (runLen p n - 1 - i) (by rw [← runLen]; omega)
    rwa [show n - 1 - 1 - (runLen p n - 1 - i) = i + 1 + remBits p n by omega] at h
  have habove (i : Nat) (hi : runLen p n ≤ i) : p.testBit (i + 1 + remBits p n) = false :=
    Nat.testBit_lt_two_pow (hp.trans_le (Nat.pow_le_pow_right (by decide) (by omega)))
  rw [regcodeWord_regimeOf hn]
  refine Nat.eq_of_testBit_eq fun i => ?_
  rw [Nat.testBit_div_two_pow]
  cases i with
  | zero =>
    rw [Nat.zero_add, hend]
    cases runBit p n <;> simp
  | succ i =>
    rcases lt_or_ge i (runLen p n) with hi | hi
    · rw [hrun i hi]
      cases runBit p n <;> simp [Nat.testBit_succ, Nat.testBit_two_pow_sub_one, hi]
    · rw [habove i hi]
      cases runBit p n <;> simp [Nat.testBit_succ, Nat.testBit_two_pow_sub_one, hi]

/-- A run that reaches the end of the pattern is the whole pattern. -/
theorem eq_of_runLen_eq {p : Nat} (hp : p < 2 ^ (n - 1)) (hm : runLen p n = n - 1) :
    p = if runBit p n then 2 ^ (n - 1) - 1 else 0 := by
  have hrun (i : Nat) (hi : i < n - 1) : p.testBit i = runBit p n := by
    have h := testBit_of_lt_runFrom p (runBit p n) (n - 1) (n - 1 - 1 - i) (by rw [← runLen, hm]; omega)
    rwa [show n - 1 - 1 - (n - 1 - 1 - i) = i by omega] at h
  refine Nat.eq_of_testBit_eq fun i => ?_
  rcases lt_or_ge i (n - 1) with hi | hi
  · rw [hrun i hi]
    cases runBit p n <;> simp [Nat.testBit_two_pow_sub_one, hi]
  · rw [Nat.testBit_lt_two_pow (hp.trans_le (Nat.pow_le_pow_right (by decide) hi))]
    cases runBit p n <;> simp [Nat.testBit_two_pow_sub_one, hi]

/-! ## PACK after UNPACK -/

/-- The exponent and fraction of an unpacked record, side by side, are the bits after the regime, left-justified. -/
theorem unpackView_exponent_fraction (hn : 2 ≤ n) (hW : n ≤ c.W) (es v : Nat) :
    (unpackView c n es v).exponent * 2 ^ c.W + (unpackView c n es v).fraction =
      mag n v % 2 ^ remBits (mag n v) n * 2 ^ (es + c.W - remBits (mag n v) n) := by
  have hw := fracWidth_le (mag n v) es hn
  have hsum := expWidth_add_fracWidth (mag n v) n es
  have hle := expWidth_le_es (mag n v) n es
  have hcases : fracWidth (mag n v) n es = 0 ∨ expWidth (mag n v) n es = es := by
    unfold fracWidth expWidth; omega
  simp only [unpackView]
  generalize mag n v % 2 ^ remBits (mag n v) n = rest
  generalize fracWidth (mag n v) n es = fw at *
  generalize expWidth (mag n v) n es = ew at *
  rcases hcases with rfl | rfl
  · rw [← hsum, show es + c.W - (ew + 0) = es - ew + c.W by omega, pow_add]
    simp [Nat.mod_one, mul_assoc]
  · have hpow : (2 : Nat) ^ c.W = 2 ^ fw * 2 ^ (c.W - fw) := by rw [← pow_add, Nat.add_sub_cancel' (by omega)]
    rw [← hsum, show ew + c.W - (ew + fw) = c.W - fw by omega, Nat.sub_self, pow_zero, mul_one, hpow, ← mul_assoc,
      ← add_mul, Nat.div_add_mod']

theorem packBody_unpackView {v : Nat} (hn : 2 ≤ n) (hW : n ≤ c.W) (es : Nat) (h : Denotes n v) :
    packBody c n es (unpackView c n es v) = mag n v := by
  have hlt := mag_lt (by omega) h
  have hpos := mag_pos (by omega) h
  have hfields := unpackView_exponent_fraction hn hW es v
  have hregime := unpackView_regime c n es v
  generalize mag n v = p at *
  have hrem := remBits_eq p n
  have hrun := runLen_pos p hn
  rcases (runLen_le p n).lt_or_eq with hm | hm
  · have hlo : 1 - (n : Int) < regimeOf p n := by unfold regimeOf; split <;> omega
    have hhi : regimeOf p n < (n : Int) - 2 := by unfold regimeOf; split <;> omega
    have hpow : (2 : Nat) ^ (es + c.W) = 2 ^ remBits p n * 2 ^ (es + c.W - remBits p n) := by
      rw [← pow_add, Nat.add_sub_cancel' (by omega)]
    have hshift : runLen p n + 1 + es + c.W - (n - 1) = es + c.W - remBits p n := by omega
    rw [packBody, hregime, hfields, if_neg (by omega), if_neg (by omega), regcodeLen_regimeOf hn, hshift,
      ← div_two_pow_remBits hn hlt hm, hpow, ← mul_assoc, ← add_mul, Nat.div_add_mod',
      Nat.mul_div_cancel _ (Nat.two_pow_pos _)]
  · have hfull := eq_of_runLen_eq hlt hm
    have hb : runBit p n = true := by
      by_contra hb
      rw [if_neg hb] at hfull
      omega
    rw [if_pos hb] at hfull
    rw [packBody, hregime, if_pos (by rw [regimeOf, if_pos hb]; omega), ← hfull]

/-- A combined exponent determines its regime and its `es`-bit exponent (R28). -/
theorem regime_exponent_of_combined_eq {es : Nat} {r r' : Record} (hr : r.exponent < 2 ^ es) (hr' : r'.exponent < 2 ^ es)
    (h : combined es r = combined es r') : r.regime = r'.regime ∧ r.exponent = r'.exponent := by
  have hpos : (0 : Int) < ((2 ^ es : Nat) : Int) := by exact_mod_cast Nat.two_pow_pos es
  have hdiv (q : Record) (hq : q.exponent < 2 ^ es) : combined es q / ((2 ^ es : Nat) : Int) = q.regime := by
    rw [combined, Int.add_comm, Int.add_mul_ediv_left _ _ hpos.ne', Int.ediv_eq_zero_of_lt (by omega) (by omega),
      Int.zero_add]
  have hregime : r.regime = r'.regime := by rw [← hdiv r hr, ← hdiv r' hr', h]
  refine ⟨hregime, ?_⟩
  unfold combined at h
  rw [hregime] at h
  omega

end Sys2Proof.Machine
end

section
/-! ADD does not depend on the storage width. At a wider width ADDGEN's exact sum `t` is the same number with more zero
bits below it, and ROUND sees the same number (R142). This needs `t ≠ 0`, which holds because the two magnitudes
cancel only for `x = -y`, a fast path of R141. -/

namespace Sys2Proof.Machine

open Sys2Proof.Safety

variable {c c' : Config} {n : Nat}

/-! ## The exact sum is not zero -/

theorem bitlen_eq_succ_iff (x k : Nat) : bitlen x = k + 1 ↔ 2 ^ k ≤ x ∧ x < 2 ^ (k + 1) := by
  have h := bitlen_le_iff x k
  have h' := bitlen_le_iff x (k + 1)
  omega

theorem bitlen_mul_two_pow {t : Nat} (ht : t ≠ 0) (d : Nat) : bitlen (t * 2 ^ d) = bitlen t + d := by
  refine eq_of_forall_ge_iff fun k => ?_
  rw [bitlen_le_iff]
  rcases le_or_gt d k with h | h
  · rw [← Nat.sub_add_cancel h, pow_add, Nat.mul_lt_mul_right (Nat.two_pow_pos d), ← bitlen_le_iff]
    omega
  · have hpow : 2 ^ k < 2 ^ d := Nat.pow_lt_pow_right (by decide) h
    have hle := Nat.le_mul_of_pos_left (2 ^ d) (Nat.pos_of_ne_zero ht)
    omega

/-- Normalised significands with their exponents: equal products have equal parts. -/
theorem eq_of_mul_two_pow_eq {W a b i j : Nat} (ha : 2 ^ W ≤ a ∧ a < 2 ^ (W + 1)) (hb : 2 ^ W ≤ b ∧ b < 2 ^ (W + 1))
    (h : a * 2 ^ i = b * 2 ^ j) : i = j ∧ a = b := by
  have hpos := Nat.two_pow_pos W
  have hlen := congrArg bitlen h
  rw [bitlen_mul_two_pow (by omega), bitlen_mul_two_pow (by omega), (bitlen_eq_succ_iff a W).2 ha,
    (bitlen_eq_succ_iff b W).2 hb] at hlen
  obtain rfl : i = j := by omega
  exact ⟨rfl, Nat.eq_of_mul_eq_mul_right (Nat.two_pow_pos i) h⟩

/-- `alignedTerm` without its sign. -/
def alignedMagnitude (c : Config) (es : Nat) (k : Int) (r : Record) : Nat :=
  (2 ^ c.W + r.fraction) * 2 ^ (combined es r - k).toNat

theorem alignedTerm_eq (c : Config) (es : Nat) (k : Int) (r : Record) :
    alignedTerm c es k r = if r.sign then -(alignedMagnitude c es k r : Int) else (alignedMagnitude c es k r : Int) :=
  rfl

theorem alignedMagnitude_pos (c : Config) (es : Nat) (k : Int) (r : Record) : 0 < alignedMagnitude c es k r := by
  unfold alignedMagnitude
  positivity

theorem opposite_of_alignedTerm_add_eq_zero {es : Nat} {k : Int} {r r' : Record}
    (h : alignedTerm c es k r + alignedTerm c es k r' = 0) :
    alignedMagnitude c es k r = alignedMagnitude c es k r' ∧ r.sign ≠ r'.sign := by
  have hr := alignedMagnitude_pos c es k r
  have hr' := alignedMagnitude_pos c es k r'
  rw [alignedTerm_eq, alignedTerm_eq] at h
  cases hs : r.sign <;> cases hs' : r'.sign <;> simp only [hs, hs', if_true, Bool.false_eq_true, if_false] at h
  · omega
  · exact ⟨by omega, by decide⟩
  · exact ⟨by omega, by decide⟩
  · omega

theorem mag_eq_of_alignedMagnitude_eq {x y es : Nat} (hn : 2 ≤ n) (hW : n ≤ c.W) (hx : Denotes n x) (hy : Denotes n y)
    {k : Int} (hkx : k ≤ combined es (unpackView c n es x)) (hky : k ≤ combined es (unpackView c n es y))
    (h : alignedMagnitude c es k (unpackView c n es x) = alignedMagnitude c es k (unpackView c n es y)) :
    mag n x = mag n y := by
  have hfx := unpackView_fraction_lt hn hW es x
  have hfy := unpackView_fraction_lt hn hW es y
  obtain ⟨hexp, hsig⟩ := eq_of_mul_two_pow_eq (W := c.W) (by rw [pow_succ]; omega) (by rw [pow_succ]; omega) h
  obtain ⟨hregime, hexponent⟩ := regime_exponent_of_combined_eq (unpackView_exponent_lt c n es x)
    (unpackView_exponent_lt c n es y) (by omega)
  rw [← packBody_unpackView hn hW es hx, ← packBody_unpackView hn hW es hy]
  simp only [packBody, hregime, hexponent, Nat.add_left_cancel hsig]

theorem alignedTerm_add_ne_zero {x y es : Nat} (hn : 2 ≤ n) (hW : n ≤ c.W) (hx : Denotes n x) (hy : Denotes n y)
    (hxy : x ≠ negView n y) {k : Int} (hkx : k ≤ combined es (unpackView c n es x))
    (hky : k ≤ combined es (unpackView c n es y)) :
    alignedTerm c es k (unpackView c n es x) + alignedTerm c es k (unpackView c n es y) ≠ 0 := by
  intro h
  obtain ⟨hmag, hsign⟩ := opposite_of_alignedTerm_add_eq_zero h
  exact hxy (eq_negView_of_mag_eq (by omega) hx hy (mag_eq_of_alignedMagnitude_eq hn hW hx hy hkx hky hmag) hsign)

/-! ## Rounding at a wider storage width -/

theorem alignedTerm_widen (h : c.W ≤ c'.W) (es : Nat) (k : Int) (r : Record) :
    alignedTerm c' es k { r with fraction := rescale c.W c'.W r.fraction } =
      alignedTerm c es k r * (2 ^ (c'.W - c.W) : Nat) := by
  have hpow : (2 : Nat) ^ c'.W = 2 ^ c.W * 2 ^ (c'.W - c.W) := by rw [← pow_add, Nat.add_sub_cancel' h]
  simp only [alignedTerm, combined, rescale_of_le h, hpow]
  split <;> push_cast <;> ring

theorem roundShift_mul_two_pow_self (tie : AddTie) (q sh : Nat) : roundShift tie (q * 2 ^ sh) sh = q := by
  simp [roundShift, Nat.mul_div_cancel q (Nat.two_pow_pos sh)]

theorem roundShift_mul_two_pow (tie : AddTie) (t d : Nat) {sh : Nat} (hsh : 1 ≤ sh) :
    roundShift tie (t * 2 ^ d) (sh + d) = roundShift tie t sh := by
  have hpos := Nat.two_pow_pos d
  have hhalf : (2 : Nat) ^ (sh + d - 1) = 2 ^ (sh - 1) * 2 ^ d := by rw [← pow_add]; congr 1; omega
  simp only [roundShift, pow_add 2 sh d, Nat.mul_div_mul_right _ _ hpos, Nat.mul_mod_mul_right, hhalf,
    Nat.mul_lt_mul_right hpos]

/-- The significand of an exact sum `t`, brought to `fw` fraction bits: `q` of R142, before the carry. -/
def roundedSignificand (tie : AddTie) (t fw : Nat) : Nat :=
  if bitlen t - 1 ≤ fw then t * 2 ^ (fw - (bitlen t - 1)) else roundShift tie t (bitlen t - 1 - fw)

theorem roundedSignificand_mul_two_pow (tie : AddTie) {t : Nat} (ht : t ≠ 0) (d fw : Nat) :
    roundedSignificand tie (t * 2 ^ d) fw = roundedSignificand tie t fw := by
  have hlen : 1 ≤ bitlen t := by have := bitlen_le_iff t 0; omega
  simp only [roundedSignificand, bitlen_mul_two_pow ht]
  rcases le_or_gt (bitlen t - 1) fw with h | h
  · rw [if_pos h]
    split
    · rw [mul_assoc, ← pow_add]; congr 2; omega
    · obtain ⟨sh, rfl⟩ : ∃ sh, d = fw - (bitlen t - 1) + sh := ⟨d - (fw - (bitlen t - 1)), by omega⟩
      rw [show bitlen t + (fw - (bitlen t - 1) + sh) - 1 - fw = sh by omega, pow_add, ← mul_assoc,
        roundShift_mul_two_pow_self]
  · rw [if_neg (by omega), if_neg (by omega), show bitlen t + d - 1 - fw = bitlen t - 1 - fw + d by omega,
      roundShift_mul_two_pow tie t d (by omega)]

/-- ADDGEN's end by its three outcomes: out of range, carried to 2.0, or the rounded significand. -/
theorem roundPack_eq (c : Config) (n es : Nat) (sign : Bool) (t : Nat) (k : Int) :
    roundPack c n es sign t k =
      let e : Int := (bitlen t : Int) - 1 + k - (c.W : Int)
      let fw := fwof (regimePart e es) n es
      let q := roundedSignificand c.addTie t fw
      if cmax n es < e ∨ e < cmin n es then packClipped c n es sign e 0
      else if q = 2 ^ (fw + 1) then packClipped c n es sign (e + 1) 0
      else packClipped c n es sign e ((q - 2 ^ fw) * 2 ^ (c.W - fw)) := by
  have hq (fw : Nat) : (if bitlen t - 1 ≤ fw then t * 2 ^ (fw - (bitlen t - 1))
      else roundShift c.addTie t (bitlen t - 1 - fw)) = roundedSignificand c.addTie t fw := rfl
  simp only [roundPack, hq, beq_iff_eq]
  split
  · rfl
  · split
    · rw [Nat.sub_self, Nat.zero_mul]
    · rfl

theorem roundPack_widen (hW : n ≤ c.W) (h : c.W ≤ c'.W) (htie : c.addTie = c'.addTie) (es : Nat) (sign : Bool)
    {t : Nat} (ht : t ≠ 0) (k : Int) :
    roundPack c n es sign t k = roundPack c' n es sign (t * 2 ^ (c'.W - c.W)) k := by
  have he : (bitlen (t * 2 ^ (c'.W - c.W)) : Int) - 1 + k - (c'.W : Int) = (bitlen t : Int) - 1 + k - (c.W : Int) := by
    rw [bitlen_mul_two_pow ht]; omega
  have hzero (e : Int) : packClipped c n es sign e 0 = packClipped c' n es sign e 0 :=
    packClipped_congr hW (hW.trans h) es sign e (by simp)
  have hfrac (e : Int) (fw f : Nat) (hfw : fw ≤ n) :
      packClipped c n es sign e (f * 2 ^ (c.W - fw)) = packClipped c' n es sign e (f * 2 ^ (c'.W - fw)) := by
    refine packClipped_congr hW (hW.trans h) es sign e ?_
    rw [← rescale_of_le (by omega), ← rescale_of_le (by omega), rescale_rescale (.inl (by omega)),
      rescale_rescale (.inl (by omega))]
  simp only [roundPack_eq, he, hzero, roundedSignificand_mul_two_pow _ ht, htie]
  rw [hfrac _ _ _ (by unfold fwof; omega)]

/-! ## ADD -/

theorem addGen_widen {x y : Nat} (hn : 2 ≤ n) (hW : n ≤ c.W) (h : c.W ≤ c'.W) (htie : c.addTie = c'.addTie) (es : Nat)
    (hx : Denotes n x) (hy : Denotes n y) (hxy : x ≠ negView n y) : addGen c n es x y = addGen c' n es x y := by
  have hne := alignedTerm_add_ne_zero (es := es) hn hW hx hy hxy (Int.min_le_left _ _) (Int.min_le_right _ _)
  have hterm (k : Int) (v : Nat) : alignedTerm c' es k (unpackView c' n es v) =
      alignedTerm c es k (unpackView c n es v) * (2 ^ (c'.W - c.W) : Nat) := by
    rw [unpackView_rescale hn hW (hW.trans h), alignedTerm_widen h]
  simp only [addGen, hterm, combined_unpackView_congr c' c, ← add_mul]
  generalize alignedTerm c es _ _ + alignedTerm c es _ _ = t at *
  have hpos : (0 : Int) < ((2 ^ (c'.W - c.W) : Nat) : Int) := by exact_mod_cast Nat.two_pow_pos _
  have hsign : t * ((2 ^ (c'.W - c.W) : Nat) : Int) < 0 ↔ t < 0 := by rw [mul_neg_iff]; omega
  rw [roundPack_widen hW h htie es _ (Int.natAbs_ne_zero.2 hne), Int.natAbs_mul, Int.natAbs_natCast,
    decide_eq_decide.2 hsign]

theorem addView_congr {x y : Nat} (hn : 2 ≤ n) (hW : n ≤ c.W) (hW' : n ≤ c'.W) (htie : c.addTie = c'.addTie) (es : Nat)
    (hx : x < 2 ^ n) (hy : y < 2 ^ n) : addView c n es x y = addView c' n es x y := by
  unfold addView
  split_ifs with hx0 hy0 _ hinf hneg
  iterate 5 · rfl
  have hdx : Denotes n x := ⟨hx, hx0, fun h => hinf (.inl h)⟩
  have hdy : Denotes n y := ⟨hy, hy0, fun h => hinf (.inr h)⟩
  rcases le_total c.W c'.W with h | h
  · rw [addGen_widen hn hW h htie es hdx hdy hneg]
  · rw [addGen_widen hn hW' h htie.symm es hdx hdy hneg]

theorem addPosit_congr {x y : Posit} (hn : 2 ≤ n) (hW : n ≤ c.W) (hW' : n ≤ c'.W) (htie : c.addTie = c'.addTie)
    (es : Nat) (hx : OnViews n x) (hy : OnViews n y) : addPosit c n es x y = addPosit c' n es x y := by
  cases x with
  | nan => rfl
  | view x =>
    cases y with
    | nan => rfl
    | view y => exact addView_congr hn hW hW' htie es hx hy

theorem onViews_negPosit (n : Nat) (x : Posit) : OnViews n (negPosit n x) := by
  cases x with
  | nan => trivial
  | view v => exact Nat.mod_lt _ (Nat.two_pow_pos n)

end Sys2Proof.Machine
end

section
/-! The obligations on the scope of the model (00_scope.md). -/

namespace Sys2Proof

open Sys2Proof.Machine Sys2Proof.Safety

/-- Settles O54, by what PACK reads of a fraction: the operations' fractions at two widths agree in those bits. -/
theorem viewsDoNotDependOnStorageWidth : Obligations.ViewsDoNotDependOnStorageWidth := by
  intro c c' n es x y raw hn hW hW' htie hx hy
  exact ⟨mulPosit_congr hn hW hW' es x y, mulPosit_congr hn hW hW' es x (recPosit n y),
    addPosit_congr hn hW hW' htie es hx hy, addPosit_congr hn hW hW' htie es hx (onViews_negPosit n y),
    toIeee_congr hn hW hW' single es x, toIeee_congr hn hW hW' double es x,
    fromIeee_congr hW hW' single es raw, fromIeee_congr hW hW' double es raw,
    fun v _ => unpackView_rescale hn hW hW' es v,
    fun r _ _ => packView_congr hW hW' es r (rescale_rescale (.inr (by omega)) _).symm⟩

theorem portsFit_iff (s : State) :
    portsFit s = true ↔ s.cfg.legal = true ∧ (s.request.all fun q => q.wellFormed s.cfg) = true ∧
      (s.response.all fun r => responseFits s.cfg r) = true := by
  unfold portsFit
  rw [Bool.and_eq_true, Bool.and_eq_true, and_assoc]

/-- With both ports empty the invariant is the legality of the parameters. -/
theorem portsFit_resetOf (c : Config) : portsFit (State.resetOf c) = c.legal := by
  simp [portsFit]

/-- Settles O11: reset empties both ports and leaves the parameters as they are. -/
theorem resetMeetsPortsFit : Obligations.ResetMeetsPortsFit := by
  refine ⟨(portsFit_resetOf Config.default).trans (by decide), fun s hs => ?_⟩
  obtain ⟨hlegal, _, _⟩ := (portsFit_iff s).1 hs
  exact (portsFit_resetOf s.cfg).trans hlegal

end Sys2Proof
end

section
/-! An answer depends on the configuration parameters and on what the request decodes to, and on nothing else of the
state (R20); so neither an earlier response nor the bits of a NaN operand (R25) can show in it. -/

namespace Sys2Proof.Machine

/-- The response of the checks does not depend on the state they answer in. -/
theorem answer_congr {a b : Bool} {p : Reply} {s : State} {r : Response}
    (h : answer a b p s = .next (s.answered r)) (s' : State) : answer a b p s' = .next (s'.answered r) := by
  rw [answer_eq, Host.Outcome.next.injEq] at h
  rw [answer_eq, Option.some.inj (congrArg State.response h)]

/-- Two instances with the same parameters give an instruction the same response. -/
theorem exec_congr {i : Instr} {s s' : State} {r : Response} (hcfg : s.cfg = s'.cfg)
    (h : exec i s = .next (s.answered r)) : exec i s' = .next (s'.answered r) := by
  obtain ⟨c, q, rsp⟩ := s
  obtain ⟨c', q', rsp'⟩ := s'
  obtain rfl : c = c' := hcfg
  cases i <;> exact answer_congr h _

/-- Two instances with the same parameters answer alike two requests that decode alike. -/
theorem step_of_decode_eq {s s' : State} {q q' : Request} (hcfg : s.cfg = s'.cfg) (hq : s.request = some q)
    (hq' : s'.request = some q') (hd : decode s'.cfg q' = decode s.cfg q) :
    ∃ rsp, step s = .next (s.answered rsp) ∧ step s' = .next (s'.answered rsp) := by
  cases hi : decode s.cfg q with
  | instr i =>
    obtain ⟨r, hr⟩ := exec_answers i s
    exact ⟨r, (step_of_decode hq hi).trans hr, (step_of_decode hq' (hd.trans hi)).trans (exec_congr hcfg hr)⟩
  | reservedOp op => exact ⟨_, step_of_reserved hq hi, step_of_reserved hq' (hd.trans hi)⟩

theorem valueOfPort_withBits {p : ValuePort} (h : p.nan = true) (k : Nat) :
    valueOfPort { p with bits := k } = valueOfPort p := by
  simp [valueOfPort, h]

/-- Requests that differ in the bits of NaN operands alone decode alike. -/
theorem decode_withPorts (c : Config) (q : Request) {a b : ValuePort} (ha : valueOfPort a = valueOfPort q.a)
    (hb : valueOfPort b = valueOfPort q.b) : decode c { q with a := a, b := b } = decode c q := by
  simp only [decode, ha, hb]

/-- A step does not distinguish requests that decode alike. -/
theorem step_withRequest_congr (s : State) {q q' : Request} (hd : decode s.cfg q' = decode s.cfg q) :
    step { s with request := some q' } = step { s with request := some q } := by
  obtain ⟨rsp, h, h'⟩ := step_of_decode_eq (s := { s with request := some q }) (s' := { s with request := some q' })
    rfl rfl rfl hd
  exact h'.trans h.symm

end Sys2Proof.Machine
end

section
/-! The string `S` of rule R95 as the bits of one number; of UNPACK's record it holds the magnitude pattern, followed by
zeros (R27, R96). -/

namespace Sys2Proof.Machine

open Sys2Proof.Safety

variable {c : Config} {n : Nat}

/-! ## Bit strings -/

theorem bitString_congr {k v w : Nat} (h : ∀ i < k, v.testBit i = w.testBit i) : bitString k v = bitString k w := by
  induction k with
  | zero => rfl
  | succ k ih => rw [bitString, bitString, h k (by omega), ih fun i hi => h i (by omega)]

theorem bitString_add (j k v : Nat) : bitString (j + k) v = bitString j (v / 2 ^ k) ++ bitString k v := by
  induction j with
  | zero => simp [bitString]
  | succ j ih => rw [Nat.succ_add, bitString, bitString, ih, Nat.testBit_div_two_pow, List.cons_append]

/-- Two strings in a row are the string of one number. -/
theorem bitString_append {k v : Nat} (j u : Nat) (hv : v < 2 ^ k) :
    bitString j u ++ bitString k v = bitString (j + k) (u * 2 ^ k + v) := by
  have hlow : bitString k (u * 2 ^ k + v) = bitString k v :=
    bitString_congr fun i hi => by rw [mul_comm, Nat.testBit_two_pow_mul_add u hv, if_pos hi]
  rw [bitString_add, hlow, mul_comm, Nat.mul_add_div (Nat.two_pow_pos k), Nat.div_eq_of_lt hv, Nat.add_zero]

theorem bitString_zero (k : Nat) : bitString k 0 = List.replicate k false := by
  induction k with
  | zero => rfl
  | succ k ih => rw [bitString, ih, Nat.zero_testBit, List.replicate_succ]

theorem bitString_two_pow_sub_one {j k : Nat} (h : k ≤ j) : bitString k (2 ^ j - 1) = List.replicate k true := by
  induction k with
  | zero => rfl
  | succ k ih =>
    rw [bitString, ih (by omega), Nat.testBit_two_pow_sub_one, decide_eq_true (by omega), List.replicate_succ]

/-! ## The string `S` -/

/-- The regime code is the word of rule R97, bit by bit. -/
theorem regcode_eq_bitString (r : Int) : regcode r = bitString (regcodeLen r) (regcodeWord r) := by
  unfold regcode regcodeLen regcodeWord regcodeLen
  split
  · have hword : 2 ^ (r.toNat + 2) - 2 = (2 ^ (r.toNat + 1) - 1) * 2 ^ 1 + 0 := by rw [pow_succ 2 (r.toNat + 1)]; omega
    rw [hword, ← bitString_append (k := 1) (r.toNat + 1) _ (by decide), bitString_two_pow_sub_one le_rfl]
    rfl
  · have hsplit : bitString ((-r).toNat + 1) 1 = bitString (-r).toNat 0 ++ [true] := bitString_add _ 1 1
    rw [hsplit, bitString_zero]

/-- The number whose bits are the string `S`: regime code, exponent and fraction side by side (R95, R97). -/
def packWord (c : Config) (es : Nat) (r : Record) : Nat :=
  regcodeWord r.regime * 2 ^ (es + c.W) + (r.exponent * 2 ^ c.W + r.fraction)

theorem exponent_fraction_lt {es : Nat} {r : Record} (he : r.exponent < 2 ^ es) (hf : r.fraction < 2 ^ c.W) :
    r.exponent * 2 ^ c.W + r.fraction < 2 ^ (es + c.W) := by
  calc r.exponent * 2 ^ c.W + r.fraction
      < (r.exponent + 1) * 2 ^ c.W := by rw [add_mul]; omega
    _ ≤ 2 ^ es * 2 ^ c.W := Nat.mul_le_mul_right _ he
    _ = 2 ^ (es + c.W) := (pow_add 2 es c.W).symm

theorem packString_eq_bitString {es : Nat} {r : Record} (he : r.exponent < 2 ^ es) (hf : r.fraction < 2 ^ c.W) :
    packString c es r = bitString (regcodeLen r.regime + (es + c.W)) (packWord c es r) := by
  rw [packString, List.append_assoc, bitString_append es _ hf, regcode_eq_bitString,
    bitString_append _ _ (exponent_fraction_lt he hf), packWord]

/-! ## The string of an unpacked record -/

/-- A regime run that reaches the end is the run of ones: a magnitude is not 0. -/
theorem runBit_of_runLen_eq {p : Nat} (hpos : 0 < p) (hp : p < 2 ^ (n - 1)) (hm : runLen p n = n - 1) :
    runBit p n = true := by
  by_contra hb
  have hfull := eq_of_runLen_eq hp hm
  rw [if_neg hb] at hfull
  omega

/-- The number of the string of an unpacked record is the magnitude pattern, left-justified. -/
theorem packWord_unpackView {v : Nat} (hn : 2 ≤ n) (hW : n ≤ c.W) (es : Nat) (h : Denotes n v) :
    packWord c es (unpackView c n es v) = mag n v * 2 ^ (runLen (mag n v) n + 1 + (es + c.W) - (n - 1)) := by
  have hpos := mag_pos (by omega) h
  have hlt := mag_lt (by omega) h
  rw [packWord, unpackView_exponent_fraction hn hW, unpackView_regime]
  generalize mag n v = p at *
  have hrem := remBits_eq p n
  rcases (runLen_le p n).lt_or_eq with hm | hm
  · have hpow : (2 : Nat) ^ (es + c.W) = 2 ^ remBits p n * 2 ^ (es + c.W - remBits p n) := by
      rw [← pow_add, Nat.add_sub_cancel' (by omega)]
    rw [show runLen p n + 1 + (es + c.W) - (n - 1) = es + c.W - remBits p n by omega, ← div_two_pow_remBits hn hlt hm,
      hpow, ← mul_assoc, ← add_mul, Nat.div_add_mod']
  · have hb := runBit_of_runLen_eq hpos hlt hm
    have hfull := eq_of_runLen_eq hlt hm
    rw [if_pos hb] at hfull
    rw [regcodeWord_regimeOf hn, if_pos hb, hm, ← hfull, show remBits p n = 0 by omega, pow_zero, Nat.mod_one,
      Nat.zero_mul, Nat.add_zero, mul_comm 2 p, mul_assoc, ← pow_succ']
    congr 2
    omega

/-- The string of an unpacked record: the magnitude pattern after its sign, then zeros. -/
theorem packString_unpackView {v : Nat} (hn : 2 ≤ n) (hW : n ≤ c.W) (es : Nat) (h : Denotes n v) :
    packString c es (unpackView c n es v) =
      bitString (n - 1) (mag n v) ++ List.replicate (runLen (mag n v) n + 1 + (es + c.W) - (n - 1)) false := by
  have hlen : runLen (mag n v) n + 1 + (es + c.W) =
      n - 1 + (runLen (mag n v) n + 1 + (es + c.W) - (n - 1)) := by omega
  rw [packString_eq_bitString (unpackView_exponent_lt c n es v) (unpackView_fraction_lt hn hW es v),
    packWord_unpackView hn hW es h, unpackView_regime, regcodeLen_regimeOf hn, ← bitString_zero,
    bitString_append _ _ (Nat.two_pow_pos _), ← hlen]
  rfl

/-! ## The ranges of an unpacked record -/

theorem regimeOf_bounds (p : Nat) (hn : 2 ≤ n) : 1 - (n : Int) ≤ regimeOf p n ∧ regimeOf p n ≤ (n : Int) - 2 := by
  have hle := runLen_le p n
  unfold regimeOf
  split <;> omega

/-- A legal configuration's regime port is wide enough for every unpacked regime (R60). -/
theorem regimeOfWord_wordOfRegime_regimeOf (hlegal : c.legal = true) (p : Nat) (hn : 2 ≤ n) (hW : n ≤ c.W) :
    regimeOfWord c.RW (wordOfRegime c.RW (regimeOf p n)) = regimeOf p n := by
  obtain ⟨hlo, hhi⟩ := regimeOf_bounds p hn
  have hRW : c.W < 2 ^ (c.RW - 1) := by
    simp only [Config.legal, Bool.and_eq_true, decide_eq_true_eq] at hlegal
    omega
  have hpos : c.RW ≠ 0 := by
    intro h
    rw [h, Nat.zero_sub, pow_zero] at hRW
    omega
  exact regimeOfWord_wordOfRegime (Nat.pos_of_ne_zero hpos) (by omega) (by omega)

/-- The three low bits of an unpacked fraction are zero: its field is at most `n - 3` bits wide (R93). -/
theorem unpackView_fraction_mod_eight (hn : 2 ≤ n) (hW : n ≤ c.W) (es v : Nat) :
    (unpackView c n es v).fraction % 8 = 0 := by
  have hw := fracWidth_le (mag n v) es hn
  rw [unpackView_fraction hn hW, rescale_of_le (by omega)]
  rcases Nat.lt_or_ge n 3 with h | h
  · have hlt := storedFraction_lt n es v
    rw [show fracWidth (mag n v) n es = 0 by omega, pow_zero] at hlt
    rw [Nat.lt_one_iff.1 hlt, Nat.zero_mul]
  · exact Nat.mod_eq_zero_of_dvd (Dvd.dvd.mul_left (pow_dvd_pow 2 (show 3 ≤ _ by omega)) _)

theorem exec_unpack_packed {f : Fmt} {s : State} (h : FmtLegal s.cfg f) (v : Nat) :
    exec (.unpack f (packed s.cfg f.nbits v)) s =
      .next (s.answered (.ok (.ofRecord (unpackView s.cfg f.nbits f.es v)))) := by
  simp [exec, execUnpack, packed, (paramsLegal_iff s.cfg f).2 h]

end Sys2Proof.Machine
end

section
/-! Every value result is written from a NaN or an `n`-bit view: PACK stays below the sign bit, and the fractions that
MUL, ADD and the IEEE conversions pack are `W`-bit words. -/

namespace Sys2Proof.Machine

open Sys2Proof.Safety

variable {c : Config} {n : Nat}

/-! ## Views that are always in range -/

theorem infView_lt (hn : 2 ≤ n) : infView n < 2 ^ n := Nat.pow_lt_pow_right (by decide) (by omega)

theorem oneView_lt (hn : 2 ≤ n) : oneView n < 2 ^ n := Nat.pow_lt_pow_right (by decide) (by omega)

theorem moneView_lt (n : Nat) : moneView n < 2 ^ n := Nat.sub_lt (Nat.two_pow_pos n) (Nat.two_pow_pos (n - 2))

theorem negView_lt (n x : Nat) : negView n x < 2 ^ n := Nat.mod_lt _ (Nat.two_pow_pos n)

theorem recView_lt (hn : 2 ≤ n) (x : Nat) : recView n x < 2 ^ n := by
  have hhalf : (2 : Nat) ^ (n - 1) < 2 ^ n := infView_lt hn
  have hflag := flagWord_lt (signBit n x)
  unfold recView
  split_ifs
  · exact hhalf
  · exact Nat.two_pow_pos n
  · refine Nat.or_lt_two_pow ?_ ((Nat.mod_lt _ (Nat.two_pow_pos _)).trans hhalf)
    rw [two_pow_eq_double (show 1 ≤ n by omega)]
    exact Nat.mul_lt_mul_of_pos_right hflag (Nat.two_pow_pos _)

theorem onViews_recPosit (hn : 2 ≤ n) (x : Posit) : OnViews n (recPosit n x) := by
  cases x with
  | nan => trivial
  | view v => exact recView_lt hn v

/-! ## PACK -/

theorem regcodeWord_lt (r : Int) : regcodeWord r < 2 ^ regcodeLen r := by
  have hlen : regcodeLen r ≠ 0 := by unfold regcodeLen; split <;> omega
  have hpos := Nat.one_lt_two_pow hlen
  unfold regcodeWord
  split <;> omega

theorem packWord_lt {es : Nat} {r : Record} (he : r.exponent < 2 ^ es) (hf : r.fraction < 2 ^ c.W) :
    packWord c es r < 2 ^ (regcodeLen r.regime + (es + c.W)) := by
  calc packWord c es r
      < (regcodeWord r.regime + 1) * 2 ^ (es + c.W) := by
        rw [add_mul, Nat.one_mul]; exact Nat.add_lt_add_left (exponent_fraction_lt he hf) _
    _ ≤ 2 ^ regcodeLen r.regime * 2 ^ (es + c.W) := Nat.mul_le_mul_right _ (regcodeWord_lt r.regime)
    _ = 2 ^ (regcodeLen r.regime + (es + c.W)) := (pow_add 2 _ _).symm

theorem packBody_lt (hW : n ≤ c.W) {es : Nat} {r : Record} (he : r.exponent < 2 ^ es) (hf : r.fraction < 2 ^ c.W) :
    packBody c n es r < 2 ^ (n - 1) := by
  have hpos := Nat.two_pow_pos (n - 1)
  unfold packBody
  split_ifs
  · omega
  · exact hpos
  · refine Nat.div_lt_of_lt_mul ?_
    rw [← pow_add, show regcodeLen r.regime + es + c.W - (n - 1) + (n - 1) = regcodeLen r.regime + (es + c.W) by omega]
    exact packWord_lt he hf

theorem packView_lt (hn : 1 ≤ n) (hW : n ≤ c.W) {es : Nat} {r : Record} (he : r.exponent < 2 ^ es)
    (hf : r.fraction < 2 ^ c.W) : packView c n es r < 2 ^ n := by
  have hhalf : (2 : Nat) ^ (n - 1) < 2 ^ n := Nat.pow_lt_pow_right (by decide) (by omega)
  unfold packView packSign
  split
  · exact Nat.or_lt_two_pow (Nat.mod_lt _ (Nat.two_pow_pos n)) hhalf
  · exact (packBody_lt hW he hf).trans hhalf

theorem exponentPart_lt (e : Int) (es : Nat) : exponentPart e es < 2 ^ es := by
  have h := Int.emod_lt_of_pos e (b := ((2 ^ es : Nat) : Int)) (by exact_mod_cast Nat.two_pow_pos es)
  rw [← exponentPart_eq] at h
  exact_mod_cast h

theorem packClipped_lt (hn : 1 ≤ n) (hW : n ≤ c.W) (es : Nat) (sign : Bool) (e : Int) {f : Nat} (hf : f < 2 ^ c.W) :
    packClipped c n es sign e f < 2 ^ n :=
  packView_lt hn hW (exponentPart_lt _ es) hf

/-! ## The IEEE conversions -/

theorem rescale_lt {k k' x : Nat} (h : x < 2 ^ k) : rescale k k' x < 2 ^ k' := by
  rw [rescale_eq]
  exact Nat.div_lt_of_lt_mul (Nat.mul_lt_mul_of_pos_right h (Nat.two_pow_pos k'))

theorem onViews_fromIeee (hn : 2 ≤ n) (hW : n ≤ c.W) (w : IeeeFmt) (es raw : Nat) :
    OnViews n (fromIeee c w n es raw) := by
  unfold fromIeee
  split_ifs
  · exact Nat.two_pow_pos n
  · exact infView_lt hn
  · trivial
  · exact packClipped_lt (by omega) hW es _ _ (rescale_lt (slice_lt raw 0 w.fw))

/-! ## MUL and DIV -/

theorem mulGen_lt (hn : 1 ≤ n) (hW : n ≤ c.W) (es x y : Nat) : mulGen c n es x y < 2 ^ n :=
  packClipped_lt hn hW es _ _ (Nat.mod_lt _ (Nat.two_pow_pos _))

theorem onViews_mulView (hn : 2 ≤ n) (hW : n ≤ c.W) (es : Nat) {x y : Nat} (hx : x < 2 ^ n) (hy : y < 2 ^ n) :
    OnViews n (mulView c n es x y) := by
  have hzero : OnViews n (.view zeroView) := Nat.two_pow_pos n
  unfold mulView
  split_ifs
  · trivial
  · exact hzero
  · trivial
  · exact hzero
  · exact hy
  · exact negView_lt n y
  · exact hx
  · exact negView_lt n x
  · exact infView_lt hn
  · exact oneView_lt hn
  · exact moneView_lt n
  · exact mulGen_lt (by omega) hW es x y

theorem onViews_mulPosit (hn : 2 ≤ n) (hW : n ≤ c.W) (es : Nat) {x y : Posit} (hx : OnViews n x) (hy : OnViews n y) :
    OnViews n (mulPosit c n es x y) := by
  cases x with
  | nan => trivial
  | view x =>
    cases y with
    | nan => trivial
    | view y => exact onViews_mulView hn hW es hx hy

theorem onViews_divPosit (hn : 2 ≤ n) (hW : n ≤ c.W) (es : Nat) {x : Posit} (hx : OnViews n x) (y : Posit) :
    OnViews n (divPosit c n es x y) :=
  onViews_mulPosit hn hW es hx (onViews_recPosit hn y)

/-! ## ADD and SUB -/

theorem roundShift_le (tie : AddTie) (t sh : Nat) : roundShift tie t sh ≤ t / 2 ^ sh + 1 := by
  cases tie <;> simp only [roundShift] <;> split_ifs <;> omega

/-- Rounding to `fw` fraction bits can carry the significand to 2.0, and no further (R142). -/
theorem roundedSignificand_le (tie : AddTie) (t fw : Nat) : roundedSignificand tie t fw ≤ 2 ^ (fw + 1) := by
  have hlen : t < 2 ^ bitlen t := (bitlen_le_iff t _).1 le_rfl
  unfold roundedSignificand
  split
  · next h =>
    calc t * 2 ^ (fw - (bitlen t - 1))
        ≤ 2 ^ bitlen t * 2 ^ (fw - (bitlen t - 1)) := Nat.mul_le_mul_right _ hlen.le
      _ = 2 ^ (bitlen t + (fw - (bitlen t - 1))) := (pow_add 2 _ _).symm
      _ ≤ 2 ^ (fw + 1) := Nat.pow_le_pow_right (by decide) (by omega)
  · next h =>
    refine (roundShift_le tie t _).trans (Nat.succ_le_of_lt (Nat.div_lt_of_lt_mul ?_))
    rwa [← pow_add, show bitlen t - 1 - fw + (fw + 1) = bitlen t by omega]

theorem roundPack_lt (hn : 1 ≤ n) (hW : n ≤ c.W) (es : Nat) (sign : Bool) (t : Nat) (k : Int) :
    roundPack c n es sign t k < 2 ^ n := by
  have hzero : 0 < 2 ^ c.W := Nat.two_pow_pos _
  rw [roundPack_eq]
  dsimp only
  generalize (bitlen t : Int) - 1 + k - (c.W : Int) = e
  have hfw : fwof (regimePart e es) n es ≤ c.W := by unfold fwof; omega
  generalize fwof (regimePart e es) n es = fw at *
  split_ifs with hclip hcarry
  · exact packClipped_lt hn hW es sign e hzero
  · exact packClipped_lt hn hW es sign (e + 1) hzero
  · have hle := roundedSignificand_le c.addTie t fw
    refine packClipped_lt hn hW es sign e ?_
    calc (roundedSignificand c.addTie t fw - 2 ^ fw) * 2 ^ (c.W - fw)
        < 2 ^ fw * 2 ^ (c.W - fw) := by
          refine Nat.mul_lt_mul_of_pos_right ?_ (Nat.two_pow_pos _)
          rw [pow_succ] at hle hcarry
          omega
      _ = 2 ^ c.W := by rw [← pow_add, Nat.add_sub_cancel' hfw]

theorem onViews_addView (hn : 2 ≤ n) (hW : n ≤ c.W) (es : Nat) {x y : Nat} (hx : x < 2 ^ n) (hy : y < 2 ^ n) :
    OnViews n (addView c n es x y) := by
  unfold addView
  split_ifs
  · exact hy
  · exact hx
  · trivial
  · exact infView_lt hn
  · exact Nat.two_pow_pos n
  · exact roundPack_lt (by omega) hW es _ _ _

theorem onViews_addPosit (hn : 2 ≤ n) (hW : n ≤ c.W) (es : Nat) {x y : Posit} (hx : OnViews n x) (hy : OnViews n y) :
    OnViews n (addPosit c n es x y) := by
  cases x with
  | nan => trivial
  | view x =>
    cases y with
    | nan => trivial
    | view y => exact onViews_addView hn hW es hx hy

theorem onViews_subPosit (hn : 2 ≤ n) (hW : n ≤ c.W) (es : Nat) {x : Posit} (hx : OnViews n x) (y : Posit) :
    OnViews n (subPosit c n es x y) :=
  onViews_addPosit hn hW es hx (onViews_negPosit n y)

/-! ## Results -/

theorem onViews_ofValue (hW : n ≤ c.W) {x : Value} (hx : x.wellFormed c = true) : OnViews n (Posit.ofValue c n x) := by
  cases x with
  | nan => trivial
  | finite b => exact view_lt hW (of_decide_eq_true hx)

/-- The invariant of rule R22, with the width of the word: what every value result keeps. -/
def LeftJustified (c : Config) (n : Nat) (v : Value) : Prop := justified c n v = true ∧ v.wellFormed c = true

theorem leftJustified_zero (c : Config) (n : Nat) : LeftJustified c n (.finite 0) := by
  simp [LeftJustified, justified, Value.wellFormed]

theorem leftJustified_toValue (hW : n ≤ c.W) {x : Posit} (hx : OnViews n x) : LeftJustified c n (x.toValue c n) := by
  refine ⟨justified_toValue c n x, ?_⟩
  cases x with
  | nan => rfl
  | view v => exact decide_eq_true (lj_lt hW hx)

theorem leftJustified_lj (hW : n ≤ c.W) {v : Nat} (hv : v < 2 ^ n) : LeftJustified c n (.finite (lj c n v)) :=
  leftJustified_toValue (x := .view v) hW hv

/-- An `OK` answer holds the operation's own result, and the checks passed. -/
theorem leftJustified_of_answer {a b : Bool} {p p' : Reply} {s : State} {n : Nat}
    (h : answer a b p s = .next (s.answered (.ok p'))) (hp : a = true → b = true → LeftJustified s.cfg n p.r) :
    LeftJustified s.cfg n p'.r := by
  obtain ⟨ha, hb, rfl⟩ := (answer_ok_iff a b p p' s).1 h
  exact hp ha hb

theorem leftJustified_unaryValue {op : Nat → Posit → Posit} {f : Fmt} {x : Value} {s : State} {p : Reply}
    (hop : 2 ≤ f.nbits → ∀ y, OnViews f.nbits (op f.nbits y))
    (h : unaryValue op f x s = .next (s.answered (.ok p))) : LeftJustified s.cfg f.nbits p.r :=
  leftJustified_of_answer h fun hf _ =>
    have ⟨hn, hW, _⟩ := (paramsLegal_iff _ f).1 hf
    leftJustified_toValue hW (hop hn _)

theorem leftJustified_binaryValue {op : Config → Nat → Nat → Posit → Posit → Posit} {f : Fmt} {x y : Value} {s : State}
    {p : Reply} (hop : 2 ≤ f.nbits → f.nbits ≤ s.cfg.W → ∀ {u v}, OnViews f.nbits u → OnViews f.nbits v →
      OnViews f.nbits (op s.cfg f.nbits f.es u v))
    (hwf : (f.wellFormed && x.wellFormed s.cfg && y.wellFormed s.cfg) = true)
    (h : binaryValue op f x y s = .next (s.answered (.ok p))) : LeftJustified s.cfg f.nbits p.r :=
  leftJustified_of_answer h fun hf _ => by
    obtain ⟨hn, hW, _⟩ := (paramsLegal_iff _ f).1 hf
    obtain ⟨hfx, hy⟩ := Bool.and_eq_true_iff.1 hwf
    obtain ⟨_, hx⟩ := Bool.and_eq_true_iff.1 hfx
    exact leftJustified_toValue hW (hop hn hW (onViews_ofValue hW hx) (onViews_ofValue hW hy))

theorem leftJustified_construct {v : Nat → Nat} {f : Fmt} {s : State} {p : Reply}
    (hv : 2 ≤ f.nbits → v f.nbits < 2 ^ f.nbits) (h : construct v f s = .next (s.answered (.ok p))) :
    LeftJustified s.cfg f.nbits p.r :=
  leftJustified_of_answer h fun hf _ =>
    have ⟨hn, hW, _⟩ := (paramsLegal_iff _ f).1 hf
    leftJustified_lj hW (hv hn)

/-- Every value in an `OK` response is left-justified, operation by operation. -/
theorem exec_leftJustified {i : Instr} {s : State} {p : Reply} (hwf : i.wellFormed s.cfg = true)
    (h : exec i s = .next (s.answered (.ok p))) : LeftJustified s.cfg i.fmt.nbits p.r := by
  cases i with
  | ssw | rsw | esw | fsw | useed | getBits | toF32 | toF64 | unpack | isZero | isOne | isInf | isNeg | isNan
  | eq | gt | ge | lt | le => exact leftJustified_of_answer h fun _ _ => leftJustified_zero _ _
  | cNan f => exact leftJustified_of_answer h fun _ _ => ⟨rfl, rfl⟩
  | cZero f => exact leftJustified_construct (v := fun _ => zeroView) (fun _ => Nat.two_pow_pos f.nbits) h
  | cOne f => exact leftJustified_construct oneView_lt h
  | cInf f => exact leftJustified_construct infView_lt h
  | neg f x => exact leftJustified_unaryValue (fun _ => onViews_negPosit f.nbits) h
  | recip f x => exact leftJustified_unaryValue onViews_recPosit h
  | mul f x y => exact leftJustified_binaryValue (fun hn hW _ _ => onViews_mulPosit hn hW f.es) hwf h
  | div f x y => exact leftJustified_binaryValue (fun hn hW _ v hu _ => onViews_divPosit hn hW f.es hu v) hwf h
  | add f x y => exact leftJustified_binaryValue (fun hn hW _ _ => onViews_addPosit hn hW f.es) hwf h
  | sub f x y => exact leftJustified_binaryValue (fun hn hW _ v hu _ => onViews_subPosit hn hW f.es hu v) hwf h
  | fromF32 f raw | fromF64 f raw =>
    refine leftJustified_of_answer h fun hf _ => ?_
    obtain ⟨hn, hW, _⟩ := (paramsLegal_iff _ f).1 hf
    exact leftJustified_toValue hW (onViews_fromIeee hn hW _ f.es raw)
  | setBits f raw =>
    refine leftJustified_of_answer h fun hf hraw => ?_
    obtain ⟨_, hW, _⟩ := (paramsLegal_iff _ f).1 hf
    exact leftJustified_lj hW (of_decide_eq_true hraw)
  | pack f r =>
    refine leftJustified_of_answer h fun hf hr => ?_
    obtain ⟨hn, hW, _⟩ := (paramsLegal_iff _ f).1 hf
    obtain ⟨_, hrwf⟩ := Bool.and_eq_true_iff.1 hwf
    obtain ⟨_, hfrac⟩ := Bool.and_eq_true_iff.1 hrwf
    exact leftJustified_lj hW (packView_lt (by omega) hW (of_decide_eq_true hr) (of_decide_eq_true hfrac))

end Sys2Proof.Machine
end

section
/-! The unsigned order of magnitudes is the order of the numbers they denote (R29, R34). A magnitude's regime grows with
it (R76), and within one regime the exponent and fraction, side by side, do; the number grows with both. -/

namespace Sys2Proof.Machine

open Sys2Proof.Safety

variable {c : Config} {n : Nat}

/-! ## The regime grows with the magnitude -/

theorem bitlen_mono {x y : Nat} (h : x ≤ y) : bitlen x ≤ bitlen y :=
  (bitlen_le_iff x _).2 (h.trans_lt ((bitlen_le_iff y _).1 le_rfl))

theorem runBit_eq_decide {p : Nat} (hn : 2 ≤ n) (hp : p < 2 ^ (n - 1)) : runBit p n = decide (2 ^ (n - 2) ≤ p) :=
  signBit_eq_decide (n := n - 1) (by omega) hp

/-- A run of zeros counts the leading zeros of the `n-1` bits after the sign. -/
theorem regimeOf_of_zeros {p : Nat} (hn : 2 ≤ n) (hp : p < 2 ^ (n - 1)) (hb : runBit p n = false) :
    regimeOf p n = (bitlen p : Int) - (n - 1 : Nat) := by
  have hregime : regimeOf p n = -(runLen p n : Int) := by simp [regimeOf, hb]
  have hrem := remBits_eq p n
  rcases (runLen_le p n).lt_or_eq with hm | hm
  · have hquot := div_two_pow_remBits hn hp hm
    have hpos := Nat.two_pow_pos (remBits p n)
    rw [regcodeWord_regimeOf hn, hb, if_neg Bool.false_ne_true, Nat.div_eq_iff hpos] at hquot
    have hlen := (bitlen_eq_succ_iff p (remBits p n)).2 ⟨by omega, by rw [pow_succ]; omega⟩
    omega
  · have hfull := eq_of_runLen_eq hp hm
    rw [hb, if_neg Bool.false_ne_true] at hfull
    rw [hregime, hm, hfull]
    simp [bitlen]

/-- A run of ones counts the leading ones. -/
theorem regimeOf_of_ones {p : Nat} (hn : 2 ≤ n) (hp : p < 2 ^ (n - 1)) (hb : runBit p n = true) :
    regimeOf p n = (n - 2 : Nat) - (bitlen (2 ^ (n - 1) - 1 - p) : Int) := by
  have hregime : regimeOf p n = (runLen p n : Int) - 1 := by simp [regimeOf, hb]
  have hrem := remBits_eq p n
  rcases (runLen_le p n).lt_or_eq with hm | hm
  · have hquot := div_two_pow_remBits hn hp hm
    have hpos := Nat.two_pow_pos (remBits p n)
    obtain ⟨k, hk⟩ : ∃ k, 2 ^ runLen p n = k + 1 := Nat.exists_eq_add_one_of_ne_zero (Nat.two_pow_pos _).ne'
    have hpow : (2 : Nat) ^ (n - 1) = 2 * k * 2 ^ remBits p n + 2 * 2 ^ remBits p n := by
      rw [show n - 1 = 1 + runLen p n + remBits p n by omega, pow_add, pow_add, hk]
      ring
    rw [regcodeWord_regimeOf hn, if_pos hb, hk, Nat.add_sub_cancel, Nat.div_eq_iff hpos] at hquot
    have hlen := (bitlen_eq_succ_iff (2 ^ (n - 1) - 1 - p) (remBits p n)).2 ⟨by omega, by rw [pow_succ]; omega⟩
    omega
  · have hfull := eq_of_runLen_eq hp hm
    rw [if_pos hb] at hfull
    rw [hregime, hm, ← hfull, Nat.sub_self]
    simp [bitlen]
    omega

theorem regimeOf_mono {p q : Nat} (hn : 2 ≤ n) (hpq : p ≤ q) (hq : q < 2 ^ (n - 1)) : regimeOf p n ≤ regimeOf q n := by
  have hp := hpq.trans_lt hq
  cases hbp : runBit p n with
  | false =>
    cases hbq : runBit q n with
    | false =>
      have hlen := bitlen_mono hpq
      rw [regimeOf_of_zeros hn hp hbp, regimeOf_of_zeros hn hq hbq]
      omega
    | true =>
      have hneg := (regimeOf_nonneg_iff (p := p) hn).not.2 (by simp [hbp])
      have hnonneg := (regimeOf_nonneg_iff (p := q) hn).2 hbq
      omega
  | true =>
    have hbq : runBit q n = true := by
      rw [runBit_eq_decide hn hp, decide_eq_true_eq] at hbp
      rw [runBit_eq_decide hn hq, decide_eq_true_eq]
      exact hbp.trans hpq
    have hlen := bitlen_mono (Nat.sub_le_sub_left hpq (2 ^ (n - 1) - 1))
    rw [regimeOf_of_ones hn hp hbp, regimeOf_of_ones hn hq hbq]
    omega

/-- Within one regime the bits after it grow with the magnitude. -/
theorem mod_remBits_lt_of_regimeOf_eq {p q : Nat} (hn : 2 ≤ n) (hpq : p < q) (hq : q < 2 ^ (n - 1))
    (hr : regimeOf p n = regimeOf q n) :
    remBits p n = remBits q n ∧ p % 2 ^ remBits p n < q % 2 ^ remBits q n := by
  have hrun : runLen p n = runLen q n := by
    have h := congrArg regcodeLen hr
    rw [regcodeLen_regimeOf hn, regcodeLen_regimeOf hn] at h
    exact Nat.succ.inj h
  have hrem : remBits p n = remBits q n := by rw [remBits_eq, remBits_eq, hrun]
  rcases (runLen_le q n).lt_or_eq with hm | hm
  · have hp := div_two_pow_remBits hn (hpq.trans hq) (hrun ▸ hm)
    have hq := div_two_pow_remBits hn hq hm
    have hdp := Nat.div_add_mod p (2 ^ remBits p n)
    have hdq := Nat.div_add_mod q (2 ^ remBits q n)
    rw [hp, hr] at hdp
    rw [hq] at hdq
    rw [hrem] at hdp ⊢
    exact ⟨rfl, by omega⟩
  · have hp := eq_of_runLen_eq (hpq.trans hq) (hrun.trans hm)
    have hq := eq_of_runLen_eq hq hm
    have hb : runBit p n = runBit q n := by
      rw [Bool.eq_iff_iff, ← regimeOf_nonneg_iff hn, hr, regimeOf_nonneg_iff hn]
    rw [hb, ← hq] at hp
    omega

/-! ## The number grows with exponent and fraction -/

/-- The combined exponent and the fraction as one integer: the magnitude `2^e * (1 + f / 2^W)` grows with it. -/
def orderKey (c : Config) (es : Nat) (r : Record) : Int :=
  combined es r * (2 ^ c.W : Nat) + r.fraction

theorem orderKey_eq (c : Config) (es : Nat) (r : Record) :
    orderKey c es r = r.regime * (2 ^ (es + c.W) : Nat) + (r.exponent * 2 ^ c.W + r.fraction : Nat) := by
  unfold orderKey combined
  rw [pow_add]
  push_cast
  ring

/-- The number a record denotes, without its sign. -/
def recordMagnitude (c : Config) (es : Nat) (r : Record) : ℚ :=
  (2 : ℚ) ^ combined es r * (1 + (r.fraction : ℚ) / 2 ^ c.W)

theorem recordValue_eq (c : Config) (es : Nat) (r : Record) :
    recordValue c es r = if r.sign then -recordMagnitude c es r else recordMagnitude c es r := by
  unfold recordValue recordMagnitude
  split <;> ring

theorem recordMagnitude_pos (c : Config) (es : Nat) (r : Record) : 0 < recordMagnitude c es r := by
  unfold recordMagnitude
  positivity

theorem recordMagnitude_lt_of_orderKey_lt {es : Nat} {r r' : Record} (hf : r.fraction < 2 ^ c.W)
    (hf' : r'.fraction < 2 ^ c.W) (h : orderKey c es r < orderKey c es r') :
    recordMagnitude c es r < recordMagnitude c es r' := by
  have hpow : (0 : ℚ) < 2 ^ c.W := by positivity
  rcases lt_trichotomy (combined es r) (combined es r') with he | he | he
  · have hfrac : (r.fraction : ℚ) / 2 ^ c.W < 1 := (div_lt_one hpow).2 (by exact_mod_cast hf)
    calc recordMagnitude c es r
        < (2 : ℚ) ^ combined es r * 2 := by
          refine mul_lt_mul_of_pos_left ?_ (by positivity)
          linarith
      _ = (2 : ℚ) ^ (combined es r + 1) := (zpow_add_one₀ two_ne_zero _).symm
      _ ≤ (2 : ℚ) ^ combined es r' := zpow_le_zpow_right₀ one_le_two he
      _ ≤ recordMagnitude c es r' := le_mul_of_one_le_right (by positivity) (le_add_of_nonneg_right (by positivity))
  · have hlt : r.fraction < r'.fraction := by
      unfold orderKey at h
      rw [he] at h
      omega
    unfold recordMagnitude
    rw [he]
    gcongr
  · exfalso
    have hkey : (combined es r' + 1) * ((2 ^ c.W : Nat) : Int) ≤ combined es r * ((2 ^ c.W : Nat) : Int) :=
      Int.mul_le_mul_of_nonneg_right he (Int.natCast_nonneg _)
    unfold orderKey at h
    rw [add_mul] at hkey
    omega

/-! ## Magnitudes and views -/

theorem orderKey_unpackView (hn : 2 ≤ n) (hW : n ≤ c.W) (es v : Nat) :
    orderKey c es (unpackView c n es v) = regimeOf (mag n v) n * (2 ^ (es + c.W) : Nat) +
      (mag n v % 2 ^ remBits (mag n v) n * 2 ^ (es + c.W - remBits (mag n v) n) : Nat) := by
  rw [orderKey_eq, unpackView_exponent_fraction hn hW, unpackView_regime]

theorem orderKey_lt_of_mag_lt {x y : Nat} (hn : 2 ≤ n) (hW : n ≤ c.W) (es : Nat) (hy : mag n y < 2 ^ (n - 1))
    (h : mag n x < mag n y) : orderKey c es (unpackView c n es x) < orderKey c es (unpackView c n es y) := by
  have hfx := exponent_fraction_lt (unpackView_exponent_lt c n es x) (unpackView_fraction_lt hn hW es x)
  rcases (regimeOf_mono hn h.le hy).lt_or_eq with hr | hr
  · have hkey : (regimeOf (mag n x) n + 1) * ((2 ^ (es + c.W) : Nat) : Int) ≤
        regimeOf (mag n y) n * ((2 ^ (es + c.W) : Nat) : Int) :=
      Int.mul_le_mul_of_nonneg_right hr (Int.natCast_nonneg _)
    rw [add_mul] at hkey
    rw [orderKey_eq, orderKey_eq, unpackView_regime, unpackView_regime]
    omega
  · obtain ⟨hrem, hlt⟩ := mod_remBits_lt_of_regimeOf_eq hn h hy hr
    have hshift := Nat.mul_lt_mul_of_pos_right hlt (Nat.two_pow_pos (es + c.W - remBits (mag n y) n))
    rw [orderKey_unpackView hn hW, orderKey_unpackView hn hW, hr, hrem]
    rw [hrem] at hshift
    omega

/-- The magnitude of the number a view other than `ZERO` and `INF` denotes. -/
def viewMagnitude (c : Config) (n es v : Nat) : ℚ := recordMagnitude c es (unpackView c n es v)

theorem viewMagnitude_pos (c : Config) (n es v : Nat) : 0 < viewMagnitude c n es v := recordMagnitude_pos _ _ _

theorem viewMagnitude_lt {x y : Nat} (hn : 2 ≤ n) (hW : n ≤ c.W) (es : Nat) (hy : Denotes n y)
    (h : mag n x < mag n y) : viewMagnitude c n es x < viewMagnitude c n es y :=
  recordMagnitude_lt_of_orderKey_lt (unpackView_fraction_lt hn hW es x) (unpackView_fraction_lt hn hW es y)
    (orderKey_lt_of_mag_lt hn hW es (mag_lt (by omega) hy) h)

theorem viewMagnitude_congr {x y : Nat} (es : Nat) (h : mag n x = mag n y) :
    viewMagnitude c n es x = viewMagnitude c n es y := by
  simp only [viewMagnitude, recordMagnitude, combined, unpackView, h]

@[simp] theorem viewValue_zero (c : Config) (n es : Nat) : viewValue c n es 0 = 0 := rfl

/-- The number of a view other than `ZERO`: its magnitude with its sign. -/
theorem viewValue_eq (c : Config) (n es : Nat) {v : Nat} (h : v ≠ 0) :
    viewValue c n es v = if v.testBit (n - 1) then -viewMagnitude c n es v else viewMagnitude c n es v := by
  rw [viewValue, if_neg (show v ≠ zeroView from h), recordValue_eq, unpackView_sign]
  rfl

theorem ne_zero_of_set {v : Nat} (hs : v.testBit (n - 1) = true) : v ≠ 0 := by
  rintro rfl
  simp at hs

theorem viewValue_of_clear (c : Config) (n es : Nat) {v : Nat} (h : v ≠ 0) (hs : v.testBit (n - 1) = false) :
    viewValue c n es v = viewMagnitude c n es v := by
  simp [viewValue_eq c n es h, hs]

theorem viewValue_of_set (c : Config) (n es : Nat) {v : Nat} (hs : v.testBit (n - 1) = true) :
    viewValue c n es v = -viewMagnitude c n es v := by
  simp [viewValue_eq c n es (ne_zero_of_set hs), hs]

theorem viewValue_neg_of_set (c : Config) (n es : Nat) {v : Nat} (hs : v.testBit (n - 1) = true) :
    viewValue c n es v < 0 := by
  rw [viewValue_of_set c n es hs]
  exact neg_neg_of_pos (viewMagnitude_pos c n es v)

theorem viewValue_pos_of_clear (c : Config) (n es : Nat) {v : Nat} (h : v ≠ 0) (hs : v.testBit (n - 1) = false) :
    0 < viewValue c n es v := by
  rw [viewValue_of_clear c n es h hs]
  exact viewMagnitude_pos c n es v

theorem viewValue_nonneg_of_clear (c : Config) (n es : Nat) {v : Nat} (hs : v.testBit (n - 1) = false) :
    0 ≤ viewValue c n es v := by
  rcases eq_or_ne v 0 with rfl | h
  · exact le_rfl
  · exact (viewValue_pos_of_clear c n es h hs).le

/-! ## Negation (R132) -/

theorem mag_of_clear {v : Nat} (hs : v.testBit (n - 1) = false) : mag n v = v := if_neg (by simp [signBit, hs])

theorem negView_of_ne_zero (n : Nat) {v : Nat} (h : v ≠ 0) : negView n v = 2 ^ n - v :=
  Nat.mod_eq_of_lt (Nat.sub_lt (Nat.two_pow_pos n) (Nat.pos_of_ne_zero h))

theorem mag_of_set {v : Nat} (hs : v.testBit (n - 1) = true) : mag n v = 2 ^ n - v :=
  (if_pos hs).trans (negView_of_ne_zero n (ne_zero_of_set hs))

theorem denotes_negView {v : Nat} (hn : 1 ≤ n) (h : Denotes n v) : Denotes n (negView n v) := by
  obtain ⟨hlt, h0, hinf⟩ := h
  have hdouble := two_pow_eq_double hn
  rw [negView_of_ne_zero n h0]
  exact ⟨by omega, by omega, by omega⟩

theorem testBit_negView {v : Nat} (hn : 1 ≤ n) (h : Denotes n v) :
    (negView n v).testBit (n - 1) = !v.testBit (n - 1) := by
  have hneg := signBit_eq_decide hn (denotes_negView hn h).1
  have hpos := signBit_eq_decide hn h.1
  obtain ⟨hlt, h0, hinf⟩ := h
  have hdouble := two_pow_eq_double hn
  rw [signBit] at hneg hpos
  rw [hneg, hpos, ← decide_not, decide_eq_decide, negView_of_ne_zero n h0]
  omega

theorem mag_negView {v : Nat} (hn : 1 ≤ n) (h : Denotes n v) : mag n (negView n v) = mag n v := by
  have hsign := testBit_negView hn h
  have hneg := negView_of_ne_zero n h.2.1
  cases hs : v.testBit (n - 1) with
  | false => rw [mag_of_set (by rw [hsign, hs]; rfl), mag_of_clear hs, hneg, Nat.sub_sub_self h.1.le]
  | true => rw [mag_of_clear (by rw [hsign, hs]; rfl), mag_of_set hs, hneg]

theorem viewValue_negView (c : Config) {v : Nat} (hn : 1 ≤ n) (es : Nat) (h : FiniteView n v) :
    viewValue c n es (negView n v) = -viewValue c n es v := by
  obtain ⟨hlt, hinf⟩ := h
  rcases eq_or_ne v 0 with rfl | h0
  · simp [negView]
  · have h : Denotes n v := ⟨hlt, h0, hinf⟩
    have hmag := viewMagnitude_congr (c := c) es (mag_negView hn h)
    rw [viewValue_eq c n es h0, viewValue_eq c n es (denotes_negView hn h).2.1, testBit_negView hn h, hmag]
    cases v.testBit (n - 1) <;> simp

/-! ## The order of views (R34, C5) -/

/-- Within one sign the unsigned order of views is numeric order, `ZERO` at the bottom of the non-negative ones. -/
theorem viewValue_lt_of_lt {x y : Nat} (hn : 2 ≤ n) (hW : n ≤ c.W) (es : Nat) (hx : FiniteView n x)
    (hy : FiniteView n y) (hs : x.testBit (n - 1) = y.testBit (n - 1)) (h : x < y) :
    viewValue c n es x < viewValue c n es y := by
  obtain ⟨hxlt, hxinf⟩ := hx
  obtain ⟨hylt, hyinf⟩ := hy
  have hy0 : y ≠ 0 := by omega
  cases hsy : y.testBit (n - 1) with
  | false =>
    have hsx := hs.trans hsy
    rcases eq_or_ne x 0 with rfl | hx0
    · exact viewValue_pos_of_clear c n es hy0 hsy
    · rw [viewValue_of_clear c n es hx0 hsx, viewValue_of_clear c n es hy0 hsy]
      exact viewMagnitude_lt hn hW es ⟨hylt, hy0, hyinf⟩ (by rwa [mag_of_clear hsx, mag_of_clear hsy])
  | true =>
    have hsx := hs.trans hsy
    have hdx : Denotes n x := ⟨hxlt, ne_zero_of_set hsx, hxinf⟩
    rw [viewValue_of_set c n es hsx, viewValue_of_set c n es hsy]
    exact neg_lt_neg (viewMagnitude_lt hn hW es hdx (by rw [mag_of_set hsx, mag_of_set hsy]; omega))

/-- A view with the sign bit set denotes a smaller number than one with it clear. -/
theorem viewValue_lt_of_sign {x y : Nat} (c : Config) (es : Nat) (hx : x.testBit (n - 1) = true)
    (hy : y.testBit (n - 1) = false) : viewValue c n es x < viewValue c n es y :=
  (viewValue_neg_of_set c n es hx).trans_le (viewValue_nonneg_of_clear c n es hy)

theorem viewValue_ne_of_lt {x y : Nat} (hn : 2 ≤ n) (hW : n ≤ c.W) (es : Nat) (hx : FiniteView n x)
    (hy : FiniteView n y) (h : x < y) : viewValue c n es x ≠ viewValue c n es y := by
  cases hsx : x.testBit (n - 1) <;> cases hsy : y.testBit (n - 1)
  case false.true => exact (viewValue_lt_of_sign c es hsy hsx).ne'
  case true.false => exact (viewValue_lt_of_sign c es hsx hsy).ne
  all_goals exact (viewValue_lt_of_lt hn hW es hx hy (hsx.trans hsy.symm) h).ne

theorem eq_of_viewValue_eq {x y : Nat} (hn : 2 ≤ n) (hW : n ≤ c.W) (es : Nat) (hx : FiniteView n x)
    (hy : FiniteView n y) (h : viewValue c n es x = viewValue c n es y) : x = y := by
  rcases lt_trichotomy x y with hlt | heq | hgt
  · exact absurd h (viewValue_ne_of_lt hn hW es hx hy hlt)
  · exact heq
  · exact absurd h.symm (viewValue_ne_of_lt hn hW es hy hx hgt)

/-- Distinct views denote distinct numbers, `INF` included. -/
theorem eq_of_denoted_eq {x y : Nat} (hn : 2 ≤ n) (hW : n ≤ c.W) (es : Nat) (hx : x < 2 ^ n) (hy : y < 2 ^ n)
    (h : denoted c n es x = denoted c n es y) : x = y := by
  unfold denoted at h
  split_ifs at h with hxinf hyinf hyinf
  · exact hxinf.trans hyinf.symm
  · exact eq_of_viewValue_eq hn hW es ⟨hx, hxinf⟩ ⟨hy, hyinf⟩ (Number.real.inj h)

end Sys2Proof.Machine
end

section
/-! The obligations on the state, the value forms and the records (10_state.md). -/

namespace Sys2Proof

open Sys2Proof.Machine Sys2Proof.Safety

/-- Settles O7, by what an answer depends on. -/
theorem responseIsFunctionOfRequest : Obligations.ResponseIsFunctionOfRequest := by
  intro s s' q hcfg hq hq'
  exact step_of_decode_eq hcfg hq hq' (by rw [hcfg])

/-- Settles O9: the two requests decode alike. -/
theorem nanBitsAreNeverRead : Obligations.NanBitsAreNeverRead := by
  intro s q k
  exact ⟨fun ha => step_withRequest_congr s (decode_withPorts s.cfg q (valueOfPort_withBits ha k) rfl),
    fun hb => step_withRequest_congr s (decode_withPorts s.cfg q rfl (valueOfPort_withBits hb k))⟩

/-- Settles O18: a left-justified word is a multiple of `2^(W - n)`. -/
theorem viewAndWordAreInverse : Obligations.ViewAndWordAreInverse := by
  intro c n _ hnW
  refine ⟨fun _ => rfl, fun _ => rfl, fun v hv => ?_, fun b hb hj => ?_⟩
  · exact ⟨view_lj c n v, lj_lt hnW hv, justified_lj c n v⟩
  · exact ⟨lj_view (of_decide_eq_true hj), view_lt hnW hb⟩

/-- Settles O26: the string of the record is the magnitude pattern followed by zeros. -/
theorem unpackReadsTheFieldLayout : Obligations.UnpackReadsTheFieldLayout := by
  intro s f v hf hv
  have ⟨hn, hW, _⟩ := hf
  have hmag : mag f.nbits v = if v.testBit (f.nbits - 1) then 2 ^ f.nbits - v else v := by
    cases hs : v.testBit (f.nbits - 1) with
    | false => exact mag_of_clear hs
    | true => exact mag_of_set hs
  refine ⟨_, exec_unpack_packed hf v, ?_, fun b hb => ?_⟩
  · rw [packString_unpackView hn hW f.es hv, List.take_left' (bitString_length _ _), hmag]
  · rw [packString_unpackView hn hW f.es hv, List.drop_left' (bitString_length _ _)] at hb
    exact List.eq_of_mem_replicate hb

/-- Settles O25: UNPACK's record on the view, field by field. -/
theorem unpackedRecordRanges : Obligations.UnpackedRecordRanges := by
  intro s f v hlegal hf _
  have ⟨hn, hW, _⟩ := hf
  obtain ⟨hlo, hhi⟩ := regimeOf_bounds (mag f.nbits v) hn
  exact ⟨_, exec_unpack_packed hf v, rfl, unpackView_exponent_lt _ _ _ _, hlo, hhi, unpackView_fraction_lt hn hW _ _,
    unpackView_fraction_mod_eight hn hW _ _, regimeOfWord_wordOfRegime_regimeOf hlegal _ hn hW⟩

/-- Settles O16: every result is left-justified, whatever the operation. -/
theorem resultsAreLeftJustified : Obligations.ResultsAreLeftJustified := by
  intro i s p b _ hwf h hb
  obtain ⟨hmod, hlt⟩ := hb ▸ exec_leftJustified hwf h
  exact ⟨of_decide_eq_true hmod, of_decide_eq_true hlt⟩

/-- Settles O31, by the growth of the regime, and of the bits after it, with the magnitude. -/
theorem unsignedOrderIsNumericWithinASign : Obligations.UnsignedOrderIsNumericWithinASign := by
  intro c n es x y hn hW
  exact ⟨if_neg (Nat.two_pow_pos (n - 1)).ne, if_pos rfl, viewValue_negView c (by omega) es,
    viewValue_lt_of_lt hn hW es, fun _ _ => viewValue_lt_of_sign c es,
    fun hx => viewValue_pos_of_clear c n es hx.2.1, eq_of_denoted_eq hn hW es⟩

end Sys2Proof
end

section
/-! One request served: presented to an idle block it is answered, with the response it gets alone right after reset,
and the block is idle again (R44); so a list of requests is served in its order. -/

namespace Sys2Proof.Machine

open Sys2Proof.Safety

theorem State.present_of_idle {s : State} (h : s.request = none) (q : Request) :
    s.present q = some { s with request := some q } := (s.present_eq_some_iff _ q).mpr ⟨h, rfl⟩

theorem State.present_of_outstanding {s : State} {q : Request} (h : s.request = some q) (q' : Request) :
    s.present q' = none := by
  simp [State.present, h]

/-- The response alone is what stands on the port after the one step. -/
theorem responseAlone_of_step {c : Config} {q : Request} {t : State}
    (h : step { State.resetOf c with request := some q } = .next t) : responseAlone c q = t.response := by
  rw [responseAlone, h]

/-- What a block answered before does not show in its next response. -/
theorem step_withRequest_eq_alone (s : State) (q : Request) :
    ∃ r, step { s with request := some q } = .next (s.answered r) ∧ responseAlone s.cfg q = some r := by
  obtain ⟨r, h, h'⟩ := step_of_decode_eq (s := { s with request := some q })
    (s' := { State.resetOf s.cfg with request := some q }) rfl rfl rfl rfl
  exact ⟨r, h, responseAlone_of_step h'⟩

/-- Serving a list is answering its first request and serving the rest. -/
theorem serve_cons {s : State} {q : Request} {qs : List Request} {r : Response} {rs : List Response} {u : State}
    (hidle : s.request = none) (hstep : step { s with request := some q } = .next (s.answered r))
    (hrest : serve (s.answered r) qs = some (rs, u)) : serve s (q :: qs) = some (r :: rs, u) := by
  simp [serve, State.present_of_idle hidle, hstep, hrest]

/-- Serving from an idle block: every request is answered as alone, and the block is idle at the end. -/
theorem serve_of_idle {s : State} (h : s.request = none) (qs : List Request) :
    ∃ rs u, serve s qs = some (rs, u) ∧ rs.map some = qs.map (responseAlone s.cfg) ∧
      u.cfg = s.cfg ∧ u.request = none := by
  induction qs generalizing s with
  | nil => exact ⟨[], s, rfl, rfl, rfl, h⟩
  | cons q qs ih =>
    obtain ⟨r, hstep, halone⟩ := step_withRequest_eq_alone s q
    obtain ⟨rs, u, hserve, hrs, hcfg, hidle⟩ := ih (s.answered_request r)
    exact ⟨r :: rs, u, serve_cons h hstep hserve, by simp [halone, hrs], hcfg, hidle⟩

theorem step_of_idle {s : State} (h : s.request = none) : step s = .next s := by
  simp [step, h]

/-- The vector placed by `withFetchWord` is the request the step decodes. -/
theorem step_withFetchWord {s : State} {nbits w : Nat} {i : Instr}
    (h : decodeVector s.cfg (w % 2 ^ nbits) = .instr i) :
    step (s.withFetchWord nbits w) = exec i (s.withFetchWord nbits w) :=
  step_of_decode (s.withFetchWord_request nbits w) h

end Sys2Proof.Machine
end

section
/-! The obligations on the service of requests (20_memory.md). -/

namespace Sys2Proof

open Sys2Proof.Machine

/-- Settles O8, by induction on the list of requests: each leaves the block idle with its parameters. -/
theorem serviceInOrder : Obligations.ServiceInOrder :=
  ⟨fun _ qs h => serve_of_idle h qs, fun _ _ q' h => State.present_of_outstanding h q'⟩

/-- Settles O6: the branches of a step, with a vector on the port read as the request it decodes to. -/
theorem stepRunsDecodedRequest : Obligations.StepRunsDecodedRequest :=
  ⟨fun _ _ _ => step_of_decode, fun _ _ _ _ => step_withFetchWord, fun _ => step_of_idle⟩

end Sys2Proof
end

section
/-! The flat vectors of rule R57: each field of a concatenation stands at the sum of the widths before it, so a request
whose fields fit their ports is read back from its vector. -/

namespace Sys2Proof

/-- Field `j` of a concatenation, at the sum of the widths below it. -/
theorem slice_concatFields {l : List (Nat × Nat)} {j k v lo : Nat} (hj : l[j]? = some (k, v))
    (hlo : ((l.take j).map Prod.fst).sum = lo) : slice (concatFields l) lo k = v % 2 ^ k := by
  subst hlo
  induction l generalizing j with
  | nil => simp at hj
  | cons h t ih =>
    cases j with
    | zero =>
      obtain rfl : h = (k, v) := by simpa using hj
      exact slice_concatFields_head k v t
    | succ j =>
      rw [List.take_succ_cons, List.map_cons, List.sum_cons, slice_concatFields_tail]
      exact ih (by simpa using hj)

theorem slice_concatFields_of_lt {l : List (Nat × Nat)} {j k v lo : Nat} (hv : v < 2 ^ k) (hj : l[j]? = some (k, v))
    (hlo : ((l.take j).map Prod.fst).sum = lo) : slice (concatFields l) lo k = v :=
  (slice_concatFields hj hlo).trans (Nat.mod_eq_of_lt hv)

theorem sliceFlag_concatFields {l : List (Nat × Nat)} {j lo : Nat} {b : Bool} (hj : l[j]? = some (1, flagWord b))
    (hlo : ((l.take j).map Prod.fst).sum = lo) : sliceFlag (concatFields l) lo = b := by
  rw [sliceFlag, slice_concatFields_of_lt (flagWord_lt b) hj hlo, flagWord_beq_one]

theorem flagWord_eq_one_iff (b : Bool) : flagWord b = 1 ↔ b = true := by cases b <;> decide

theorem flagWord_sliceFlag (v lo : Nat) : flagWord (sliceFlag v lo) = slice v lo 1 := by
  have h : slice v lo 1 < 2 := slice_lt v lo 1
  unfold sliceFlag
  generalize slice v lo 1 = x at h
  interval_cases x <;> rfl

theorem Request.wellFormed_iff (c : Config) (q : Request) :
    q.wellFormed c = true ↔ q.op < 2 ^ 8 ∧ q.nbits < 2 ^ 8 ∧ q.es < 2 ^ 8 ∧ q.a.bits < 2 ^ c.W ∧ q.b.bits < 2 ^ c.W ∧
      q.record.regime < 2 ^ c.RW ∧ q.record.exponent < 2 ^ c.esMax ∧ q.record.fraction < 2 ^ c.W ∧ q.raw < 2 ^ 64 := by
  simp only [Request.wellFormed, Word.fits, Bool.and_eq_true, decide_eq_true_eq, and_assoc]

theorem Request.ofVector_toVector {c : Config} {q : Request} (h : q.wellFormed c = true) :
    Request.ofVector c (q.toVector c) = q := by
  obtain ⟨hop, hnbits, hes, ha, hb, hregime, hexponent, hfraction, hraw⟩ := (q.wellFormed_iff c).1 h
  obtain ⟨op, nbits, es, ⟨abits, anan⟩, ⟨bbits, bnan⟩, ⟨sign, regime, exponent, fraction⟩, raw⟩ := q
  simp only [Request.ofVector, Request.toVector, Request.mk.injEq, ValuePort.mk.injEq, RecordPort.mk.injEq]
  refine ⟨slice_concatFields_of_lt hop (j := 0) rfl ?_, slice_concatFields_of_lt hnbits (j := 1) rfl ?_,
    slice_concatFields_of_lt hes (j := 2) rfl ?_,
    ⟨slice_concatFields_of_lt ha (j := 3) rfl ?_, sliceFlag_concatFields (j := 4) rfl ?_⟩,
    ⟨slice_concatFields_of_lt hb (j := 5) rfl ?_, sliceFlag_concatFields (j := 6) rfl ?_⟩,
    ⟨sliceFlag_concatFields (j := 7) rfl ?_, slice_concatFields_of_lt hregime (j := 8) rfl ?_,
      slice_concatFields_of_lt hexponent (j := 9) rfl ?_, slice_concatFields_of_lt hfraction (j := 10) rfl ?_⟩,
    slice_concatFields_of_lt hraw (j := 11) rfl ?_⟩
  all_goals simp <;> omega

theorem Request.toVector_lt (c : Config) (q : Request) : q.toVector c < 2 ^ Request.width c := by
  refine (concatFields_lt _).trans_eq (congrArg (2 ^ ·) ?_)
  simp [Request.width]
  omega

end Sys2Proof
end

section
/-! An instruction is its operation code, its format parameters and its operands (R52, R53), and the decoder, the encoder
and well-formedness treat it as these three. So what a port does to an operand is proved once for each of the five
entries of rule R53's column "reads", and not for each operation. -/

namespace Sys2Proof

open Sys2Proof.Safety

/-- The operands of an operation, one constructor per kind of entry in the column "reads" of rule R53. -/
inductive Operands where
  | nothing
  | a (x : Value)
  | ab (x y : Value)
  | record (r : Record)
  | raw (w : Nat)

/-- The operands of an instruction, beside its format parameters. -/
def Instr.operands : Instr → Operands
  | .ssw _ | .useed _ | .cZero _ | .cOne _ | .cInf _ | .cNan _ => .nothing
  | .rsw _ x | .esw _ x | .fsw _ x | .getBits _ x | .toF32 _ x | .toF64 _ x | .unpack _ x | .neg _ x | .recip _ x
  | .isZero _ x | .isOne _ x | .isInf _ x | .isNeg _ x | .isNan _ x => .a x
  | .mul _ x y | .div _ x y | .add _ x y | .sub _ x y | .eq _ x y | .gt _ x y | .ge _ x y | .lt _ x y
  | .le _ x y => .ab x y
  | .pack _ r => .record r
  | .fromF32 _ w | .fromF64 _ w | .setBits _ w => .raw w

/-- The request fields that hold the operands. -/
def Operands.reads : Operands → Reads
  | .nothing => .nothing
  | .a _ => .a
  | .ab _ _ => .ab
  | .record _ => .record
  | .raw _ => .raw

/-- What a request holds in the fields that `r` names. -/
def Request.operands (c : Config) (q : Request) : Reads → Operands
  | .nothing => .nothing
  | .a => .a (valueOfPort q.a)
  | .ab => .ab (valueOfPort q.a) (valueOfPort q.b)
  | .record => .record (recordOfPort c q.record)
  | .raw => .raw q.raw

/-- The request that sends the operands: "fields the operation does not read are sent as zero". -/
def Operands.request (c : Config) (op : Nat) (f : Fmt) : Operands → Request
  | .nothing => requestOfNone op f
  | .a x => requestOfUnary op f x
  | .ab x y => requestOfBinary op f x y
  | .record r => { requestOfNone op f with record := portOfRecord c r }
  | .raw w => requestOfRaw op f w

/-- The operands fit their ports (R50). -/
def Operands.Fit (c : Config) : Operands → Prop
  | .nothing => True
  | .a x => x.wellFormed c = true
  | .ab x y => x.wellFormed c = true ∧ y.wellFormed c = true
  | .record r => r.wellFormed c = true
  | .raw w => w < 2 ^ 64

/-! ## The model's functions in these terms -/

theorem reads_eq (i : Instr) : reads i = i.operands.reads := by cases i <;> rfl

theorem requestOf_eq (c : Config) (i : Instr) : requestOf c i = i.operands.request c (opcode i) i.fmt := by
  cases i <;> rfl

theorem opcode_lt (i : Instr) : opcode i < 2 ^ 8 := by cases i <;> simp [opcode]

theorem Instr.wellFormed_iff (c : Config) (i : Instr) :
    i.wellFormed c = true ↔ i.fmt.nbits < 2 ^ 8 ∧ i.fmt.es < 2 ^ 8 ∧ i.operands.Fit c := by
  cases i <;> simp [Instr.wellFormed, Instr.fmt, Instr.operands, Operands.Fit, Fmt.wellFormed, rawWellFormed, and_assoc]

/-- The decoder answers the instruction whose code, parameters and operands the request holds (R50, R53). -/
theorem decode_eq_instr_iff (c : Config) (q : Request) (i : Instr) :
    decode c q = .instr i ↔
      q.op = opcode i ∧ q.nbits = i.fmt.nbits ∧ q.es = i.fmt.es ∧ q.operands c (reads i) = i.operands := by
  constructor
  · intro h
    unfold decode at h
    dsimp only at h
    split at h
    all_goals cases h
    all_goals exact ⟨by assumption, rfl, rfl, rfl⟩
  · rintro ⟨hop, hnbits, hes, hoperands⟩
    unfold decode
    cases i
    all_goals
      cases hoperands
      rw [hop, hnbits, hes]
      rfl

/-! ## Operands on the ports -/

theorem Record.wellFormed_iff (c : Config) (r : Record) :
    r.wellFormed c = true ↔ (-((2 ^ (c.RW - 1) : Nat) : Int) ≤ r.regime ∧ r.regime < ((2 ^ (c.RW - 1) : Nat) : Int)) ∧
      r.exponent < 2 ^ c.esMax ∧ r.fraction < 2 ^ c.W := by
  simp only [Record.wellFormed, Word.fits, Bool.and_eq_true, decide_eq_true_eq, and_assoc]

theorem recordOfPort_portOfRecord {c : Config} (hRW : 0 < c.RW) {r : Record} (h : r.wellFormed c = true) :
    recordOfPort c (portOfRecord c r) = r := by
  obtain ⟨⟨hlo, hhi⟩, _⟩ := (r.wellFormed_iff c).1 h
  simp only [recordOfPort, portOfRecord, regimeOfWord_wordOfRegime hRW hlo hhi]

theorem wordOfRegime_eq_emod (k : Nat) (v : Int) : (wordOfRegime k v : Int) = v % ((2 ^ k : Nat) : Int) :=
  Int.toNat_of_nonneg (Int.emod_nonneg v (by exact_mod_cast (Nat.two_pow_pos k).ne'))

theorem wordOfRegime_regimeOfWord {k w : Nat} (h : w < 2 ^ k) : wordOfRegime k (regimeOfWord k w) = w := by
  have hmod : (w : Int) % ((2 ^ k : Nat) : Int) = w := Int.emod_eq_of_lt (by omega) (by exact_mod_cast h)
  unfold wordOfRegime regimeOfWord
  split
  · rw [hmod, Int.toNat_natCast]
  · rw [Int.sub_emod_right, hmod, Int.toNat_natCast]

theorem portOfRecord_recordOfPort {c : Config} {p : RecordPort} (h : p.regime < 2 ^ c.RW) :
    portOfRecord c (recordOfPort c p) = p := by
  simp only [portOfRecord, recordOfPort, wordOfRegime_regimeOfWord h]

theorem regimeOfWord_bounds {k w : Nat} (hk : 0 < k) (h : w < 2 ^ k) :
    -((2 ^ (k - 1) : Nat) : Int) ≤ regimeOfWord k w ∧ regimeOfWord k w < ((2 ^ (k - 1) : Nat) : Int) := by
  have hp : (2 : Nat) ^ k = 2 * 2 ^ (k - 1) := by rw [← pow_succ', Nat.sub_add_cancel hk]
  unfold regimeOfWord
  rw [hp] at h ⊢
  generalize 2 ^ (k - 1) = P at h ⊢
  split <;> omega

theorem recordOfPort_wellFormed {c : Config} (hRW : 0 < c.RW) {p : RecordPort} (hregime : p.regime < 2 ^ c.RW)
    (hexponent : p.exponent < 2 ^ c.esMax) (hfraction : p.fraction < 2 ^ c.W) :
    (recordOfPort c p).wellFormed c = true :=
  (Record.wellFormed_iff c _).2 ⟨regimeOfWord_bounds hRW hregime, hexponent, hfraction⟩

theorem valueOfPort_wellFormed {c : Config} {p : ValuePort} (h : p.bits < 2 ^ c.W) :
    (valueOfPort p).wellFormed c = true := by
  unfold valueOfPort
  split
  · rfl
  · exact decide_eq_true h

theorem sameValue_portOfValue (p : ValuePort) : SameValue p (portOfValue (valueOfPort p)) := by
  obtain ⟨bits, nan⟩ := p
  cases nan <;> simp [SameValue, valueOfPort, portOfValue]

theorem portOfValue_bits_lt {c : Config} {x : Value} (h : x.wellFormed c = true) :
    (portOfValue x).bits < 2 ^ c.W := by
  cases x with
  | nan => exact Nat.two_pow_pos c.W
  | finite b => exact of_decide_eq_true h

theorem Config.legal_iff (c : Config) :
    c.legal = true ↔ 2 ≤ c.W ∧ c.W < 2 ^ (c.RW - 1) ∧ 64 ≤ c.NW ∧ c.W ≤ c.NW := by
  simp only [Config.legal, Bool.and_eq_true, decide_eq_true_eq, and_assoc]

theorem Config.RW_pos {c : Config} (h : c.legal = true) : 0 < c.RW := by
  obtain ⟨hW, hRW, _⟩ := c.legal_iff.1 h
  by_contra h0
  rw [show c.RW - 1 = 0 by omega, pow_zero] at hRW
  omega

/-! ## Decoding and encoding -/

/-- What an operation reads is the same in two requests that agree on it (R50, R25). -/
theorem operands_congr {c : Config} {r : Reads} {q q' : Request} (h : AgreeOn r q q') :
    q'.operands c r = q.operands c r := by
  obtain ⟨_, _, _, hr⟩ := h
  cases r with
  | nothing => rfl
  | a => exact congrArg Operands.a (valueOfPort_of_sameValue hr).symm
  | ab =>
    obtain ⟨ha, hb⟩ := hr
    exact congrArg₂ Operands.ab (valueOfPort_of_sameValue ha).symm (valueOfPort_of_sameValue hb).symm
  | record => exact congrArg (fun p => Operands.record (recordOfPort c p)) hr.symm
  | raw => exact congrArg Operands.raw hr.symm

/-- The fields an operation does not read do not show in what is decoded. -/
theorem decode_of_agreeOn {c : Config} {q q' : Request} {i : Instr} (h : decode c q = .instr i)
    (hq : AgreeOn (reads i) q q') : decode c q' = .instr i := by
  obtain ⟨hop, hnbits, hes, hoperands⟩ := (decode_eq_instr_iff c q i).1 h
  have ⟨hop', hnbits', hes', _⟩ := hq
  exact (decode_eq_instr_iff c q' i).2
    ⟨hop' ▸ hop, hnbits' ▸ hnbits, hes' ▸ hes, (operands_congr hq).trans hoperands⟩

theorem operands_fit {c : Config} {q : Request} (hlegal : c.legal = true) (hq : q.wellFormed c = true) (r : Reads) :
    (q.operands c r).Fit c := by
  obtain ⟨_, _, _, ha, hb, hregime, hexponent, hfraction, hraw⟩ := (q.wellFormed_iff c).1 hq
  cases r with
  | nothing => trivial
  | a => exact valueOfPort_wellFormed ha
  | ab => exact ⟨valueOfPort_wellFormed ha, valueOfPort_wellFormed hb⟩
  | record => exact recordOfPort_wellFormed (Config.RW_pos hlegal) hregime hexponent hfraction
  | raw => exact hraw

/-- A request agrees, on the fields that `r` names, with the request that sends what it holds in them. -/
theorem agreeOn_request_operands {c : Config} {q : Request} (hq : q.wellFormed c = true) (r : Reads) :
    AgreeOn r q ((q.operands c r).request c q.op ⟨q.nbits, q.es⟩) := by
  obtain ⟨_, _, _, _, _, hregime, _⟩ := (q.wellFormed_iff c).1 hq
  cases r with
  | nothing => exact ⟨rfl, rfl, rfl, trivial⟩
  | a => exact ⟨rfl, rfl, rfl, sameValue_portOfValue q.a⟩
  | ab => exact ⟨rfl, rfl, rfl, sameValue_portOfValue q.a, sameValue_portOfValue q.b⟩
  | record => exact ⟨rfl, rfl, rfl, (portOfRecord_recordOfPort hregime).symm⟩
  | raw => exact ⟨rfl, rfl, rfl, rfl⟩

/-- A decoded instruction fits the ports its request fits. -/
theorem decode_wellFormed {c : Config} {q : Request} {i : Instr} (hlegal : c.legal = true)
    (hq : q.wellFormed c = true) (h : decode c q = .instr i) : i.wellFormed c = true := by
  obtain ⟨_, hnbits, hes, hoperands⟩ := (decode_eq_instr_iff c q i).1 h
  obtain ⟨_, hnbits8, hes8, _⟩ := (q.wellFormed_iff c).1 hq
  exact (i.wellFormed_iff c).2 ⟨hnbits ▸ hnbits8, hes ▸ hes8, hoperands ▸ operands_fit hlegal hq (reads i)⟩

/-- A request and the encoder's request for what it decodes to agree on all that the operation reads. -/
theorem agreeOn_requestOf {c : Config} {q : Request} {i : Instr} (hq : q.wellFormed c = true)
    (h : decode c q = .instr i) : AgreeOn (reads i) q (requestOf c i) := by
  obtain ⟨hop, hnbits, hes, hoperands⟩ := (decode_eq_instr_iff c q i).1 h
  have hagree := agreeOn_request_operands hq (reads i)
  rwa [hoperands, hop, hnbits, hes, ← requestOf_eq] at hagree

theorem Operands.request_wellFormed {c : Config} {op : Nat} {f : Fmt} {o : Operands} (hop : op < 2 ^ 8)
    (hnbits : f.nbits < 2 ^ 8) (hes : f.es < 2 ^ 8) (ho : o.Fit c) : (o.request c op f).wellFormed c = true := by
  have hzero : ∀ k, 0 < 2 ^ k := Nat.two_pow_pos
  rw [Request.wellFormed_iff]
  cases o with
  | nothing => exact ⟨hop, hnbits, hes, hzero _, hzero _, hzero _, hzero _, hzero _, hzero _⟩
  | a x => exact ⟨hop, hnbits, hes, portOfValue_bits_lt ho, hzero _, hzero _, hzero _, hzero _, hzero _⟩
  | ab x y =>
    obtain ⟨hx, hy⟩ := ho
    exact ⟨hop, hnbits, hes, portOfValue_bits_lt hx, portOfValue_bits_lt hy, hzero _, hzero _, hzero _, hzero _⟩
  | record r =>
    obtain ⟨_, hexponent, hfraction⟩ := (r.wellFormed_iff c).1 ho
    exact ⟨hop, hnbits, hes, hzero _, hzero _, wordOfRegime_lt c.RW r.regime, hexponent, hfraction, hzero _⟩
  | raw w => exact ⟨hop, hnbits, hes, hzero _, hzero _, hzero _, hzero _, hzero _, ho⟩

theorem requestOf_wellFormed {c : Config} {i : Instr} (h : i.wellFormed c = true) :
    (requestOf c i).wellFormed c = true := by
  obtain ⟨hnbits, hes, ho⟩ := (i.wellFormed_iff c).1 h
  rw [requestOf_eq]
  exact Operands.request_wellFormed (opcode_lt i) hnbits hes ho

theorem Operands.operands_request {c : Config} (hRW : 0 < c.RW) (op : Nat) (f : Fmt) {o : Operands} (ho : o.Fit c) :
    (o.request c op f).operands c o.reads = o := by
  cases o with
  | nothing => rfl
  | a x => exact congrArg Operands.a (valueOfPort_portOfValue x)
  | ab x y => exact congrArg₂ Operands.ab (valueOfPort_portOfValue x) (valueOfPort_portOfValue y)
  | record r => exact congrArg Operands.record (recordOfPort_portOfRecord hRW ho)
  | raw w => rfl

@[simp] theorem Operands.request_op (c : Config) (op : Nat) (f : Fmt) (o : Operands) : (o.request c op f).op = op := by
  cases o <;> rfl

@[simp] theorem Operands.request_nbits (c : Config) (op : Nat) (f : Fmt) (o : Operands) :
    (o.request c op f).nbits = f.nbits := by
  cases o <;> rfl

@[simp] theorem Operands.request_es (c : Config) (op : Nat) (f : Fmt) (o : Operands) : (o.request c op f).es = f.es := by
  cases o <;> rfl

/-- The decoder inverts the encoder's request. -/
theorem decode_requestOf {c : Config} {i : Instr} (hlegal : c.legal = true) (h : i.wellFormed c = true) :
    decode c (requestOf c i) = .instr i := by
  obtain ⟨_, _, ho⟩ := (i.wellFormed_iff c).1 h
  rw [decode_eq_instr_iff, requestOf_eq, reads_eq]
  exact ⟨Operands.request_op .., Operands.request_nbits .., Operands.request_es ..,
    Operands.operands_request (Config.RW_pos hlegal) _ _ ho⟩

/-- The decoder inverts the encoder's flat vector. -/
theorem decodeVector_encode {c : Config} {i : Instr} (hlegal : c.legal = true) (h : i.wellFormed c = true) :
    decodeVector c (encode c i) = .instr i := by
  rw [decodeVector, encode, Request.ofVector_toVector (requestOf_wellFormed h), decode_requestOf hlegal h]

/-! ## Reserved codes -/

/-- The ranges that rule R56 reserves. -/
def ReservedCode (op : Nat) : Prop :=
  (0x05 ≤ op ∧ op ≤ 0x07) ∨ (0x0A ≤ op ∧ op ≤ 0x0F) ∨ (0x14 ≤ op ∧ op ≤ 0x17) ∨ op = 0x1E ∨ op = 0x1F ∨
    (0x25 ≤ op ∧ op ≤ 0x27) ∨ (0x2D ≤ op ∧ op ≤ 0x2F) ∨ (0x36 ≤ op ∧ op ≤ 0xFF)

theorem not_reservedCode_opcode (i : Instr) : ¬ ReservedCode (opcode i) := by
  cases i <;> simp [ReservedCode, opcode]

theorem decode_of_reservedCode {q : Request} (h : ReservedCode q.op) (c : Config) :
    ∃ op, decode c q = .reservedOp op := by
  cases hd : decode c q with
  | reservedOp op => exact ⟨op, rfl⟩
  | instr i =>
    obtain ⟨hop, _⟩ := (decode_eq_instr_iff c q i).1 hd
    exact absurd (hop ▸ h) (not_reservedCode_opcode i)

end Sys2Proof
end

section
/-! What an operation answers: its parameters and operands are checked as rule R202 lists them, and the reply holds the
one field that rule R53 says the operation writes. -/

namespace Sys2Proof.Machine

open Sys2Proof.Safety

/-- Every result field but `w` is zero (R51). -/
def WritesOnly (w : Written) (p : Reply) : Prop :=
  (w ≠ .r → p.r = .finite 0) ∧ (w ≠ .record → p.record = ⟨false, 0, 0, 0⟩) ∧ (w ≠ .n → p.n = 0) ∧
    (w ≠ .flag → p.flag = false)

theorem writesOnly_ofValue (v : Value) : WritesOnly .r (.ofValue v) :=
  ⟨fun h => absurd rfl h, fun _ => rfl, fun _ => rfl, fun _ => rfl⟩

theorem writesOnly_ofRecord (r : Record) : WritesOnly .record (.ofRecord r) :=
  ⟨fun _ => rfl, fun h => absurd rfl h, fun _ => rfl, fun _ => rfl⟩

theorem writesOnly_ofNat (n : Nat) : WritesOnly .n (.ofNat n) :=
  ⟨fun _ => rfl, fun _ => rfl, fun h => absurd rfl h, fun _ => rfl⟩

theorem writesOnly_ofFlag (b : Bool) : WritesOnly .flag (.ofFlag b) :=
  ⟨fun _ => rfl, fun _ => rfl, fun _ => rfl, fun h => absurd rfl h⟩

/-- Every operation is the checks of its format and its operands, with a reply that holds the field it writes. -/
theorem exec_eq_answer (i : Instr) (s : State) :
    ∃ p, exec i s = answer (formatLegal s.cfg i) (operandsLegal s.cfg i) p s ∧ WritesOnly (written i) p := by
  cases i with
  | ssw | rsw | esw | fsw | useed | getBits | toF32 | toF64 => exact ⟨_, rfl, writesOnly_ofNat _⟩
  | unpack => exact ⟨_, rfl, writesOnly_ofRecord _⟩
  | isZero | isOne | isInf | isNeg | isNan | eq | gt | ge | lt | le => exact ⟨_, rfl, writesOnly_ofFlag _⟩
  | pack | fromF32 | fromF64 | setBits | neg | recip | mul | div | add | sub | cZero | cOne | cInf | cNan =>
    exact ⟨_, rfl, writesOnly_ofValue _⟩

theorem exec_writesOnly {i : Instr} {s : State} {p : Reply} (h : exec i s = .next (s.answered (.ok p))) :
    WritesOnly (written i) p := by
  obtain ⟨p', hexec, hp'⟩ := exec_eq_answer i s
  obtain ⟨_, _, rfl⟩ := (answer_ok_iff _ _ p' p s).1 (hexec.symm.trans h)
  exact hp'

theorem paramsLegal_of_formatLegal {c : Config} {i : Instr} (h : formatLegal c i = true) :
    paramsLegal c i.fmt = true := by
  cases i with
  | useed f => exact (Bool.and_eq_true_iff.1 h).1
  | _ => exact h

/-- Illegal parameters are refused whatever the operands are (R54, R203). -/
theorem exec_illegalParam {i : Instr} {s : State} (h : paramsLegal s.cfg i.fmt = false) :
    exec i s = .next (s.answered (.refused .illegalParam)) := by
  obtain ⟨p, hexec, _⟩ := exec_eq_answer i s
  have hf : formatLegal s.cfg i = false :=
    Bool.eq_false_iff.2 fun hf => Bool.eq_false_iff.1 h (paramsLegal_of_formatLegal hf)
  rw [hexec, hf, answer_illegalParam]

end Sys2Proof.Machine
end

section
/-! Every field of an `OK` response fits its port: the fields an operation does not write are zero, values are
left-justified words, UNPACK's record fits the record port, and the integer results are field widths, views, `useed` and
IEEE patterns. -/

namespace Sys2Proof.Machine

open Sys2Proof.Safety

variable {c : Config} {n : Nat}

/-! ## The record -/

theorem zeroRecord_wellFormed (c : Config) : Record.wellFormed c ⟨false, 0, 0, 0⟩ = true := by
  have hpos : (0 : Int) < ((2 ^ (c.RW - 1) : Nat) : Int) := by exact_mod_cast Nat.two_pow_pos (c.RW - 1)
  exact (Record.wellFormed_iff c _).2 ⟨⟨(neg_neg_of_pos hpos).le, hpos⟩, Nat.two_pow_pos _, Nat.two_pow_pos _⟩

theorem unpackView_wellFormed (hlegal : c.legal = true) {f : Fmt} (hf : FmtLegal c f) (v : Nat) :
    (unpackView c f.nbits f.es v).wellFormed c = true := by
  obtain ⟨_, hRW, _⟩ := c.legal_iff.1 hlegal
  obtain ⟨hn, hW, hes⟩ := hf
  obtain ⟨hlo, hhi⟩ := regimeOf_bounds (mag f.nbits v) hn
  refine (Record.wellFormed_iff c _).2 ⟨?_, ?_, unpackView_fraction_lt hn hW f.es v⟩
  · rw [unpackView_regime]
    omega
  · exact (unpackView_exponent_lt c f.nbits f.es v).trans_le (Nat.pow_le_pow_right (by decide) hes)

theorem exec_record_wellFormed {i : Instr} {s : State} {p : Reply} (hlegal : s.cfg.legal = true)
    (h : exec i s = .next (s.answered (.ok p))) : p.record.wellFormed s.cfg = true := by
  obtain ⟨_, hrecord, _⟩ := exec_writesOnly h
  by_cases hw : written i = .record
  · cases i with
    | unpack f x =>
      obtain ⟨hf, _, rfl⟩ := (answer_ok_iff _ _ _ _ _).1 h
      exact unpackView_wellFormed hlegal ((paramsLegal_iff _ _).1 hf) _
    | _ => cases hw
  · exact hrecord hw ▸ zeroRecord_wellFormed s.cfg

/-! ## The integer result -/

theorem ieeePattern_lt {w : IeeeFmt} {iexp ifrac : Nat} (sign : Bool) (he : iexp < 2 ^ w.ew) (hf : ifrac < 2 ^ w.fw) :
    ieeePattern w sign iexp ifrac < 2 ^ (w.ew + w.fw + 1) := by
  have hfw : (2 : Nat) ^ w.fw ≤ 2 ^ (w.ew + w.fw + 1) := Nat.pow_le_pow_right (by decide) (by omega)
  refine Nat.or_lt_two_pow (Nat.or_lt_two_pow ?_ ?_) (hf.trans_le hfw)
  · rw [pow_succ' 2 (w.ew + w.fw)]
    exact Nat.mul_lt_mul_of_pos_right (flagWord_lt sign) (Nat.two_pow_pos _)
  · calc iexp * 2 ^ w.fw
        < 2 ^ w.ew * 2 ^ w.fw := Nat.mul_lt_mul_of_pos_right he (Nat.two_pow_pos _)
      _ = 2 ^ (w.ew + w.fw) := (pow_add 2 _ _).symm
      _ ≤ 2 ^ (w.ew + w.fw + 1) := Nat.pow_le_pow_right (by decide) (Nat.le_succ _)

theorem toIeee_lt (hn : 2 ≤ n) (hW : n ≤ c.W) {w : IeeeFmt} (hw : 1 ≤ w.fw) (es : Nat) (x : Posit) :
    toIeee c w n es x < 2 ^ (w.ew + w.fw + 1) := by
  have hones : w.ones < 2 ^ w.ew := Nat.sub_lt (Nat.two_pow_pos _) Nat.one_pos
  have hzero : ∀ k, 0 < 2 ^ k := Nat.two_pow_pos
  cases x with
  | nan => exact ieeePattern_lt _ hones (Nat.pow_lt_pow_right (by decide) (by omega))
  | view v =>
    simp only [toIeee]
    split_ifs
    · exact hzero _
    · exact ieeePattern_lt _ hones (hzero _)
    · exact ieeePattern_lt _ hones (hzero _)
    · exact ieeePattern_lt _ (hzero _) (hzero _)
    · exact ieeePattern_lt _ (by omega) (rescale_lt (unpackView_fraction_lt hn hW es v))

theorem viewOf_lt (hW : n ≤ c.W) {x : Value} (hx : x.wellFormed c = true) : viewOf c n x < 2 ^ n := by
  cases x with
  | nan => exact Nat.two_pow_pos n
  | finite b => exact view_lt hW (of_decide_eq_true hx)

/-- The width of a field of a view fits the integer port. -/
theorem width_lt_port (hlegal : c.legal = true) (hW : n ≤ c.W) {m : Nat} (hm : m ≤ n) : m < 2 ^ c.NW := by
  obtain ⟨_, _, _, hNW⟩ := c.legal_iff.1 hlegal
  exact (hm.trans (hW.trans hNW)).trans_lt Nat.lt_two_pow_self

theorem remBits_le (p n : Nat) : remBits p n ≤ n := (remBits_eq p n).trans_le (by omega)

/-- An `OK` answer holds the operation's own integer result, and the parameters are legal. -/
theorem n_lt_of_answer {b : Bool} {f : Fmt} {p p' : Reply} {s : State}
    (h : answer (paramsLegal s.cfg f) b p s = .next (s.answered (.ok p')))
    (hp : FmtLegal s.cfg f → p.n < 2 ^ s.cfg.NW) : p'.n < 2 ^ s.cfg.NW := by
  obtain ⟨hf, _, rfl⟩ := (answer_ok_iff _ b p p' s).1 h
  exact hp ((paramsLegal_iff _ f).1 hf)

theorem exec_n_lt {i : Instr} {s : State} {p : Reply} (hlegal : s.cfg.legal = true) (hwf : i.wellFormed s.cfg = true)
    (h : exec i s = .next (s.answered (.ok p))) : p.n < 2 ^ s.cfg.NW := by
  obtain ⟨_, _, hzero, _⟩ := exec_writesOnly h
  have ⟨_, _, hNW, hWNW⟩ := s.cfg.legal_iff.1 hlegal
  have hport : ∀ {k m : Nat}, k ≤ s.cfg.NW → m < 2 ^ k → m < 2 ^ s.cfg.NW :=
    fun hk hm => hm.trans_le (Nat.pow_le_pow_right (by decide) hk)
  by_cases hw : written i = .n
  · cases i with
    | ssw f => exact n_lt_of_answer h fun _ => Nat.one_lt_two_pow (by omega)
    | useed f =>
      obtain ⟨hf, _, rfl⟩ := (answer_ok_iff _ _ _ _ _).1 h
      obtain ⟨_, hes⟩ := Bool.and_eq_true_iff.1 hf
      exact Nat.pow_lt_pow_right (by decide) (of_decide_eq_true hes)
    | rsw f x =>
      exact n_lt_of_answer h fun ⟨_, hW, _⟩ => width_lt_port hlegal hW ((runLen_le _ _).trans (Nat.sub_le _ 1))
    | esw f x =>
      exact n_lt_of_answer h fun ⟨_, hW, _⟩ => width_lt_port hlegal hW ((Nat.min_le_right _ _).trans (remBits_le _ _))
    | fsw f x =>
      exact n_lt_of_answer h fun ⟨_, hW, _⟩ => width_lt_port hlegal hW ((Nat.sub_le _ _).trans (remBits_le _ _))
    | getBits f x =>
      obtain ⟨_, hx⟩ := Bool.and_eq_true_iff.1 hwf
      exact n_lt_of_answer h fun ⟨_, hW, _⟩ => hport (hW.trans hWNW) (viewOf_lt hW hx)
    | toF32 f x =>
      exact n_lt_of_answer h fun ⟨hn, hW, _⟩ =>
        hport (le_trans (by decide) hNW) (toIeee_lt hn hW (w := single) (by decide) f.es _)
    | toF64 f x =>
      exact n_lt_of_answer h fun ⟨hn, hW, _⟩ => hport hNW (toIeee_lt hn hW (w := double) (by decide) f.es _)
    | _ => cases hw
  · exact hzero hw ▸ Nat.two_pow_pos _

/-! ## The invariant -/

theorem exec_responseFits {i : Instr} {s : State} {r : Response} (hlegal : s.cfg.legal = true)
    (hwf : i.wellFormed s.cfg = true) (h : exec i s = .next (s.answered r)) : responseFits s.cfg r = true := by
  cases r with
  | refused code => rfl
  | ok p =>
    obtain ⟨_, hr⟩ := exec_leftJustified hwf h
    simp [responseFits, hr, exec_record_wellFormed hlegal h, exec_n_lt hlegal hwf h]

theorem portsFit_answered {s : State} {r : Response} (hlegal : s.cfg.legal = true)
    (hr : responseFits s.cfg r = true) : portsFit (s.answered r) = true :=
  (portsFit_iff _).2 ⟨hlegal, rfl, hr⟩

/-- Every step keeps the invariant: it is idle, or answers with a response that fits. -/
theorem step_portsFit {s t : State} (hs : portsFit s = true) (h : step s = .next t) : portsFit t = true := by
  obtain ⟨hlegal, hrequest, _⟩ := (portsFit_iff s).1 hs
  obtain ⟨_, rfl⟩ | ⟨q, i, hq, hd, hexec⟩ | ⟨q, op, _, _, rfl⟩ := step_cases h
  · exact hs
  · rw [hq] at hrequest
    obtain ⟨r, rfl⟩ := exec_cases hexec
    exact portsFit_answered hlegal (exec_responseFits hlegal (decode_wellFormed hlegal hrequest hd) hexec)
  · exact portsFit_answered hlegal rfl

end Sys2Proof.Machine
end

section
/-! The obligations on the encoding (30_encoding.md). -/

namespace Sys2Proof

open Sys2Proof.Machine Sys2Proof.Safety

/-- Settles O1: the request is read back from its vector, and the instruction from its request. -/
theorem decodeOfEncodedVector : Obligations.DecodeOfEncodedVector :=
  fun _ _ hlegal hwf => decodeVector_encode hlegal hwf

/-- Settles O10: what an operation answers fits the ports, since its operands fitted theirs. -/
theorem stepKeepsPortsFit : Obligations.StepKeepsPortsFit := fun _ _ => step_portsFit

/-- Settles O2: what is decoded is the code, the parameters and the operands, and the ports hold each operand exactly. -/
theorem unreadFieldsAreIgnored : Obligations.UnreadFieldsAreIgnored := by
  refine ⟨fun c q q' i h hq => decode_of_agreeOn h hq, fun c q i hlegal hq h => ?_⟩
  have hwf := decode_wellFormed hlegal hq h
  exact ⟨hwf, agreeOn_requestOf hq h, decode_requestOf hlegal hwf⟩

/-- Settles O3: each field stands at the sum of the widths below it. -/
theorem recordsAsFlatVectors : Obligations.RecordsAsFlatVectors := by
  refine ⟨fun c q h => ⟨Request.ofVector_toVector h, q.toVector_lt c⟩, fun q h => ?_, fun p => ?_⟩
  · intro v
    have hq : Request.ofVector Config.default v = q := Request.ofVector_toVector h
    have hflag : ∀ {lo : Nat} {b : Bool}, sliceFlag v lo = b → slice v lo 1 = flagWord b :=
      fun hb => (flagWord_sliceFlag v _).symm.trans (congrArg flagWord hb)
    exact ⟨congrArg (·.op) hq, congrArg (·.nbits) hq, congrArg (·.es) hq,
      congrArg (·.a.bits) hq, hflag (congrArg (·.a.nan) hq), congrArg (·.b.bits) hq, hflag (congrArg (·.b.nan) hq),
      hflag (congrArg (·.record.sign) hq), congrArg (·.record.regime) hq, congrArg (·.record.exponent) hq,
      congrArg (·.record.fraction) hq, congrArg (·.raw) hq⟩
  · exact ⟨slice_concatFields (j := 0) rfl rfl, slice_concatFields (j := 1) rfl rfl,
      slice_concatFields (j := 2) rfl rfl, slice_concatFields (j := 3) rfl rfl, slice_concatFields (j := 4) rfl rfl,
      slice_concatFields (j := 5) rfl rfl, slice_concatFields (j := 6) rfl rfl, slice_concatFields (j := 7) rfl rfl,
      slice_concatFields (j := 8) rfl rfl⟩

/-- Settles O4, by running the decoder on the six words. -/
theorem decodingOfPrintedVectors : Obligations.DecodingOfPrintedVectors :=
  ⟨rfl, rfl, rfl, rfl, rfl, rfl⟩

/-- Settles O5: no operation has a reserved code. -/
theorem reservedCodesAreRefused : Obligations.ReservedCodesAreRefused := by
  intro s q hq hop
  obtain ⟨op, hd⟩ := decode_of_reservedCode hop s.cfg
  exact step_of_reserved hq hd

/-- Settles O14, by the parameter check that every operation makes first. -/
theorem illegalParametersAreRefused : Obligations.IllegalParametersAreRefused := by
  intro i s h
  refine exec_illegalParam (Bool.eq_false_iff.2 fun hlegal => ?_)
  obtain ⟨hn, hW, hes⟩ := (paramsLegal_iff s.cfg i.fmt).1 hlegal
  omega

/-- Settles O15: the reply an operation writes, and the wires of each kind of response. -/
theorem responseFieldsAndWires : Obligations.ResponseFieldsAndWires := by
  refine ⟨fun i s p h => exec_writesOnly h, fun c any p => ?_, fun c w => ⟨rfl, rfl, rfl⟩, fun c any rsp => ?_⟩
  · refine ⟨rfl, fun b hb => ?_, fun hr => ?_, flagWord_eq_one_iff _, flagWord_lt _, wordOfRegime_eq_emod _ _, rfl, rfl,
      rfl, flagWord_eq_one_iff _, flagWord_lt _⟩
    · simp [Response.onPort, hb]
    · simp [Response.onPort, hr]
  · cases rsp <;> rfl

end Sys2Proof
end

section
/-! Field arithmetic (40_field_arithmetic.md): what the width operations answer, the maximal run, the sum of the widths,
and the splitting of a combined exponent. -/

namespace Sys2Proof.Machine

open Sys2Proof.Safety

variable {f : Fmt} {s : State}

/-! ## Operations on the raw view (R55 (c)) -/

/-- An operation on the raw view of a packed value answers what it computes from that view. -/
theorem answer_packed (h : FmtLegal s.cfg f) (v : Nat) (result : Nat → Reply) :
    answer (paramsLegal s.cfg f) (readable s.cfg f.nbits (packed s.cfg f.nbits v))
      (result (viewOf s.cfg f.nbits (packed s.cfg f.nbits v))) s = .next (s.answered (.ok (result v))) := by
  simp [packed, (paramsLegal_iff s.cfg f).2 h]

theorem readable_eq_false {c : Config} {n : Nat} {x : Value} (h : x = .nan ∨ Stray c n x) :
    readable c n x = false := by
  rcases h with rfl | hstray
  · rfl
  · cases x with
    | nan => rfl
    | finite b => exact decide_eq_false hstray

/-- A NaN or a word with stray low bits is refused by every operation that reads a raw view. -/
theorem answer_unreadable (h : FmtLegal s.cfg f) {x : Value} (hx : x = .nan ∨ Stray s.cfg f.nbits x) (p : Reply) :
    answer (paramsLegal s.cfg f) (readable s.cfg f.nbits x) p s =
      .next (s.answered (.refused .illegalOperand)) := by
  rw [(paramsLegal_iff s.cfg f).2 h, readable_eq_false hx, answer_illegalOperand]

/-! ## The field widths (R71 to R74) -/

theorem exec_ssw (h : FmtLegal s.cfg f) : exec (.ssw f) s = .next (s.answered (.ok (.ofNat 1))) := by
  simp [exec, execSsw, (paramsLegal_iff s.cfg f).2 h]

theorem exec_rsw_packed (h : FmtLegal s.cfg f) (v : Nat) :
    exec (.rsw f (packed s.cfg f.nbits v)) s = .next (s.answered (.ok (.ofNat (runLen v f.nbits)))) :=
  answer_packed h v fun v => .ofNat (runLen v f.nbits)

theorem exec_esw_packed (h : FmtLegal s.cfg f) (v : Nat) :
    exec (.esw f (packed s.cfg f.nbits v)) s = .next (s.answered (.ok (.ofNat (expWidth v f.nbits f.es)))) :=
  answer_packed h v fun v => .ofNat (expWidth v f.nbits f.es)

theorem exec_fsw_packed (h : FmtLegal s.cfg f) (v : Nat) :
    exec (.fsw f (packed s.cfg f.nbits v)) s = .next (s.answered (.ok (.ofNat (fracWidth v f.nbits f.es)))) :=
  answer_packed h v fun v => .ofNat (fracWidth v f.nbits f.es)

theorem testBit_of_lt_runLen {p n i : Nat} (h : i < runLen p n) : p.testBit (n - 2 - i) = p.testBit (n - 2) :=
  testBit_of_lt_runFrom p (runBit p n) (n - 1) i h

theorem testBit_at_runLen {p n : Nat} (h : runLen p n < n - 1) :
    p.testBit (n - 2 - runLen p n) ≠ p.testBit (n - 2) :=
  testBit_at_runFrom p (runBit p n) (n - 1) h

/-- Sign, run, terminator and the bits that remain make up the view (R75). -/
theorem runLen_add_term_add_remBits (p : Nat) {n : Nat} (hn : 1 ≤ n) : 1 + runLen p n + term p n + remBits p n = n := by
  have hle := runLen_le p n
  unfold remBits term
  split <;> omega

/-! ## USEED (R79) -/

theorem exec_useed (h : FmtLegal s.cfg f) (hfits : 2 ^ f.es < s.cfg.NW) :
    exec (.useed f) s = .next (s.answered (.ok (.ofNat (2 ^ 2 ^ f.es)))) := by
  simp [exec, execUseed, useedOf, (paramsLegal_iff s.cfg f).2 h, hfits]

theorem exec_useed_of_le (hwide : s.cfg.NW ≤ 2 ^ f.es) :
    exec (.useed f) s = .next (s.answered (.refused .illegalParam)) := by
  simp [exec, execUseed, Nat.not_lt.2 hwide]

/-! ## Splitting a combined exponent (R28, R78) -/

/-- The two parts of an integer combine to it. -/
theorem regimePart_exponentPart_eq (e : Int) (es : Nat) :
    ((2 ^ es : Nat) : Int) * regimePart e es + (exponentPart e es : Int) = e := by
  rw [exponentPart_eq]
  exact Int.mul_ediv_add_emod e _

/-- The parts of a record's combined exponent are its own, since no other record has that combined exponent. -/
theorem parts_combined {es : Nat} {r : Record} (hr : r.exponent < 2 ^ es) :
    regimePart (combined es r) es = r.regime ∧ exponentPart (combined es r) es = r.exponent :=
  regime_exponent_of_combined_eq
    (r := { r with regime := regimePart (combined es r) es, exponent := exponentPart (combined es r) es })
    (exponentPart_lt _ es) hr (regimePart_exponentPart_eq (combined es r) es)

end Sys2Proof.Machine
end

section
/-! The obligations on field arithmetic (40_field_arithmetic.md). -/

namespace Sys2Proof

open Sys2Proof.Machine Sys2Proof.Safety

/-- Settles O19: the scan stops at the first bit that differs from the bit after the sign. -/
theorem regimeWidthIsTheMaximalRun : Obligations.RegimeWidthIsTheMaximalRun := by
  refine fun s f hf => ⟨fun v _ => ⟨runLen v f.nbits, exec_rsw_packed hf v, ?_⟩, fun x hx => answer_unreadable hf hx _⟩
  obtain ⟨hn, _, _⟩ := hf
  exact ⟨runLen_pos v hn, runLen_le v f.nbits, fun _ => testBit_of_lt_runLen, testBit_at_runLen⟩

/-- Settles O21: what remains after sign, run and terminator is shared out between exponent and fraction. -/
theorem widthsSumToNbits : Obligations.WidthsSumToNbits := by
  intro s f v hf _
  refine ⟨_, _, _, _, exec_ssw hf, exec_rsw_packed hf v, exec_esw_packed hf v, exec_fsw_packed hf v, ?_⟩
  obtain ⟨hn, _, _⟩ := hf
  calc 1 + runLen v f.nbits + term v f.nbits + expWidth v f.nbits f.es + fracWidth v f.nbits f.es
      = 1 + runLen v f.nbits + term v f.nbits + remBits v f.nbits := by rw [Nat.add_assoc, expWidth_add_fracWidth]
    _ = f.nbits := runLen_add_term_add_remBits v (by omega)

/-- Settles O23: floor division by `2^es` leaves a remainder in `[0, 2^es)`, and only one pair of parts combines to a
given integer. -/
theorem decompInvertsCombinedExponent : Obligations.DecompInvertsCombinedExponent :=
  ⟨fun e es => ⟨exponentPart_lt e es, regimePart_exponentPart_eq e es⟩, fun _ _ => parts_combined⟩

/-- Settles O20: the bits that remain after the run are `max(0, n - 2 - m)` many. -/
theorem exponentAndFractionWidths : Obligations.ExponentAndFractionWidths := by
  refine fun s f hf => ⟨fun v _ => ⟨_, exec_rsw_packed hf v, ?_⟩, fun x hx =>
    ⟨answer_unreadable hf hx _, answer_unreadable hf hx _⟩⟩
  rw [← remBits_eq]
  exact ⟨exec_esw_packed hf v, exec_fsw_packed hf v⟩

/-- Settles O22, by the operations' own parameter checks. -/
theorem signWidthAndUseed : Obligations.SignWidthAndUseed :=
  fun _ _ hf => ⟨exec_ssw hf, exec_useed hf, exec_useed_of_le⟩

end Sys2Proof
end

section
/-! PACK (R95 to R101): its checks, the magnitude as the first bits of the string `S`, the two ends of the regime range,
and the sign step, which undoes UNPACK's magnitude (R91, R99). -/

namespace Sys2Proof.Machine

open Sys2Proof.Safety

variable {c : Config} {n es : Nat} {r : Record}

/-! ## The checks -/

theorem exec_pack {f : Fmt} {s : State} (h : FmtLegal s.cfg f) (he : r.exponent < 2 ^ f.es) :
    exec (.pack f r) s =
      .next (s.answered (.ok (.ofValue (packed s.cfg f.nbits (packView s.cfg f.nbits f.es r))))) := by
  simp [exec, execPack, packed, recordLegal, (paramsLegal_iff s.cfg f).2 h, he]

theorem exec_pack_of_le {f : Fmt} {s : State} (h : FmtLegal s.cfg f) (he : 2 ^ f.es ≤ r.exponent) :
    exec (.pack f r) s = .next (s.answered (.refused .illegalOperand)) := by
  have hrecord : recordLegal f r = false := decide_eq_false (Nat.not_lt.2 he)
  simp [exec, execPack, (paramsLegal_iff s.cfg f).2 h, hrecord]

/-! ## The ends of the regime range (R97) -/

theorem packBody_of_high (h : (n : Int) - 2 ≤ r.regime) : packBody c n es r = 2 ^ (n - 1) - 1 := if_pos h

theorem packBody_of_low (hn : 2 ≤ n) (h : r.regime ≤ 1 - (n : Int)) : packBody c n es r = 0 := by
  rw [packBody, if_neg (by omega), if_pos h]

/-- Exponent and fraction stand below the regime code. -/
theorem packWord_div (he : r.exponent < 2 ^ es) (hf : r.fraction < 2 ^ c.W) :
    packWord c es r / 2 ^ (es + c.W) = regcodeWord r.regime := by
  rw [packWord, Nat.mul_comm, Nat.mul_add_div (Nat.two_pow_pos _), Nat.div_eq_of_lt (exponent_fraction_lt he hf),
    Nat.add_zero]

/-- The regime code that ends with the last of the `n - 1` bits. -/
theorem packBody_of_lowest (hn : 2 ≤ n) (he : r.exponent < 2 ^ es) (hf : r.fraction < 2 ^ c.W)
    (h : r.regime = 2 - (n : Int)) : packBody c n es r = 1 := by
  rcases hn.eq_or_lt with rfl | hn3
  · exact packBody_of_high (by omega)
  · have hlen : regcodeLen r.regime + es + c.W - (n - 1) = es + c.W := by
      rw [regcodeLen, if_neg (by omega)]
      omega
    rw [packBody, if_neg (by omega), if_neg (by omega), hlen]
    exact (packWord_div he hf).trans (if_neg (by omega))

/-! ## The first `n - 1` bits of `S` (R95) -/

theorem regcodeWord_div_of_high {k : Nat} {i : Int} (h0 : 0 ≤ i) (hk : k < regcodeLen i) :
    regcodeWord i / 2 ^ (regcodeLen i - k) = 2 ^ k - 1 := by
  have hlen : (2 : Nat) ^ regcodeLen i = 2 ^ (regcodeLen i - k) * 2 ^ k := by rw [← pow_add, Nat.sub_add_cancel hk.le]
  have htwo : 2 ≤ 2 ^ (regcodeLen i - k) := Nat.le_self_pow (by omega) 2
  obtain ⟨m, hm⟩ : ∃ m, 2 ^ k = m + 1 := Nat.exists_eq_add_one_of_ne_zero (Nat.two_pow_pos k).ne'
  rw [regcodeWord, if_pos h0, hlen, hm, mul_add, Nat.add_sub_assoc (by omega), Nat.mul_add_div (by omega),
    Nat.div_eq_of_lt (by omega)]
  rfl

/-- One formula for the magnitude: at its saturated ends too PACK keeps the leading `n - 1` bits (R97). -/
theorem packBody_eq_div (hn : 2 ≤ n) (he : r.exponent < 2 ^ es) (hf : r.fraction < 2 ^ c.W) :
    packBody c n es r = packWord c es r / 2 ^ (regcodeLen r.regime + (es + c.W) - (n - 1)) := by
  have hsaturated (hlen : n ≤ regcodeLen r.regime) :
      packWord c es r / 2 ^ (regcodeLen r.regime + (es + c.W) - (n - 1)) =
        regcodeWord r.regime / 2 ^ (regcodeLen r.regime - (n - 1)) := by
    rw [show regcodeLen r.regime + (es + c.W) - (n - 1) = es + c.W + (regcodeLen r.regime - (n - 1)) by omega, pow_add,
      ← Nat.div_div_eq_div_mul, packWord_div he hf]
  rcases le_or_gt ((n : Int) - 2) r.regime with hhi | hhi
  · have hlen : n ≤ regcodeLen r.regime := by rw [regcodeLen, if_pos (by omega)]; omega
    rw [packBody_of_high hhi, hsaturated hlen, regcodeWord_div_of_high (by omega) (by omega)]
  rcases le_or_gt r.regime (1 - (n : Int)) with hlo | hlo
  · have hlen : n ≤ regcodeLen r.regime := by rw [regcodeLen, if_neg (by omega)]; omega
    have hword : regcodeWord r.regime = 1 := if_neg (by omega)
    rw [packBody_of_low hn hlo, hsaturated hlen, hword, Nat.div_eq_of_lt (Nat.one_lt_two_pow (by omega))]
  · rw [packBody, if_neg (by omega), if_neg (by omega), Nat.add_assoc]
    rfl

theorem natOfBits_take_bitString {k v : Nat} (j : Nat) (hv : v < 2 ^ (j + k)) :
    natOfBits ((bitString (j + k) v).take j) = v / 2 ^ k := by
  rw [bitString_add, List.take_left' (bitString_length _ _), natOfBits_bitString, Nat.mod_eq_of_lt]
  exact Nat.div_lt_of_lt_mul (by rwa [← pow_add, Nat.add_comm])

/-- PACK's arithmetic reads the first `n - 1` bits of the string `S`. -/
theorem natOfBits_take_packString (hn : 2 ≤ n) (hW : n ≤ c.W) (he : r.exponent < 2 ^ es) (hf : r.fraction < 2 ^ c.W) :
    natOfBits ((packString c es r).take (n - 1)) = packBody c n es r := by
  have hsplit : regcodeLen r.regime + (es + c.W) =
      n - 1 + (regcodeLen r.regime + (es + c.W) - (n - 1)) := by omega
  have hlt := packWord_lt he hf
  rw [hsplit] at hlt
  rw [packString_eq_bitString he hf, hsplit, natOfBits_take_bitString _ hlt, packBody_eq_div hn he hf]

/-! ## The magnitude after CLIP (R101) -/

theorem two_pow_le_regcodeWord {i : Int} (hn : 2 ≤ n) (h : 2 - (n : Int) ≤ i) :
    2 ^ (regcodeLen i - (n - 1)) ≤ regcodeWord i := by
  rcases le_or_gt 0 i with h0 | h0
  · have hlen : 2 ≤ regcodeLen i := by rw [regcodeLen, if_pos h0]; omega
    have htwo : 2 ≤ 2 ^ (regcodeLen i - 1) := Nat.le_self_pow (by omega) 2
    have hdouble := two_pow_eq_double (n := regcodeLen i) (by omega)
    rw [regcodeWord, if_pos h0]
    exact (Nat.pow_le_pow_right (by decide) (by omega : _ ≤ regcodeLen i - 1)).trans (by omega)
  · have hlen : regcodeLen i - (n - 1) = 0 := by rw [regcodeLen, if_neg (by omega)]; omega
    rw [hlen, regcodeWord, if_neg (by omega), pow_zero]

/-- From regime `-(n-2)` on a one bit of the regime code is kept. -/
theorem packBody_pos (hn : 2 ≤ n) (he : r.exponent < 2 ^ es) (hf : r.fraction < 2 ^ c.W)
    (h : 2 - (n : Int) ≤ r.regime) : 0 < packBody c n es r := by
  rw [packBody_eq_div hn he hf]
  refine Nat.div_pos ?_ (Nat.two_pow_pos _)
  calc 2 ^ (regcodeLen r.regime + (es + c.W) - (n - 1))
      ≤ 2 ^ (regcodeLen r.regime - (n - 1) + (es + c.W)) := Nat.pow_le_pow_right (by decide) (by omega)
    _ = 2 ^ (regcodeLen r.regime - (n - 1)) * 2 ^ (es + c.W) := pow_add 2 _ _
    _ ≤ regcodeWord r.regime * 2 ^ (es + c.W) := Nat.mul_le_mul_right _ (two_pow_le_regcodeWord hn h)
    _ ≤ packWord c es r := Nat.le_add_right _ _

theorem le_regimePart_clip (hn : 2 ≤ n) (e : Int) (es : Nat) : 2 - (n : Int) ≤ regimePart (clip e n es) es := by
  refine Int.le_ediv_of_mul_le (by exact_mod_cast Nat.two_pow_pos es) (le_trans (le_of_eq ?_) (cmin_le_clip e n es))
  rw [cmin, cmax, Nat.cast_mul, Nat.cast_sub hn]
  push_cast
  ring

/-! ## The sign step (R99) -/

theorem or_two_pow_of_le {q : Nat} (hn : 1 ≤ n) (hlo : 2 ^ (n - 1) ≤ q) (hhi : q < 2 ^ n) : q ||| 2 ^ (n - 1) = q := by
  have hsign : q.testBit (n - 1) = true := (signBit_eq_decide hn hhi).trans (decide_eq_true hlo)
  refine Nat.eq_of_testBit_eq fun i => ?_
  rw [Nat.testBit_or, Nat.testBit_two_pow]
  rcases eq_or_ne (n - 1) i with rfl | hi
  · simp [hsign]
  · simp [hi]

/-- The sign of the all-zero magnitude tells `INF` from `ZERO`. -/
theorem packSign_zero (n : Nat) (sign : Bool) : packSign n sign 0 = if sign then 2 ^ (n - 1) else 0 := by
  simp [packSign]

/-- The sign bit of the two's complement of a magnitude is set already. -/
theorem packSign_of_pos (sign : Bool) {p : Nat} (hn : 1 ≤ n) (h0 : 0 < p) (hp : p < 2 ^ (n - 1)) :
    packSign n sign p = if sign then 2 ^ n - p else p := by
  have hdouble := two_pow_eq_double hn
  rw [packSign, Nat.mod_eq_of_lt (by omega), or_two_pow_of_le hn (by omega) (by omega)]

theorem denotes_packSign (sign : Bool) {p : Nat} (hn : 1 ≤ n) (h0 : 0 < p) (hp : p < 2 ^ (n - 1)) :
    Denotes n (packSign n sign p) := by
  have hdouble := two_pow_eq_double hn
  rw [packSign_of_pos sign hn h0 hp]
  split
  · exact ⟨by omega, by omega, by omega⟩
  · exact ⟨by omega, by omega, by omega⟩

/-- PACK's sign step undoes the magnitude step of UNPACK. -/
theorem packSign_mag {v : Nat} (hn : 1 ≤ n) (h : Denotes n v) : packSign n (signBit n v) (mag n v) = v := by
  rw [packSign_of_pos _ hn (mag_pos hn h) (mag_lt hn h)]
  cases hs : signBit n v with
  | false => exact mag_of_clear hs
  | true => exact (congrArg (2 ^ n - ·) (mag_of_set hs)).trans (Nat.sub_sub_self h.1.le)

theorem denotes_packClipped (hn : 2 ≤ n) (hW : n ≤ c.W) (es : Nat) (sign : Bool) (e : Int) {f : Nat}
    (hf : f < 2 ^ c.W) : Denotes n (packClipped c n es sign e f) :=
  have he := exponentPart_lt (clip e n es) es
  denotes_packSign sign (by omega) (packBody_pos hn he hf (le_regimePart_clip hn e es)) (packBody_lt hW he hf)

end Sys2Proof.Machine
end

section
/-! UNPACK of the sentinel patterns (R94), and PACK after UNPACK on every view (R100). -/

namespace Sys2Proof.Machine

open Sys2Proof.Safety

variable {c : Config} {n : Nat}

/-! ## The fields of the sentinels' magnitudes -/

theorem runFrom_of_forall {p : Nat} {b : Bool} {k : Nat} (h : ∀ i < k, p.testBit i = b) : runFrom p b k = k := by
  induction k with
  | zero => rfl
  | succ k ih => rw [runFrom, if_pos (h k k.lt_succ_self), ih fun i hi => h i (by omega)]

/-- The scan of a pattern that is zero below the sign bit runs to the end. -/
theorem runLen_of_clear {p : Nat} (hn : 2 ≤ n) (h : ∀ i < n - 1, p.testBit i = false) : runLen p n = n - 1 := by
  rw [runLen, runBit, h (n - 2) (by omega), runFrom_of_forall h]

theorem regimeOf_of_clear {p : Nat} (hn : 2 ≤ n) (h : ∀ i < n - 1, p.testBit i = false) :
    regimeOf p n = 1 - (n : Int) := by
  have hb : runBit p n = false := h (n - 2) (by omega)
  rw [regimeOf, hb, if_neg Bool.false_ne_true, runLen_of_clear hn h]
  omega

theorem runLen_oneView (hn : 2 ≤ n) : runLen (oneView n) n = 1 := by
  obtain ⟨k, rfl⟩ := Nat.exists_eq_add_of_le' hn
  cases k with
  | zero => rfl
  | succ k => simp [runLen, runBit, oneView, runFrom]

theorem regimeOf_oneView (hn : 2 ≤ n) : regimeOf (oneView n) n = 0 := by
  have hb : runBit (oneView n) n = true := Nat.testBit_two_pow_self
  rw [regimeOf, if_pos hb, runLen_oneView hn]
  rfl

/-! ## The records of the sentinels (R94) -/

/-- A pattern with nothing but zeros after its regime has exponent and fraction 0. -/
theorem unpackView_of_rest_zero (c : Config) (es : Nat) {v : Nat} (h : mag n v % 2 ^ remBits (mag n v) n = 0) :
    unpackView c n es v = ⟨signBit n v, regimeOf (mag n v) n, 0, 0⟩ := by
  simp [unpackView, h]

theorem unpackView_of_clear (c : Config) (es : Nat) {v : Nat} (hn : 2 ≤ n)
    (h : ∀ i < n - 1, (mag n v).testBit i = false) : unpackView c n es v = ⟨signBit n v, 1 - (n : Int), 0, 0⟩ := by
  have hrem : remBits (mag n v) n = 0 := by rw [remBits_eq, runLen_of_clear hn h]; omega
  rw [unpackView_of_rest_zero c es (by rw [hrem, pow_zero, Nat.mod_one]), regimeOf_of_clear hn h]

theorem unpackView_of_mag_eq_oneView (c : Config) (es : Nat) {v : Nat} (hn : 2 ≤ n) (h : mag n v = oneView n) :
    unpackView c n es v = ⟨signBit n v, 0, 0, 0⟩ := by
  have hrest : oneView n % 2 ^ remBits (oneView n) n = 0 := by
    rw [remBits_eq, runLen_oneView hn]
    exact Nat.mod_eq_zero_of_dvd (pow_dvd_pow 2 (Nat.sub_le _ _))
  rw [unpackView_of_rest_zero c es (by rwa [h]), h, regimeOf_oneView hn]

theorem unpackView_zeroView (c : Config) (es : Nat) (hn : 2 ≤ n) :
    unpackView c n es zeroView = ⟨false, 1 - (n : Int), 0, 0⟩ := by
  have hsign : signBit n zeroView = false := Nat.zero_testBit _
  rw [unpackView_of_clear c es hn fun i _ => by rw [mag_of_clear hsign]; exact Nat.zero_testBit i, hsign]

theorem unpackView_infView (c : Config) (es : Nat) (hn : 2 ≤ n) :
    unpackView c n es (infView n) = ⟨true, 1 - (n : Int), 0, 0⟩ := by
  have hsign : signBit n (infView n) = true := Nat.testBit_two_pow_self
  have hdouble := two_pow_eq_double (n := n) (by omega)
  have hmag : mag n (infView n) = infView n := by rw [mag_of_set hsign, infView]; omega
  rw [unpackView_of_clear c es hn fun i hi => by rw [hmag]; exact Nat.testBit_two_pow_of_ne hi.ne', hsign]

theorem unpackView_oneView (c : Config) (es : Nat) (hn : 2 ≤ n) :
    unpackView c n es (oneView n) = ⟨false, 0, 0, 0⟩ := by
  have hsign : signBit n (oneView n) = false := Nat.testBit_two_pow_of_ne (by omega)
  rw [unpackView_of_mag_eq_oneView c es hn (mag_of_clear hsign), hsign]

/-- `MONE` is sign and first regime bit (R24). -/
theorem moneView_eq (hn : 2 ≤ n) : moneView n = 2 ^ (n - 1) + 2 ^ (n - 2) := by
  have hdouble := two_pow_eq_double (n := n) (by omega)
  have hdouble' : 2 ^ (n - 1) = 2 * 2 ^ (n - 2) := two_pow_eq_double (n := n - 1) (by omega)
  rw [moneView]
  omega

theorem unpackView_moneView (c : Config) (es : Nat) (hn : 2 ≤ n) :
    unpackView c n es (moneView n) = ⟨true, 0, 0, 0⟩ := by
  have hsign : signBit n (moneView n) = true := by
    rw [signBit_eq_decide (by omega) (moneView_lt n), moneView_eq hn]
    exact decide_eq_true (Nat.le_add_right _ _)
  have hmag : mag n (moneView n) = oneView n :=
    (mag_of_set hsign).trans (Nat.sub_sub_self (oneView_lt hn).le)
  rw [unpackView_of_mag_eq_oneView c es hn hmag, hsign]

/-! ## PACK after UNPACK (R100) -/

theorem packView_unpackView (hn : 2 ≤ n) (hW : n ≤ c.W) (es : Nat) {v : Nat} (hv : v < 2 ^ n) :
    packView c n es (unpackView c n es v) = v := by
  rcases eq_or_ne v zeroView with rfl | h0
  · rw [unpackView_zeroView c es hn, packView, packBody_of_low hn le_rfl, packSign_zero]
    rfl
  rcases eq_or_ne v (infView n) with rfl | hinf
  · rw [unpackView_infView c es hn, packView, packBody_of_low hn le_rfl, packSign_zero]
    rfl
  · have h : Denotes n v := ⟨hv, h0, hinf⟩
    rw [packView, packBody_unpackView hn hW es h, unpackView_sign, packSign_mag (by omega) h]

end Sys2Proof.Machine
end

section
/-! The obligations on the codec (41_codec.md). -/

namespace Sys2Proof

open Sys2Proof.Machine Sys2Proof.Safety

/-- Settles O29: a view that denotes a number is rebuilt from its fields, `ZERO` and `INF` from the saturated regime and
the sign. -/
theorem packOfUnpackIsIdentity : Obligations.PackOfUnpackIsIdentity := by
  intro s f v hf hv
  have ⟨hn, hW, _⟩ := hf
  refine ⟨_, exec_unpack_packed hf v, ?_⟩
  rw [exec_pack hf (unpackView_exponent_lt s.cfg f.nbits f.es v), packView_unpackView hn hW f.es hv]

/-- Settles O27: the quotient of rule R97 is the leading bits of the string. -/
theorem packTakesTheFirstBitsOfS : Obligations.PackTakesTheFirstBitsOfS := by
  intro s f r hf hfrac
  have ⟨hn, hW, _⟩ := hf
  refine ⟨fun he => ?_, exec_pack_of_le hf⟩
  rw [exec_pack hf he, natOfBits_take_packString hn hW he hfrac]
  rfl

/-- Settles O28, by the magnitude at each end of the regime range. -/
theorem packSaturates : Obligations.PackSaturates := by
  intro s f r hf he hfrac
  have ⟨hn, hW, _⟩ := hf
  have hdouble := two_pow_eq_double (n := f.nbits) (by omega)
  have htwo : 2 ≤ 2 ^ (f.nbits - 1) := Nat.le_self_pow (by omega) 2
  rw [exec_pack hf he, packView]
  refine ⟨fun h => ?_, fun h => ?_, fun h => ?_⟩
  · rw [packBody_of_high h, packSign_of_pos _ (by omega) (by omega) (by omega),
      show 2 ^ f.nbits - (2 ^ (f.nbits - 1) - 1) = 2 ^ (f.nbits - 1) + 1 by omega]
  · rw [packBody_of_lowest hn he hfrac h, packSign_of_pos _ (by omega) (by omega) (by omega)]
  · rw [packBody_of_low hn h, packSign_zero]

/-- Settles O30: the clipped regime is at least `-(n-2)`, so the magnitude is not 0. -/
theorem clippedPackIsFiniteNonzero : Obligations.ClippedPackIsFiniteNonzero :=
  fun _ _ es sign e _ hn hW hf => denotes_packClipped hn hW es sign e hf

/-- Settles O24: below the sign `ZERO` and `INF` are a run of zeros to the end, `ONE` and the magnitude of `MONE` a run
of one bit. -/
theorem unpackOfSentinels : Obligations.UnpackOfSentinels := by
  intro s f hf
  have ⟨hn, _, _⟩ := hf
  have hanswer {v : Nat} {r : Record} (h : unpackView s.cfg f.nbits f.es v = r) :
      exec (.unpack f (packed s.cfg f.nbits v)) s = .next (s.answered (.ok (.ofRecord r))) :=
    h ▸ exec_unpack_packed hf v
  exact ⟨hanswer (unpackView_zeroView _ _ hn), hanswer (unpackView_infView _ _ hn), hanswer (unpackView_oneView _ _ hn),
    hanswer (moneView_eq hn ▸ unpackView_moneView _ _ hn)⟩

end Sys2Proof
end

section
/-! An IEEE pattern is its three fields side by side (R110), and FROMIEEE classifies a raw pattern by its bits below the
sign: zero or subnormal, normal, infinity, NaN (R111, R112). -/

namespace Sys2Proof.Machine

variable {c : Config} {n : Nat} {w : IeeeFmt}

/-! ## The fields of a pattern (R110) -/

theorem ieeePattern_eq_add (sign : Bool) {iexp ifrac : Nat} (he : iexp < 2 ^ w.ew) (hf : ifrac < 2 ^ w.fw) :
    ieeePattern w sign iexp ifrac = flagWord sign * 2 ^ (w.ew + w.fw) + iexp * 2 ^ w.fw + ifrac := by
  have hexp : iexp * 2 ^ w.fw + ifrac < 2 ^ (w.ew + w.fw) := by
    calc iexp * 2 ^ w.fw + ifrac
        < (iexp + 1) * 2 ^ w.fw := by rw [add_mul]; omega
      _ ≤ 2 ^ w.ew * 2 ^ w.fw := Nat.mul_le_mul_right _ he
      _ = 2 ^ (w.ew + w.fw) := (pow_add 2 _ _).symm
  rw [ieeePattern, Nat.or_assoc, mul_comm iexp, ← Nat.two_pow_add_eq_or_of_lt hf, mul_comm (flagWord sign),
    ← Nat.two_pow_add_eq_or_of_lt (by rwa [mul_comm]), Nat.add_assoc]

theorem ieeePattern_eq_concatFields (sign : Bool) {iexp ifrac : Nat} (he : iexp < 2 ^ w.ew) (hf : ifrac < 2 ^ w.fw) :
    ieeePattern w sign iexp ifrac = concatFields [(w.fw, ifrac), (w.ew, iexp), (1, flagWord sign)] := by
  rw [ieeePattern_eq_add sign he hf]
  simp only [concatFields, Nat.mod_eq_of_lt he, Nat.mod_eq_of_lt hf, Nat.mod_eq_of_lt (flagWord_lt sign), pow_one,
    pow_add]
  ring

theorem ieeeSign_eq_sliceFlag (w : IeeeFmt) (raw : Nat) : ieeeSign w raw = sliceFlag raw (w.ew + w.fw) := by
  rw [ieeeSign, Nat.testBit_eq_decide_div_mod_eq]
  rfl

theorem ieeeSign_ieeePattern (sign : Bool) {iexp ifrac : Nat} (he : iexp < 2 ^ w.ew) (hf : ifrac < 2 ^ w.fw) :
    ieeeSign w (ieeePattern w sign iexp ifrac) = sign := by
  rw [ieeeSign_eq_sliceFlag, ieeePattern_eq_concatFields sign he hf]
  exact sliceFlag_concatFields (j := 2) rfl (by simp [Nat.add_comm])

theorem ieeeExp_ieeePattern (sign : Bool) {iexp ifrac : Nat} (he : iexp < 2 ^ w.ew) (hf : ifrac < 2 ^ w.fw) :
    ieeeExp w (ieeePattern w sign iexp ifrac) = iexp := by
  rw [ieeeExp, ieeePattern_eq_concatFields sign he hf]
  exact slice_concatFields_of_lt he (j := 1) rfl rfl

theorem ieeeFrac_ieeePattern (sign : Bool) {iexp ifrac : Nat} (he : iexp < 2 ^ w.ew) (hf : ifrac < 2 ^ w.fw) :
    ieeeFrac w (ieeePattern w sign iexp ifrac) = ifrac := by
  rw [ieeeFrac, ieeePattern_eq_concatFields sign he hf]
  exact slice_concatFields_of_lt hf (j := 0) rfl rfl

theorem ones_lt (w : IeeeFmt) : w.ones < 2 ^ w.ew := Nat.sub_lt (Nat.two_pow_pos _) Nat.one_pos

theorem ones_pos (hew : 1 ≤ w.ew) : 0 < w.ones := Nat.sub_pos_of_lt (Nat.one_lt_two_pow (by omega))

theorem ones_eq (hew : 1 ≤ w.ew) : w.ones = 2 * w.bias + 1 := by
  have hdouble := two_pow_eq_double hew
  have hpos := Nat.two_pow_pos (w.ew - 1)
  unfold IeeeFmt.ones IeeeFmt.bias
  omega

/-! ## FROMIEEE by the bits below the sign (R112) -/

theorem ieeeExp_eq_div (w : IeeeFmt) (raw : Nat) : ieeeExp w raw = raw % 2 ^ (w.ew + w.fw) / 2 ^ w.fw := by
  rw [Nat.add_comm, pow_add, Nat.mod_mul_right_div_self]
  rfl

theorem ieeeFrac_eq_mod (w : IeeeFmt) (raw : Nat) : ieeeFrac w raw = raw % 2 ^ (w.ew + w.fw) % 2 ^ w.fw := by
  rw [Nat.mod_mod_of_dvd _ (pow_dvd_pow 2 (Nat.le_add_left _ _))]
  simp [ieeeFrac, slice]

/-- IEEE zeros and subnormals (R112 (a)). -/
theorem fromIeee_of_lt {raw : Nat} (es : Nat) (h : raw % 2 ^ (w.ew + w.fw) < 2 ^ w.fw) :
    fromIeee c w n es raw = .view zeroView :=
  if_pos ((ieeeExp_eq_div w raw).trans (Nat.div_eq_of_lt h))

/-- IEEE infinities (R112 (b)). -/
theorem fromIeee_of_eq (hew : 1 ≤ w.ew) {raw : Nat} (es : Nat) (h : raw % 2 ^ (w.ew + w.fw) = w.ones * 2 ^ w.fw) :
    fromIeee c w n es raw = .view (infView n) := by
  have hexp : ieeeExp w raw = w.ones := by rw [ieeeExp_eq_div, h, Nat.mul_div_cancel _ (Nat.two_pow_pos _)]
  have hfrac : ieeeFrac w raw = 0 := by rw [ieeeFrac_eq_mod, h, Nat.mul_mod_left]
  rw [fromIeee, hexp, if_neg (ones_pos hew).ne', if_pos rfl, if_pos hfrac]

/-- IEEE NaNs (R112 (c)). -/
theorem fromIeee_of_gt (hew : 1 ≤ w.ew) {raw : Nat} (es : Nat) (h : w.ones * 2 ^ w.fw < raw % 2 ^ (w.ew + w.fw)) :
    fromIeee c w n es raw = .nan := by
  have hexp : ieeeExp w raw = w.ones := by
    refine le_antisymm (Nat.le_sub_one_of_lt (slice_lt raw w.fw w.ew)) ?_
    rw [ieeeExp_eq_div]
    exact (Nat.le_div_iff_mul_le (Nat.two_pow_pos _)).2 h.le
  have hfrac : ieeeFrac w raw ≠ 0 := by
    have hsplit := Nat.div_add_mod' (raw % 2 ^ (w.ew + w.fw)) (2 ^ w.fw)
    rw [← ieeeExp_eq_div, ← ieeeFrac_eq_mod, hexp] at hsplit
    omega
  rw [fromIeee, hexp, if_neg (ones_pos hew).ne', if_pos rfl, if_neg hfrac]

/-- IEEE normal numbers (R111). -/
theorem fromIeee_normal (c : Config) (n es : Nat) (sign : Bool) {iexp ifrac : Nat} (h0 : 0 < iexp) (h1 : iexp < w.ones)
    (hf : ifrac < 2 ^ w.fw) :
    fromIeee c w n es (flagWord sign * 2 ^ (w.ew + w.fw) + iexp * 2 ^ w.fw + ifrac) =
      .view (packClipped c n es sign ((iexp : Int) - (w.bias : Int)) (rescale w.fw c.W ifrac)) := by
  have he := h1.trans (ones_lt w)
  rw [← ieeePattern_eq_add sign he hf, fromIeee, ieeeExp_ieeePattern sign he hf, ieeeSign_ieeePattern sign he hf,
    ieeeFrac_ieeePattern sign he hf, if_neg h0.ne', if_neg h1.ne]

end Sys2Proof.Machine
end

section
/-! TOIEEE (R115, R116), and FROMIEEE after it: in a format whose combined exponents are IEEE normal exponents and whose
fractions fit the IEEE fraction field, the IEEE pattern holds the whole unpacked record, which PACK turns back into the
view (R100, R119). -/

namespace Sys2Proof.Machine

open Sys2Proof.Safety

variable {c : Config} {n : Nat} {w : IeeeFmt}

/-! ## The patterns (R115, R116) -/

theorem toIeee_zero (c : Config) (w : IeeeFmt) (n es : Nat) : toIeee c w n es (.view zeroView) = 0 := by
  rw [toIeee, if_pos rfl]

theorem toIeee_inf (c : Config) (w : IeeeFmt) (n es : Nat) :
    toIeee c w n es (.view (infView n)) = ieeePattern w false w.ones 0 := by
  rw [toIeee, if_neg (show infView n ≠ zeroView from (Nat.two_pow_pos _).ne'), if_pos rfl]

/-- A special pattern: positive, the exponent field all ones. -/
theorem ieeePattern_ones {ifrac : Nat} (hf : ifrac < 2 ^ w.fw) :
    ieeePattern w false w.ones ifrac = w.ones * 2 ^ w.fw + ifrac := by
  rw [ieeePattern_eq_add false (ones_lt w) hf, flagWord, if_neg Bool.false_ne_true, Nat.zero_mul, Nat.zero_add]

/-- The three outcomes of the general path: overflow, underflow, a normal number. -/
theorem toIeee_of_denotes (hn : 2 ≤ n) (hW : n ≤ c.W) (w : IeeeFmt) (es : Nat) {v : Nat} (h : Denotes n v) :
    toIeee c w n es (.view v) =
      let r := unpackView c n es v
      let e := combined es r + (w.bias : Int)
      if (w.ones : Int) ≤ e then flagWord r.sign * 2 ^ (w.ew + w.fw) + w.ones * 2 ^ w.fw
      else if e ≤ 0 then flagWord r.sign * 2 ^ (w.ew + w.fw)
      else flagWord r.sign * 2 ^ (w.ew + w.fw) + e.toNat * 2 ^ w.fw + rescale c.W w.fw r.fraction := by
  obtain ⟨_, (h0 : v ≠ zeroView), (hinf : v ≠ infView n)⟩ := h
  have hones := ones_lt w
  have hzero := Nat.two_pow_pos w.fw
  have hfrac : rescale c.W w.fw (unpackView c n es v).fraction < 2 ^ w.fw :=
    rescale_lt (unpackView_fraction_lt hn hW es v)
  simp only [toIeee]
  rw [if_neg h0, if_neg hinf]
  split_ifs with hover hunder
  · rw [ieeePattern_eq_add _ hones hzero, Nat.add_zero]
  · rw [ieeePattern_eq_add _ (Nat.two_pow_pos _) hzero, Nat.zero_mul, Nat.add_zero]
  · exact ieeePattern_eq_add _ (by omega) hfrac

/-! ## The range of combined exponents -/

/-- A magnitude that is not 0 has regime at least `-(n-2)`. -/
theorem le_regimeOf_mag (hn : 2 ≤ n) {v : Nat} (h : Denotes n v) : 2 - (n : Int) ≤ regimeOf (mag n v) n := by
  have hrun := runLen_pos (mag n v) hn
  rcases (runLen_le (mag n v) n).lt_or_eq with hm | hm
  · unfold regimeOf
    split <;> omega
  · have hb := runBit_of_runLen_eq (mag_pos (by omega) h) (mag_lt (by omega) h) hm
    have := (regimeOf_nonneg_iff hn).2 hb
    omega

/-- At the highest regime the run fills the pattern, and nothing is left for the exponent. -/
theorem unpackView_exponent_of_high (hn : 2 ≤ n) (c : Config) (es : Nat) {v : Nat}
    (h : (n : Int) - 2 ≤ regimeOf (mag n v) n) : (unpackView c n es v).exponent = 0 := by
  have hrun := runLen_pos (mag n v) hn
  have hrem : remBits (mag n v) n = 0 := by
    rw [remBits_eq]
    unfold regimeOf at h
    split at h <;> omega
  rw [unpackView_of_rest_zero c es (by rw [hrem, pow_zero, Nat.mod_one])]

/-- A view that denotes a number has its combined exponent in the range CLIP keeps (R77). -/
theorem combined_unpackView_mem (hn : 2 ≤ n) (c : Config) (es : Nat) {v : Nat} (h : Denotes n v) :
    cmin n es ≤ combined es (unpackView c n es v) ∧ combined es (unpackView c n es v) ≤ cmax n es := by
  have hlo := le_regimeOf_mag hn h
  obtain ⟨_, hhi⟩ := regimeOf_bounds (mag n v) hn
  have hexp := unpackView_exponent_lt c n es v
  have hP : (0 : Int) ≤ ((2 ^ es : Nat) : Int) := Int.natCast_nonneg _
  have hcmax : cmax n es = ((2 ^ es : Nat) : Int) * ((n : Int) - 2) := by
    rw [cmax, Nat.cast_mul, Nat.cast_sub hn]
    rfl
  rw [cmin, hcmax, combined, unpackView_regime]
  refine ⟨?_, ?_⟩
  · have hmul := Int.mul_le_mul_of_nonneg_left hlo hP
    rw [← neg_sub, mul_neg] at hmul
    omega
  · rcases hhi.lt_or_eq with hr | hr
    · have hmul := Int.mul_le_mul_of_nonneg_left (show regimeOf (mag n v) n + 1 ≤ (n : Int) - 2 by omega) hP
      rw [mul_add, mul_one] at hmul
      omega
    · rw [unpackView_exponent_of_high hn c es hr.ge, hr, Nat.cast_zero, add_zero]

/-- Clipping and splitting the combined exponent of an unpacked record changes nothing. -/
theorem packClipped_unpackView (hn : 2 ≤ n) (hW : n ≤ c.W) (es : Nat) {v : Nat} (h : Denotes n v) :
    packClipped c n es (unpackView c n es v).sign (combined es (unpackView c n es v)) (unpackView c n es v).fraction =
      v := by
  obtain ⟨hlo, hhi⟩ := combined_unpackView_mem hn c es h
  obtain ⟨hregime, hexponent⟩ := parts_combined (unpackView_exponent_lt c n es v)
  rw [packClipped, clip_of_mem hlo hhi, hregime, hexponent]
  exact packView_unpackView hn hW es h.1

/-! ## There and back (R119) -/

/-- An IEEE fraction field as wide as the posit's loses nothing. -/
theorem rescale_unpackView_fraction (hn : 2 ≤ n) (hW : n ≤ c.W) (hbits : n ≤ w.fw + 3) (es v : Nat) :
    rescale w.fw c.W (rescale c.W w.fw (unpackView c n es v).fraction) = (unpackView c n es v).fraction := by
  have hw := fracWidth_le (mag n v) es hn
  rw [unpackView_fraction hn hW, rescale_rescale (i := fracWidth (mag n v) n es) (.inl (by omega)),
    rescale_rescale (.inl (by omega))]

theorem fromIeee_toIeee_of_denotes (hn : 2 ≤ n) (hW : n ≤ c.W) {es : Nat} (hew : 1 ≤ w.ew) (hbits : n ≤ w.fw + 3)
    (hexp : 2 ^ es * (n - 2) < w.bias) {v : Nat} (h : Denotes n v) :
    fromIeee c w n es (toIeee c w n es (.view v)) = .view v := by
  obtain ⟨hlo, hhi⟩ := combined_unpackView_mem hn c es h
  have hones := ones_eq hew
  have hpack := packClipped_unpackView hn hW es h
  have hfrac := rescale_unpackView_fraction hn hW hbits es v
  have hlt : rescale c.W w.fw (unpackView c n es v).fraction < 2 ^ w.fw :=
    rescale_lt (unpackView_fraction_lt hn hW es v)
  rw [toIeee_of_denotes hn hW w es h]
  dsimp only
  generalize unpackView c n es v = r at *
  unfold cmin cmax at hlo
  unfold cmax at hhi
  rw [if_neg (by omega), if_neg (by omega), fromIeee_normal c n es r.sign (by omega) (by omega) hlt, hfrac,
    Int.toNat_of_nonneg (by omega), add_sub_cancel_right, hpack]

theorem fromIeee_toIeee (hn : 2 ≤ n) (hW : n ≤ c.W) {es : Nat} (hew : 1 ≤ w.ew) (hfw : 1 ≤ w.fw)
    (hbits : n ≤ w.fw + 3) (hexp : 2 ^ es * (n - 2) < w.bias) {x : Posit} (hx : OnViews n x) :
    fromIeee c w n es (toIeee c w n es x) = x := by
  have hbelow {ifrac : Nat} (hf : ifrac < 2 ^ w.fw) :
      (w.ones * 2 ^ w.fw + ifrac) % 2 ^ (w.ew + w.fw) = w.ones * 2 ^ w.fw + ifrac := by
    refine Nat.mod_eq_of_lt ?_
    calc w.ones * 2 ^ w.fw + ifrac
        < (w.ones + 1) * 2 ^ w.fw := by rw [add_mul]; omega
      _ ≤ 2 ^ w.ew * 2 ^ w.fw := Nat.mul_le_mul_right _ (ones_lt w)
      _ = 2 ^ (w.ew + w.fw) := (pow_add 2 _ _).symm
  cases x with
  | nan =>
    have hquiet : 2 ^ (w.fw - 1) < 2 ^ w.fw := Nat.pow_lt_pow_right (by decide) (by omega)
    refine fromIeee_of_gt hew es ?_
    rw [toIeee, ieeePattern_ones hquiet, hbelow hquiet]
    exact Nat.lt_add_of_pos_right (Nat.two_pow_pos _)
  | view v =>
    rcases eq_or_ne v zeroView with rfl | h0
    · rw [toIeee_zero]
      exact fromIeee_of_lt es (by rw [Nat.zero_mod]; exact Nat.two_pow_pos _)
    rcases eq_or_ne v (infView n) with rfl | hinf
    · have hzero := Nat.two_pow_pos w.fw
      refine fromIeee_of_eq hew es ?_
      rw [toIeee_inf, ieeePattern_ones hzero, hbelow hzero, Nat.add_zero]
    · exact fromIeee_toIeee_of_denotes hn hW hew hbits hexp ⟨hx, h0, hinf⟩

end Sys2Proof.Machine
end

section
/-! Packing an exact number by truncation, when the number is given by its sign, its binary exponent and the part of its
significand after the point: the exponent is `floor(log2 |v|)` as it stands. -/

namespace Sys2Proof.Safety

open Sys2Proof.Machine

theorem log_two_zpow_mul (e : Int) {t : ℚ} (h0 : 0 ≤ t) (h1 : t < 1) : Int.log 2 ((2 : ℚ) ^ e * (1 + t)) = e := by
  have hpow : (0 : ℚ) < 2 ^ e := by positivity
  have hpos : (0 : ℚ) < 2 ^ e * (1 + t) := by positivity
  refine le_antisymm (Int.lt_add_one_iff.1 ((Int.lt_zpow_iff_log_lt one_lt_two hpos).1 ?_))
    ((Int.zpow_le_iff_le_log one_lt_two hpos).1 ?_)
  · rw [Nat.cast_ofNat, zpow_add_one₀ two_ne_zero]
    exact mul_lt_mul_of_pos_left (by linarith) hpow
  · rw [Nat.cast_ofNat]
    exact le_mul_of_one_le_right hpow.le (by linarith)

theorem truncateExact_eq (c : Config) (n es : Nat) (sign : Bool) (e : Int) {t : ℚ} (h0 : 0 ≤ t) (h1 : t < 1) :
    truncateExact c n es ((if sign then -1 else 1) * (2 : ℚ) ^ e * (1 + t)) =
      packClipped c n es sign e ⌊t * 2 ^ c.W⌋₊ := by
  have hpos : (0 : ℚ) < 2 ^ e * (1 + t) := by positivity
  have habs : |(if sign then -1 else 1) * (2 : ℚ) ^ e * (1 + t)| = 2 ^ e * (1 + t) := by
    rw [mul_assoc, abs_mul, abs_of_pos hpos]
    cases sign <;> simp
  have hsign : decide ((if sign then -1 else 1) * (2 : ℚ) ^ e * (1 + t) < 0) = sign := by
    rw [mul_assoc]
    cases sign
    · simp [hpos.le]
    · simp [hpos]
  have hfrac : (2 : ℚ) ^ e * (1 + t) / 2 ^ e - 1 = t := by
    rw [mul_div_cancel_left₀ _ (zpow_ne_zero e two_ne_zero), add_sub_cancel_left]
  simp only [truncateExact, habs, hsign, log_two_zpow_mul e h0 h1, hfrac]

/-- A fraction field of `k` bits, cut or extended to `k'` bits, is its number scaled and truncated. -/
theorem floor_div_mul_two_pow (k k' x : Nat) : ⌊(x : ℚ) / 2 ^ k * 2 ^ k'⌋₊ = rescale k k' x := by
  rw [rescale_eq, ← Nat.floor_div_eq_div (K := ℚ)]
  push_cast
  rw [div_mul_eq_mul_div]

end Sys2Proof.Safety
end

section
/-! The four IEEE operations on legal operands, and FROMIEEE of a normal number in terms of the exact number (R111,
R113 to R118). -/

namespace Sys2Proof.Machine

open Sys2Proof.Safety

variable {f : Fmt} {s : State}

theorem exec_fromF32 (h : FmtLegal s.cfg f) {raw : Nat} (hraw : raw < 2 ^ 32) {x : Posit}
    (hx : fromIeee s.cfg single f.nbits f.es raw = x) :
    exec (.fromF32 f raw) s = .next (s.answered (.ok (.ofValue (x.toValue s.cfg f.nbits)))) := by
  have h32 : rawIs32 raw = true := decide_eq_true hraw
  simp [exec, execFromF32, (paramsLegal_iff s.cfg f).2 h, h32, hx]

theorem exec_fromF64 (h : FmtLegal s.cfg f) {raw : Nat} {x : Posit}
    (hx : fromIeee s.cfg double f.nbits f.es raw = x) :
    exec (.fromF64 f raw) s = .next (s.answered (.ok (.ofValue (x.toValue s.cfg f.nbits)))) := by
  simp [exec, execFromF64, (paramsLegal_iff s.cfg f).2 h, hx]

theorem exec_toF32 (h : FmtLegal s.cfg f) {x : Posit} {k : Nat} (hk : toIeee s.cfg single f.nbits f.es x = k) :
    exec (.toF32 f (x.toValue s.cfg f.nbits)) s = .next (s.answered (.ok (.ofNat k))) := by
  simp [exec, execToF32, (paramsLegal_iff s.cfg f).2 h, hk]

theorem exec_toF64 (h : FmtLegal s.cfg f) {x : Posit} {k : Nat} (hk : toIeee s.cfg double f.nbits f.es x = k) :
    exec (.toF64 f (x.toValue s.cfg f.nbits)) s = .next (s.answered (.ok (.ofNat k))) := by
  simp [exec, execToF64, (paramsLegal_iff s.cfg f).2 h, hk]

/-- FROMF32 of a normal number with the given fields (R113). -/
theorem exec_fromF32_normal (h : FmtLegal s.cfg f) (sign : Bool) {iexp ifrac : Nat} (h0 : 0 < iexp) (h1 : iexp < 255)
    (hf : ifrac < 2 ^ 23) :
    exec (.fromF32 f (flagWord sign * 2 ^ 31 + iexp * 2 ^ 23 + ifrac)) s =
      .next (s.answered (.ok (.ofValue (packed s.cfg f.nbits (packClipped s.cfg f.nbits f.es sign ((iexp : Int) - 127)
        (rescale 23 s.cfg.W ifrac)))))) := by
  have hraw : flagWord sign * 2 ^ 31 + iexp * 2 ^ 23 + ifrac < 2 ^ 32 := by
    have := flagWord_lt sign
    omega
  exact exec_fromF32 h hraw (fromIeee_normal (w := single) _ _ _ sign h0 h1 hf)

/-- FROMF64 of a normal number with the given fields (R114). -/
theorem exec_fromF64_normal (h : FmtLegal s.cfg f) (sign : Bool) {iexp ifrac : Nat} (h0 : 0 < iexp) (h1 : iexp < 2047)
    (hf : ifrac < 2 ^ 52) :
    exec (.fromF64 f (flagWord sign * 2 ^ 63 + iexp * 2 ^ 52 + ifrac)) s =
      .next (s.answered (.ok (.ofValue (packed s.cfg f.nbits (packClipped s.cfg f.nbits f.es sign ((iexp : Int) - 1023)
        (rescale 52 s.cfg.W ifrac)))))) :=
  exec_fromF64 h (fromIeee_normal (w := double) _ _ _ sign h0 h1 hf)

/-- CLIP and the split by floor division, written out (R77, R78). -/
theorem packClipped_eq_packView (c : Config) (n es : Nat) (sign : Bool) (e : Int) (fraction : Nat) :
    packClipped c n es sign e fraction =
      packView c n es ⟨sign, clip e n es / ((2 ^ es : Nat) : Int), (clip e n es % ((2 ^ es : Nat) : Int)).toNat,
        fraction⟩ := by
  rw [← exponentPart_eq, Int.toNat_natCast]
  rfl

/-- Packing through the storage width is packing the exact number through any width that PACK does not exceed. -/
theorem packClipped_rescale_eq_truncateExact {c : Config} {n W' : Nat} (hW : n ≤ c.W) (hW' : n ≤ W') (es : Nat)
    (sign : Bool) (e : Int) {k x : Nat} (hx : x < 2 ^ k) :
    packClipped c n es sign e (rescale k c.W x) =
      truncateExact { c with W := W' } n es ((if sign then -1 else 1) * (2 : ℚ) ^ e * (1 + (x : ℚ) / 2 ^ k)) := by
  have h1 : (x : ℚ) / 2 ^ k < 1 := (div_lt_one (by positivity)).2 (by exact_mod_cast hx)
  rw [truncateExact_eq _ n es sign e (by positivity) h1, floor_div_mul_two_pow]
  have hread {j : Nat} (hj : n ≤ j) : rescale j (n - 3) (rescale k j x) = rescale k (n - 3) x :=
    rescale_rescale (.inr (by omega)) x
  exact packClipped_congr hW hW' es sign e ((hread hW).trans (hread hW').symm)

/-- Rescaling with the test the other way round: equal widths shift by 0 either way. -/
theorem rescale_eq_ite (k k' x : Nat) : rescale k k' x = if k' ≤ k then x / 2 ^ (k - k') else x * 2 ^ (k' - k) := by
  split
  · next h => exact rescale_of_ge h x
  · next h => exact rescale_of_le (Nat.le_of_not_le h) x

end Sys2Proof.Machine
end

section
/-! The obligations on the IEEE conversions (42_ieee_interop.md). -/

namespace Sys2Proof

open Sys2Proof.Machine Sys2Proof.Safety

/-- Settles O37: in these formats the IEEE pattern holds the unpacked record whole, and PACK undoes UNPACK. -/
theorem ieeeRoundTrip : Obligations.IeeeRoundTrip := by
  intro s f x hf hx
  have ⟨hn, hW, _⟩ := hf
  refine ⟨fun hbits hexp => ⟨_, exec_toF64 hf rfl, ?_⟩, fun hbits hexp => ⟨_, exec_toF32 hf rfl, ?_⟩⟩
  · exact exec_fromF64 hf
      (fromIeee_toIeee (w := double) hn hW (by decide) (by decide) hbits (Nat.lt_succ_of_le hexp) hx)
  · exact exec_fromF32 hf (toIeee_lt hn hW (w := single) (by decide) f.es x)
      (fromIeee_toIeee (w := single) hn hW (by decide) (by decide) hbits (Nat.lt_succ_of_le hexp) hx)

/-- Settles O32, by the bits below the sign, which FROMIEEE's two fields split. -/
theorem fromIeeeSpecials : Obligations.FromIeeeSpecials := by
  intro s f raw hf
  have hzero : (Posit.view zeroView).toValue s.cfg f.nbits = .finite 0 := congrArg Value.finite (Nat.zero_mul _)
  refine ⟨fun hraw => ⟨fun h => ?_, fun h => ?_, fun h => ?_⟩, fun _ => ⟨fun h => ?_, fun h => ?_, fun h => ?_⟩⟩
  · rw [exec_fromF32 hf hraw (fromIeee_of_lt (w := single) f.es h), hzero]
  · exact exec_fromF32 hf hraw (fromIeee_of_eq (w := single) (by decide) f.es h)
  · exact exec_fromF32 hf hraw (fromIeee_of_gt (w := single) (by decide) f.es h)
  · rw [exec_fromF64 hf (fromIeee_of_lt (w := double) f.es h), hzero]
  · exact exec_fromF64 hf (fromIeee_of_eq (w := double) (by decide) f.es h)
  · exact exec_fromF64 hf (fromIeee_of_gt (w := double) (by decide) f.es h)

/-- Settles O34: the fraction at width `W'` and the one at the storage width agree in the `n - 3` bits PACK reads. -/
theorem fromIeeeTruncatesTheNumber : Obligations.FromIeeeTruncatesTheNumber := by
  intro s f sign iexp ifrac W' hf hW'
  have ⟨_, hW, _⟩ := hf
  refine ⟨fun h0 h1 hfrac => ?_, fun h0 h1 hfrac => ?_⟩
  · rw [exec_fromF32_normal hf sign h0 h1 hfrac, packClipped_rescale_eq_truncateExact hW hW' f.es sign _ hfrac]
  · rw [exec_fromF64_normal hf sign h0 h1 hfrac, packClipped_rescale_eq_truncateExact hW hW' f.es sign _ hfrac]

/-- Settles O36, by TOIEEE's general path on the record UNPACK answers. -/
theorem toIeeeOfNumbers : Obligations.ToIeeeOfNumbers := by
  intro s f v hf hv
  have ⟨hn, hW, _⟩ := hf
  refine ⟨_, exec_unpack_packed hf v, exec_toF32 (x := .view v) hf ?_, exec_toF64 (x := .view v) hf ?_⟩
  · simp only [toIeee_of_denotes hn hW single f.es hv, rescale_eq_ite]
    rfl
  · simp only [toIeee_of_denotes hn hW double f.es hv, rescale_eq_ite]
    rfl

/-- Settles O33, by CLIP and the split written out. -/
theorem fromIeeeNormals : Obligations.FromIeeeNormals := by
  intro s f sign iexp ifrac hf
  refine ⟨fun h0 h1 hfrac => ?_, fun h0 h1 hfrac => ?_⟩
  · rw [exec_fromF32_normal hf sign h0 h1 hfrac, packClipped_eq_packView]
    rfl
  · rw [exec_fromF64_normal hf sign h0 h1 hfrac, packClipped_eq_packView]
    rfl

/-- Settles O35, by the special patterns of TOIEEE in the two formats. -/
theorem toIeeeSpecials : Obligations.ToIeeeSpecials := fun _ f hf =>
  ⟨exec_toF32 (x := .view zeroView) hf (toIeee_zero _ _ _ _), exec_toF64 (x := .view zeroView) hf (toIeee_zero _ _ _ _),
    exec_toF32 (x := .view (infView f.nbits)) hf (toIeee_inf _ _ _ _),
    exec_toF64 (x := .view (infView f.nbits)) hf (toIeee_inf _ _ _ _),
    exec_toF32 (x := .nan) hf rfl, exec_toF64 (x := .nan) hf rfl⟩

end Sys2Proof
end

section
/-! The arithmetic operations as requests: on legal operands they answer what the rules compute, and a stray low bit of
an operand is refused (R55 (a), R131). -/

namespace Sys2Proof.Machine

open Sys2Proof.Safety

variable {f : Fmt} {s : State}

/-! ## Legal operands -/

theorem exec_neg (h : FmtLegal s.cfg f) (x : Posit) {z : Posit} (hz : negPosit f.nbits x = z) :
    exec (.neg f (x.toValue s.cfg f.nbits)) s =
      .next (s.answered (.ok (.ofValue (z.toValue s.cfg f.nbits)))) :=
  hz ▸ unaryValue_legal negPosit ((paramsLegal_iff s.cfg f).2 h) x

theorem exec_recip (h : FmtLegal s.cfg f) (x : Posit) {z : Posit} (hz : recPosit f.nbits x = z) :
    exec (.recip f (x.toValue s.cfg f.nbits)) s =
      .next (s.answered (.ok (.ofValue (z.toValue s.cfg f.nbits)))) :=
  hz ▸ unaryValue_legal recPosit ((paramsLegal_iff s.cfg f).2 h) x

theorem exec_mul (h : FmtLegal s.cfg f) (x y : Posit) {z : Posit} (hz : mulPosit s.cfg f.nbits f.es x y = z) :
    exec (.mul f (x.toValue s.cfg f.nbits) (y.toValue s.cfg f.nbits)) s =
      .next (s.answered (.ok (.ofValue (z.toValue s.cfg f.nbits)))) :=
  hz ▸ binaryValue_legal mulPosit ((paramsLegal_iff s.cfg f).2 h) x y

theorem exec_div (h : FmtLegal s.cfg f) (x y : Posit) {z : Posit} (hz : divPosit s.cfg f.nbits f.es x y = z) :
    exec (.div f (x.toValue s.cfg f.nbits) (y.toValue s.cfg f.nbits)) s =
      .next (s.answered (.ok (.ofValue (z.toValue s.cfg f.nbits)))) :=
  hz ▸ binaryValue_legal divPosit ((paramsLegal_iff s.cfg f).2 h) x y

theorem exec_add (h : FmtLegal s.cfg f) (x y : Posit) {z : Posit} (hz : addPosit s.cfg f.nbits f.es x y = z) :
    exec (.add f (x.toValue s.cfg f.nbits) (y.toValue s.cfg f.nbits)) s =
      .next (s.answered (.ok (.ofValue (z.toValue s.cfg f.nbits)))) :=
  hz ▸ binaryValue_legal addPosit ((paramsLegal_iff s.cfg f).2 h) x y

theorem exec_sub (h : FmtLegal s.cfg f) (x y : Posit) {z : Posit} (hz : subPosit s.cfg f.nbits f.es x y = z) :
    exec (.sub f (x.toValue s.cfg f.nbits) (y.toValue s.cfg f.nbits)) s =
      .next (s.answered (.ok (.ofValue (z.toValue s.cfg f.nbits)))) :=
  hz ▸ binaryValue_legal subPosit ((paramsLegal_iff s.cfg f).2 h) x y

/-! ## Stray low bits -/

theorem justified_eq_false {c : Config} {n : Nat} {x : Value} (h : Stray c n x) : justified c n x = false := by
  cases x with
  | nan => exact h.elim
  | finite b => exact decide_eq_false h

theorem unaryValue_stray (op : Nat → Posit → Posit) (h : FmtLegal s.cfg f) {x : Value} (hx : Stray s.cfg f.nbits x) :
    unaryValue op f x s = .next (s.answered (.refused .illegalOperand)) := by
  rw [unaryValue, (paramsLegal_iff s.cfg f).2 h, justified_eq_false hx, answer_illegalOperand]

theorem binaryValue_stray (op : Config → Nat → Nat → Posit → Posit → Posit) (h : FmtLegal s.cfg f) {x y : Value}
    (hxy : Stray s.cfg f.nbits x ∨ Stray s.cfg f.nbits y) :
    binaryValue op f x y s = .next (s.answered (.refused .illegalOperand)) := by
  have hfalse : (justified s.cfg f.nbits x && justified s.cfg f.nbits y) = false := by
    rcases hxy with hx | hy
    · rw [justified_eq_false hx, Bool.false_and]
    · rw [justified_eq_false hy, Bool.and_false]
  rw [binaryValue, (paramsLegal_iff s.cfg f).2 h, hfalse, answer_illegalOperand]

/-- An operation that is symmetric on the views its operands can carry is symmetric as a request, refused or not. -/
theorem binaryValue_comm {op : Config → Nat → Nat → Posit → Posit → Posit}
    (hop : 2 ≤ f.nbits → f.nbits ≤ s.cfg.W → ∀ {u v}, OnViews f.nbits u → OnViews f.nbits v →
      op s.cfg f.nbits f.es u v = op s.cfg f.nbits f.es v u)
    {x y : Value} (hx : x.wellFormed s.cfg = true) (hy : y.wellFormed s.cfg = true) :
    binaryValue op f x y s = binaryValue op f y x s := by
  unfold binaryValue
  cases hf : paramsLegal s.cfg f with
  | false => simp only [answer_illegalParam]
  | true =>
    obtain ⟨hn, hW, _⟩ := (paramsLegal_iff s.cfg f).1 hf
    rw [Bool.and_comm, hop hn hW (onViews_ofValue hW hx) (onViews_ofValue hW hy)]

end Sys2Proof.Machine
end

section
/-! NEG and REC on views. REC keeps the sign and reflects the magnitude at the middle of its range (R133), so both are
involutions, and they commute. -/

namespace Sys2Proof.Machine

open Sys2Proof.Safety

variable {n : Nat}

/-! ## NEG (R132) -/

@[simp] theorem negView_zeroView (n : Nat) : negView n zeroView = zeroView := Nat.mod_self _

theorem negView_infView (hn : 1 ≤ n) : negView n (infView n) = infView n := by
  have hdouble := two_pow_eq_double hn
  rw [negView_of_ne_zero (v := infView n) n (Nat.two_pow_pos _).ne', infView]
  omega

theorem negView_oneView (n : Nat) : negView n (oneView n) = moneView n :=
  negView_of_ne_zero n (Nat.two_pow_pos _).ne'

theorem negView_negView {x : Nat} (hx : x < 2 ^ n) : negView n (negView n x) = x := by
  rcases eq_or_ne x 0 with rfl | h0
  · simp [negView]
  · rw [negView_of_ne_zero n h0, negView_of_ne_zero n (by omega), Nat.sub_sub_self hx.le]

theorem negView_moneView (hn : 2 ≤ n) : negView n (moneView n) = oneView n := by
  rw [← negView_oneView, negView_negView (oneView_lt hn)]

theorem negPosit_negPosit {x : Posit} (hx : OnViews n x) : negPosit n (negPosit n x) = x := by
  cases x with
  | nan => rfl
  | view v => exact congrArg Posit.view (negView_negView hx)

/-- Negation moves a number: only `ZERO` and `INF` are their own two's complement. -/
theorem ne_negView {x : Nat} (hn : 1 ≤ n) (h : Denotes n x) : x ≠ negView n x := by
  obtain ⟨hlt, h0, hinf⟩ := h
  have hdouble := two_pow_eq_double hn
  rw [negView_of_ne_zero n h0]
  omega

/-! ## The sentinels that denote numbers -/

theorem denotes_oneView (hn : 2 ≤ n) : Denotes n (oneView n) := by
  have hlt : 2 ^ (n - 2) < 2 ^ (n - 1) := Nat.pow_lt_pow_right (by decide) (by omega)
  exact ⟨oneView_lt hn, (Nat.two_pow_pos _).ne', hlt.ne⟩

theorem denotes_moneView (hn : 2 ≤ n) : Denotes n (moneView n) :=
  negView_oneView n ▸ denotes_negView (by omega) (denotes_oneView hn)

/-! ## REC (R133) -/

theorem recView_zeroView (n : Nat) : recView n zeroView = infView n := if_pos rfl

theorem recView_infView (n : Nat) : recView n (infView n) = zeroView :=
  (if_neg (Nat.two_pow_pos _).ne').trans (if_pos rfl)

/-- The bits of a view below its sign. -/
theorem mod_two_pow_eq {x : Nat} (hn : 1 ≤ n) (hx : x < 2 ^ n) :
    x % 2 ^ (n - 1) = if 2 ^ (n - 1) ≤ x then x - 2 ^ (n - 1) else x := by
  have hdouble := two_pow_eq_double hn
  split
  · next h => rw [Nat.mod_eq_sub_mod h, Nat.mod_eq_of_lt (by omega)]
  · next h => exact Nat.mod_eq_of_lt (by omega)

/-- The sign bit and the two's complement of the bits below it stand side by side. -/
theorem recView_of_denotes {x : Nat} (hn : 1 ≤ n) (h : Denotes n x) :
    recView n x = flagWord (signBit n x) * 2 ^ (n - 1) + (2 ^ (n - 1) - x % 2 ^ (n - 1)) := by
  obtain ⟨hlt, h0, hinf⟩ := h
  have hpos := Nat.two_pow_pos (n - 1)
  have hcompl : 2 ^ (n - 1) - x % 2 ^ (n - 1) < 2 ^ (n - 1) := by
    rw [mod_two_pow_eq hn hlt]
    split <;> omega
  rw [recView, if_neg (show x ≠ zeroView from h0), if_neg (show x ≠ infView n from hinf), Nat.mod_eq_of_lt hcompl,
    Nat.mul_comm, ← Nat.two_pow_add_eq_or_of_lt hcompl]

/-- REC on each side of the sign. -/
theorem recView_eq {x : Nat} (hn : 1 ≤ n) (h : Denotes n x) :
    recView n x = if 2 ^ (n - 1) ≤ x then 2 ^ n + 2 ^ (n - 1) - x else 2 ^ (n - 1) - x := by
  have hdouble := two_pow_eq_double hn
  rw [recView_of_denotes hn h, signBit_eq_decide hn h.1, mod_two_pow_eq hn h.1]
  obtain ⟨hlt, h0, hinf⟩ := h
  split
  · next hle =>
    rw [decide_eq_true hle, flagWord, if_pos rfl]
    omega
  · next hgt =>
    rw [decide_eq_false hgt, flagWord, if_neg Bool.false_ne_true]
    omega

theorem denotes_recView {x : Nat} (hn : 1 ≤ n) (h : Denotes n x) : Denotes n (recView n x) := by
  have hdouble := two_pow_eq_double hn
  rw [recView_eq hn h]
  obtain ⟨hlt, h0, hinf⟩ := h
  split
  · exact ⟨by omega, by omega, by omega⟩
  · exact ⟨by omega, by omega, by omega⟩

theorem recView_recView {x : Nat} (hn : 1 ≤ n) (hx : x < 2 ^ n) : recView n (recView n x) = x := by
  rcases eq_or_ne x zeroView with rfl | h0
  · rw [recView_zeroView, recView_infView]
  rcases eq_or_ne x (infView n) with rfl | hinf
  · rw [recView_infView, recView_zeroView]
  have h : Denotes n x := ⟨hx, h0, hinf⟩
  have hdouble := two_pow_eq_double hn
  rw [recView_eq hn (denotes_recView hn h), recView_eq hn h]
  split <;> split <;> omega

theorem recPosit_recPosit {x : Posit} (hn : 1 ≤ n) (hx : OnViews n x) : recPosit n (recPosit n x) = x := by
  cases x with
  | nan => rfl
  | view v => exact congrArg Posit.view (recView_recView hn hx)

theorem recView_negView {x : Nat} (hn : 1 ≤ n) (hx : x < 2 ^ n) :
    recView n (negView n x) = negView n (recView n x) := by
  rcases eq_or_ne x zeroView with rfl | h0
  · rw [negView_zeroView, recView_zeroView, negView_infView hn]
  rcases eq_or_ne x (infView n) with rfl | hinf
  · rw [negView_infView hn, recView_infView, negView_zeroView]
  have h : Denotes n x := ⟨hx, h0, hinf⟩
  have hdouble := two_pow_eq_double hn
  have hrec := denotes_recView hn h
  rw [recView_eq hn (denotes_negView hn h), negView_of_ne_zero n hrec.2.1, recView_eq hn h, negView_of_ne_zero n h0]
  have hne : x ≠ 2 ^ (n - 1) := hinf
  split <;> split <;> omega

theorem recView_oneView (hn : 2 ≤ n) : recView n (oneView n) = oneView n := by
  have hdouble : 2 ^ (n - 1) = 2 * 2 ^ (n - 2) := two_pow_eq_double (n := n - 1) (by omega)
  have hpos := Nat.two_pow_pos (n - 2)
  rw [recView_eq (by omega) (denotes_oneView hn), oneView, if_neg (by omega)]
  omega

theorem recView_moneView (hn : 2 ≤ n) : recView n (moneView n) = moneView n := by
  rw [← negView_oneView, recView_negView (by omega) (oneView_lt hn), recView_oneView hn]

/-- REC keeps the sign bit. -/
theorem signBit_recView {x : Nat} (hn : 1 ≤ n) (h : Denotes n x) : signBit n (recView n x) = signBit n x := by
  have hrec := denotes_recView hn h
  have hdouble := two_pow_eq_double hn
  rw [signBit_eq_decide hn hrec.1, signBit_eq_decide hn h.1, decide_eq_decide, recView_eq hn h]
  obtain ⟨hlt, h0, hinf⟩ := h
  split <;> omega

/-- REC reflects the magnitude at the middle of its range. -/
theorem mag_recView {x : Nat} (hn : 1 ≤ n) (h : Denotes n x) : mag n (recView n x) = 2 ^ (n - 1) - mag n x := by
  have hdouble := two_pow_eq_double hn
  rw [mag_eq hn (denotes_recView hn h), mag_eq hn h, recView_eq hn h]
  obtain ⟨hlt, h0, hinf⟩ := h
  split <;> split <;> omega

end Sys2Proof.Machine
end

section
/-! The fast paths of MUL and ADD by their operands (R135, R141): each has its mirror image, so both operations are
commutative bit for bit (R138, R142), and DIV and SUB meet them in the corner cases of R139 and R143. -/

namespace Sys2Proof.Machine

open Sys2Proof.Safety

variable {c : Config} {n : Nat}

/-! ## NEG and REC exchange the sides of an equation -/

theorem eq_negView_comm {x y : Nat} (hx : x < 2 ^ n) (hy : y < 2 ^ n) : x = negView n y ↔ y = negView n x :=
  ⟨fun h => h ▸ (negView_negView hy).symm, fun h => h ▸ (negView_negView hx).symm⟩

theorem eq_recView_comm {x y : Nat} (hn : 1 ≤ n) (hx : x < 2 ^ n) (hy : y < 2 ^ n) :
    x = recView n y ↔ y = recView n x :=
  ⟨fun h => h ▸ (recView_recView hn hy).symm, fun h => h ▸ (recView_recView hn hx).symm⟩

theorem eq_negView_recView_comm {x y : Nat} (hn : 2 ≤ n) (hx : x < 2 ^ n) (hy : y < 2 ^ n) :
    x = negView n (recView n y) ↔ y = negView n (recView n x) := by
  rw [← recView_negView (by omega) hy, eq_recView_comm (by omega) hx (negView_lt n y), eq_comm (a := negView n y),
    eq_negView_comm (recView_lt hn x) hy]

/-! ## MUL -/

/-- Numbers are the views that are neither `ZERO` nor `INF`, by the names the fast paths test them with. -/
theorem denotes_iff_sentinels {x : Nat} : Denotes n x ↔ x < 2 ^ n ∧ x ≠ zeroView ∧ x ≠ infView n := Iff.rfl

theorem moneView_ne_oneView (hn : 2 ≤ n) : moneView n ≠ oneView n := by
  rw [← negView_oneView]
  exact (ne_negView (by omega) (denotes_oneView hn)).symm

theorem mulGen_comm (c : Config) (n es x y : Nat) : mulGen c n es x y = mulGen c n es y x := by
  simp only [mulGen, Bool.xor_comm (unpackView c n es x).sign, Int.add_comm (combined es (unpackView c n es x)),
    Nat.mul_comm (significand c (unpackView c n es x).fraction)]

theorem zeroView_ne_infView (n : Nat) : zeroView ≠ infView n := (Nat.two_pow_pos _).ne

/-- A view that the first four fast paths of MUL let through. -/
abbrev NotUnit (n x : Nat) : Prop := x ≠ zeroView ∧ x ≠ oneView n ∧ x ≠ moneView n

theorem unit_cases (n x : Nat) : x = zeroView ∨ x = oneView n ∨ x = moneView n ∨ NotUnit n x := by tauto

theorem notUnit_infView (hn : 2 ≤ n) : NotUnit n (infView n) :=
  ⟨(zeroView_ne_infView n).symm, (denotes_oneView hn).2.2.symm, (denotes_moneView hn).2.2.symm⟩

theorem notUnit_negView {x : Nat} (hn : 2 ≤ n) (h : Denotes n x) (hx : NotUnit n x) : NotUnit n (negView n x) := by
  refine ⟨(denotes_negView (by omega) h).2.1, fun hone => hx.2.2 ?_, fun hmone => hx.2.1 ?_⟩
  · rw [← negView_negView h.1, hone, negView_oneView]
  · rw [← negView_negView h.1, hmone, negView_moneView hn]

theorem notUnit_recView {x : Nat} (hn : 2 ≤ n) (h : Denotes n x) (hx : NotUnit n x) : NotUnit n (recView n x) := by
  refine ⟨(denotes_recView (by omega) h).2.1, fun hone => hx.2.1 ?_, fun hmone => hx.2.2 ?_⟩
  · rw [← recView_recView (by omega) h.1, hone, recView_oneView hn]
  · rw [← recView_recView (by omega) h.1, hmone, recView_moneView hn]

theorem mulView_zeroView_left (c : Config) (n es y : Nat) :
    mulView c n es zeroView y = if y = infView n then .nan else .view zeroView := if_pos rfl

theorem mulView_zeroView_right (c : Config) (n es x : Nat) :
    mulView c n es x zeroView = if x = infView n then .nan else .view zeroView := by
  rcases eq_or_ne x zeroView with rfl | h0
  · exact mulView_zeroView_left c n es zeroView
  · rw [mulView, if_neg h0, if_pos rfl]

theorem mulView_oneView_left (c : Config) (es : Nat) (hn : 2 ≤ n) (y : Nat) :
    mulView c n es (oneView n) y = .view y := by
  obtain ⟨_, hone0, honeInf⟩ := denotes_iff_sentinels.1 (denotes_oneView hn)
  rcases eq_or_ne y zeroView with rfl | h0
  · rw [mulView_zeroView_right, if_neg honeInf]
  · rw [mulView, if_neg hone0, if_neg h0, if_pos rfl]

theorem mulView_moneView_left (c : Config) (es : Nat) (hn : 2 ≤ n) (y : Nat) :
    mulView c n es (moneView n) y = .view (negView n y) := by
  obtain ⟨_, hmone0, hmoneInf⟩ := denotes_iff_sentinels.1 (denotes_moneView hn)
  rcases eq_or_ne y zeroView with rfl | h0
  · rw [mulView_zeroView_right, if_neg hmoneInf, negView_zeroView]
  · rw [mulView, if_neg hmone0, if_neg h0, if_neg (moneView_ne_oneView hn), if_pos rfl]

theorem mulView_oneView_right (c : Config) (es : Nat) (hn : 2 ≤ n) (x : Nat) :
    mulView c n es x (oneView n) = .view x := by
  obtain ⟨_, hone0, honeInf⟩ := denotes_iff_sentinels.1 (denotes_oneView hn)
  rcases unit_cases n x with rfl | rfl | rfl | ⟨h0, h1, hm1⟩
  · rw [mulView_zeroView_left, if_neg honeInf]
  · exact mulView_oneView_left c es hn _
  · rw [mulView_moneView_left c es hn, negView_oneView]
  · rw [mulView, if_neg h0, if_neg hone0, if_neg h1, if_neg hm1, if_pos rfl]

theorem mulView_moneView_right (c : Config) (es : Nat) (hn : 2 ≤ n) (x : Nat) :
    mulView c n es x (moneView n) = .view (negView n x) := by
  obtain ⟨_, hmone0, hmoneInf⟩ := denotes_iff_sentinels.1 (denotes_moneView hn)
  rcases unit_cases n x with rfl | rfl | rfl | ⟨h0, h1, hm1⟩
  · rw [mulView_zeroView_left, if_neg hmoneInf, negView_zeroView]
  · rw [mulView_oneView_left c es hn, negView_oneView]
  · exact mulView_moneView_left c es hn _
  · rw [mulView, if_neg h0, if_neg hmone0, if_neg h1, if_neg hm1, if_neg (moneView_ne_oneView hn), if_pos rfl]

/-- What is left of MUL after its first four fast paths. -/
theorem mulView_of_notUnit (c : Config) (es : Nat) {x y : Nat} (hx : NotUnit n x) (hy : NotUnit n y) :
    mulView c n es x y =
      if x = infView n ∨ y = infView n then .view (infView n)
      else if x = recView n y then .view (oneView n)
      else if x = negView n (recView n y) then .view (moneView n)
      else .view (mulGen c n es x y) := by
  obtain ⟨hx0, hx1, hxm⟩ := hx
  obtain ⟨hy0, hy1, hym⟩ := hy
  rw [mulView, if_neg hx0, if_neg hy0, if_neg hx1, if_neg hxm, if_neg hy1, if_neg hym]

theorem mulView_comm (c : Config) (es : Nat) {x y : Nat} (hn : 2 ≤ n) (hx : x < 2 ^ n) (hy : y < 2 ^ n) :
    mulView c n es x y = mulView c n es y x := by
  rcases unit_cases n x with rfl | rfl | rfl | hxu
  · rw [mulView_zeroView_left, mulView_zeroView_right]
  · rw [mulView_oneView_left c es hn, mulView_oneView_right c es hn]
  · rw [mulView_moneView_left c es hn, mulView_moneView_right c es hn]
  rcases unit_cases n y with rfl | rfl | rfl | hyu
  · rw [mulView_zeroView_left, mulView_zeroView_right]
  · rw [mulView_oneView_left c es hn, mulView_oneView_right c es hn]
  · rw [mulView_moneView_left c es hn, mulView_moneView_right c es hn]
  · simp only [mulView_of_notUnit c es hxu hyu, mulView_of_notUnit c es hyu hxu, or_comm (a := x = infView n),
      eq_recView_comm (by omega) hx hy, eq_negView_recView_comm hn hx hy, mulGen_comm c n es x y]

theorem mulPosit_comm (c : Config) (es : Nat) {x y : Posit} (hn : 2 ≤ n) (hx : OnViews n x) (hy : OnViews n y) :
    mulPosit c n es x y = mulPosit c n es y x := by
  cases x <;> cases y
  case view.view x y => exact mulView_comm c es hn hx hy
  all_goals rfl

/-- Fast path 6, and the fast paths for one where they take it first: both give one. -/
theorem mulView_recView (c : Config) (es : Nat) {x : Nat} (hn : 2 ≤ n) (h : Denotes n x) :
    mulView c n es x (recView n x) = .view (oneView n) := by
  rcases unit_cases n x with rfl | rfl | rfl | hxu
  · exact absurd rfl h.2.1
  · rw [mulView_oneView_left c es hn, recView_oneView hn]
  · rw [mulView_moneView_left c es hn, recView_moneView hn, negView_moneView hn]
  · have hinf : ¬(x = infView n ∨ recView n x = infView n) :=
      not_or.2 ⟨h.2.2, (denotes_recView (by omega) h).2.2⟩
    rw [mulView_of_notUnit c es hxu (notUnit_recView hn h hxu), if_neg hinf,
      if_pos (recView_recView (by omega) h.1).symm]

/-- Fast path 7, and the fast paths for one where they take it first: both give minus one. -/
theorem mulView_recView_negView (c : Config) (es : Nat) {x : Nat} (hn : 2 ≤ n) (h : Denotes n x) :
    mulView c n es x (recView n (negView n x)) = .view (moneView n) := by
  have hneg := denotes_negView (by omega) h
  rcases unit_cases n x with rfl | rfl | rfl | hxu
  · exact absurd rfl h.2.1
  · rw [mulView_oneView_left c es hn, negView_oneView, recView_moneView hn]
  · rw [mulView_moneView_left c es hn, negView_moneView hn, recView_oneView hn, negView_oneView]
  · have hinf : ¬(x = infView n ∨ recView n (negView n x) = infView n) :=
      not_or.2 ⟨h.2.2, (denotes_recView (by omega) hneg).2.2⟩
    rw [mulView_of_notUnit c es hxu (notUnit_recView hn hneg (notUnit_negView hn h hxu)), if_neg hinf,
      recView_recView (by omega) hneg.1, if_neg (ne_negView (by omega) h), if_pos (negView_negView h.1).symm]

theorem mulView_infView_left (c : Config) (es : Nat) {y : Nat} (hn : 2 ≤ n) (h : Denotes n y) :
    mulView c n es (infView n) y = .view (infView n) := by
  rcases unit_cases n y with rfl | rfl | rfl | hyu
  · exact absurd rfl h.2.1
  · exact mulView_oneView_right c es hn _
  · rw [mulView_moneView_right c es hn, negView_infView (by omega)]
  · rw [mulView_of_notUnit c es (notUnit_infView hn) hyu, if_pos (.inl rfl)]

/-! ## ADD -/

theorem addGen_comm (c : Config) (n es x y : Nat) : addGen c n es x y = addGen c n es y x := by
  simp only [addGen, min_comm (combined es (unpackView c n es x)),
    Int.add_comm (alignedTerm c es _ (unpackView c n es x))]

theorem addView_zeroView_left (c : Config) (n es y : Nat) : addView c n es zeroView y = .view y := if_pos rfl

theorem addView_zeroView_right (c : Config) (n es x : Nat) : addView c n es x zeroView = .view x := by
  rcases eq_or_ne x zeroView with rfl | h0
  · exact addView_zeroView_left c n es zeroView
  · rw [addView, if_neg h0, if_pos rfl]

theorem addPosit_zeroView_left (c : Config) (n es : Nat) (x : Posit) : addPosit c n es (.view zeroView) x = x := by
  cases x with
  | nan => rfl
  | view v => exact addView_zeroView_left c n es v

theorem addPosit_zeroView_right (c : Config) (n es : Nat) (x : Posit) : addPosit c n es x (.view zeroView) = x := by
  cases x with
  | nan => rfl
  | view v => exact addView_zeroView_right c n es v

theorem addView_comm (c : Config) (es : Nat) {x y : Nat} (hx : x < 2 ^ n) (hy : y < 2 ^ n) :
    addView c n es x y = addView c n es y x := by
  rcases eq_or_ne x zeroView with rfl | hx0
  · rw [addView_zeroView_left, addView_zeroView_right]
  rcases eq_or_ne y zeroView with rfl | hy0
  · rw [addView_zeroView_left, addView_zeroView_right]
  · simp only [addView, if_neg hx0, if_neg hy0, and_comm (a := x = infView n), or_comm (a := x = infView n),
      eq_negView_comm hx hy, addGen_comm c n es x y]

theorem addPosit_comm (c : Config) (es : Nat) {x y : Posit} (hx : OnViews n x) (hy : OnViews n y) :
    addPosit c n es x y = addPosit c n es y x := by
  cases x <;> cases y
  case view.view x y => exact addView_comm c es hx hy
  all_goals rfl

theorem addView_infView_infView (c : Config) (n es : Nat) : addView c n es (infView n) (infView n) = .nan := by
  rw [addView, if_neg (zeroView_ne_infView n).symm, if_neg (zeroView_ne_infView n).symm, if_pos ⟨rfl, rfl⟩]

theorem addView_negView (c : Config) (es : Nat) {x : Nat} (hn : 1 ≤ n) (h : FiniteView n x) :
    addView c n es x (negView n x) = .view zeroView := by
  rcases eq_or_ne x zeroView with rfl | h0
  · rw [addView_zeroView_left, negView_zeroView]
  · have hx : Denotes n x := ⟨h.1, h0, h.2⟩
    obtain ⟨_, hneg0, hnegInf⟩ := denotes_iff_sentinels.1 (denotes_negView hn hx)
    have hinf : ¬(x = infView n ∨ negView n x = infView n) := not_or.2 ⟨h.2, hnegInf⟩
    rw [addView, if_neg h0, if_neg hneg0, if_neg fun hand => hinf (.inl hand.1), if_neg hinf,
      if_pos (negView_negView h.1).symm]

end Sys2Proof.Machine
end

section
/-! What REC does to the fields (R134). The combined exponent and the fraction, as one integer, interpolate the binary
logarithm of the magnitude between the powers of two below the middle of the range, and mirror it above; so reflecting
the magnitude negates that integer. -/

namespace Sys2Proof.Machine

open Sys2Proof.Safety

variable {c : Config} {n : Nat}

/-! ## The key of a magnitude pattern -/

/-- Combined exponent and fraction of a magnitude pattern as one integer, `j` bits after the binary point. -/
def patternKey (n j p : Nat) : Int :=
  regimeOf p n * (2 ^ j : Nat) + (p % 2 ^ remBits p n * 2 ^ (j - remBits p n) : Nat)

theorem orderKey_eq_patternKey (hn : 2 ≤ n) (hW : n ≤ c.W) (es v : Nat) :
    orderKey c es (unpackView c n es v) = patternKey n (es + c.W) (mag n v) :=
  orderKey_unpackView hn hW es v

/-- The line through the keys of the powers of two `2^r` and `2^(r+1)`. -/
def keyLine (n j r p : Nat) : Int := ((r : Int) + 1 - n) * (2 ^ j : Nat) + (p * 2 ^ (j - r) : Nat)

/-- Neighbouring lines meet in the power of two between them. -/
theorem keyLine_succ {j r : Nat} (n : Nat) (h : r < j) :
    keyLine n j (r + 1) (2 ^ (r + 1)) = keyLine n j r (2 ^ (r + 1)) := by
  have hright : 2 ^ (r + 1) * 2 ^ (j - (r + 1)) = 2 ^ j := by rw [← pow_add, Nat.add_sub_cancel' h]
  have hleft : 2 ^ (r + 1) * 2 ^ (j - r) = 2 * 2 ^ j := by
    rw [← pow_add, ← pow_succ']
    congr 1
    omega
  rw [keyLine, keyLine, hright, hleft]
  push_cast
  ring

/-- Which of the two lines through a number is taken does not matter. -/
theorem keyLine_congr {j r r' p : Nat} (n : Nat) (hr : r ≤ j) (hr' : r' ≤ j) (h : 2 ^ r ≤ p ∧ p ≤ 2 ^ (r + 1))
    (h' : 2 ^ r' ≤ p ∧ p ≤ 2 ^ (r' + 1)) : keyLine n j r p = keyLine n j r' p := by
  have hle : r ≤ r' + 1 := (Nat.pow_le_pow_iff_right (by decide)).1 (h.1.trans h'.2)
  have hle' : r' ≤ r + 1 := (Nat.pow_le_pow_iff_right (by decide)).1 (h'.1.trans h.2)
  obtain rfl | rfl | rfl : r = r' ∨ r = r' + 1 ∨ r' = r + 1 := by omega
  · rfl
  · obtain rfl := le_antisymm h'.2 h.1
    exact keyLine_succ n hr
  · obtain rfl := le_antisymm h.2 h'.1
    exact (keyLine_succ n hr').symm

/-- Below the middle of the range the key lies on the lines. -/
theorem patternKey_of_zeros {j p : Nat} (hn : 2 ≤ n) (hj : n ≤ j) (h0 : 0 < p) (h : p < 2 ^ (n - 2)) :
    ∃ r ≤ j, (2 ^ r ≤ p ∧ p ≤ 2 ^ (r + 1)) ∧ patternKey n j p = keyLine n j r p := by
  have hp : p < 2 ^ (n - 1) := h.trans (Nat.pow_lt_pow_right (by decide) (by omega))
  have hb : runBit p n = false := (runBit_eq_decide hn hp).trans (decide_eq_false (Nat.not_le.2 h))
  have hm : runLen p n < n - 1 := (runLen_le p n).lt_of_ne fun hm =>
    Bool.false_ne_true (hb.symm.trans (runBit_of_runLen_eq h0 hp hm))
  have hregime : regimeOf p n = (remBits p n : Int) + 2 - n := by
    rw [regimeOf, hb, if_neg Bool.false_ne_true, remBits_eq]
    omega
  have hr : remBits p n ≤ j := by rw [remBits_eq]; omega
  have hquot := div_two_pow_remBits hn hp hm
  have hrest := Nat.div_add_mod p (2 ^ remBits p n)
  rw [hquot, regcodeWord_regimeOf hn, hb, if_neg Bool.false_ne_true, Nat.mul_one] at hrest
  have hmod := Nat.mod_lt p (Nat.two_pow_pos (remBits p n))
  rw [patternKey, hregime]
  generalize remBits p n = r at *
  refine ⟨r, hr, ⟨by omega, by rw [pow_succ]; omega⟩, ?_⟩
  have hscale : p * 2 ^ (j - r) = 2 ^ j + p % 2 ^ r * 2 ^ (j - r) := by
    conv_lhs => rw [← hrest, add_mul, ← pow_add, Nat.add_sub_cancel' hr]
  rw [keyLine, hscale]
  push_cast
  ring

/-- In the middle the key is 0, and the line through it is the last. -/
theorem patternKey_oneView (hn : 2 ≤ n) (j : Nat) : patternKey n j (oneView n) = 0 := by
  have hrest : oneView n % 2 ^ remBits (oneView n) n = 0 := by
    rw [remBits_eq, runLen_oneView hn]
    exact Nat.mod_eq_zero_of_dvd (pow_dvd_pow 2 (Nat.sub_le _ _))
  rw [patternKey, regimeOf_oneView hn, hrest, Int.zero_mul, Nat.zero_mul]
  rfl

/-- From the middle of the range on the key lies on the mirrored lines. -/
theorem patternKey_of_ones {j q : Nat} (hn : 2 ≤ n) (hj : n ≤ j) (h : 2 ^ (n - 2) ≤ q) (hq : q < 2 ^ (n - 1)) :
    ∃ r ≤ j, (2 ^ r ≤ 2 ^ (n - 1) - q ∧ 2 ^ (n - 1) - q ≤ 2 ^ (r + 1)) ∧
      patternKey n j q = -keyLine n j r (2 ^ (n - 1) - q) := by
  have hb : runBit q n = true := (runBit_eq_decide hn hq).trans (decide_eq_true h)
  have hregime : regimeOf q n = (runLen q n : Int) - 1 := by rw [regimeOf, if_pos hb]
  have hrem := remBits_eq q n
  rcases (runLen_le q n).lt_or_eq with hm | hm
  · have hr : remBits q n ≤ j := by omega
    have hquot := div_two_pow_remBits hn hq hm
    have hrest := Nat.div_add_mod q (2 ^ remBits q n)
    have hmod := Nat.mod_lt q (Nat.two_pow_pos (remBits q n))
    obtain ⟨k, hk⟩ : ∃ k, 2 ^ runLen q n = k + 1 := Nat.exists_eq_add_one_of_ne_zero (Nat.two_pow_pos _).ne'
    have hpow : (2 : Nat) ^ (n - 1) = 2 ^ remBits q n * (2 * k) + 2 * 2 ^ remBits q n := by
      rw [show n - 1 = 1 + runLen q n + remBits q n by omega, pow_add, pow_add, hk]
      ring
    rw [hquot, regcodeWord_regimeOf hn, if_pos hb, hk, Nat.add_sub_cancel] at hrest
    have hsum : 2 ^ (n - 1) - q + q % 2 ^ remBits q n = 2 * 2 ^ remBits q n := by omega
    have hlen : (runLen q n : Int) = (n : Int) - 2 - remBits q n := by omega
    rw [patternKey, hregime, hlen]
    generalize remBits q n = r at *
    refine ⟨r, hr, ⟨by omega, by rw [pow_succ]; omega⟩, ?_⟩
    have hscale : (2 ^ (n - 1) - q) * 2 ^ (j - r) + q % 2 ^ r * 2 ^ (j - r) = 2 * 2 ^ j := by
      rw [← add_mul, hsum, mul_assoc, ← pow_add, Nat.add_sub_cancel' hr]
    rw [keyLine, eq_neg_iff_add_eq_zero, add_add_add_comm, ← Nat.cast_add, Nat.add_comm (_ * _), hscale]
    push_cast
    ring
  · have hfull := eq_of_runLen_eq hq hm
    rw [if_pos hb] at hfull
    have hone : 2 ^ (n - 1) - q = 1 := by omega
    have hrem0 : remBits q n = 0 := by omega
    refine ⟨0, Nat.zero_le j, by rw [hone]; decide, ?_⟩
    rw [patternKey, hregime, hm, hrem0, hone, keyLine, pow_zero, Nat.mod_one, Nat.zero_mul, Nat.one_mul, Nat.sub_zero,
      Nat.cast_sub (by omega)]
    push_cast
    ring

/-- Reflecting a magnitude at the middle of its range negates its key. -/
theorem patternKey_reflect {j p : Nat} (hn : 2 ≤ n) (hj : n ≤ j) (h0 : 0 < p) (hp : p < 2 ^ (n - 1)) :
    patternKey n j (2 ^ (n - 1) - p) = -patternKey n j p := by
  have hdouble : 2 ^ (n - 1) = 2 * 2 ^ (n - 2) := two_pow_eq_double (n := n - 1) (by omega)
  have hbelow {p : Nat} (h0 : 0 < p) (h : p < 2 ^ (n - 2)) :
      patternKey n j (2 ^ (n - 1) - p) = -patternKey n j p := by
    obtain ⟨r, hr, hmem, hkey⟩ := patternKey_of_zeros hn hj h0 h
    obtain ⟨r', hr', hmem', hkey'⟩ := patternKey_of_ones (q := 2 ^ (n - 1) - p) hn hj (by omega) (by omega)
    rw [Nat.sub_sub_self (by omega)] at hmem' hkey'
    rw [hkey, hkey', keyLine_congr n hr hr' hmem hmem']
  rcases lt_trichotomy p (2 ^ (n - 2)) with hlt | rfl | hgt
  · exact hbelow h0 hlt
  · have hmid : 2 ^ (n - 1) - 2 ^ (n - 2) = oneView n := by rw [oneView]; omega
    rw [hmid, ← oneView, patternKey_oneView hn]
    rfl
  · have h := hbelow (p := 2 ^ (n - 1) - p) (by omega) (by omega)
    rw [Nat.sub_sub_self hp.le] at h
    rw [h, neg_neg]

/-! ## The fields of the reciprocal -/

theorem orderKey_recView (hn : 2 ≤ n) (hW : n ≤ c.W) (es : Nat) {x : Nat} (h : Denotes n x) :
    orderKey c es (unpackView c n es (recView n x)) = -orderKey c es (unpackView c n es x) := by
  rw [orderKey_eq_patternKey hn hW, orderKey_eq_patternKey hn hW, mag_recView (by omega) h,
    patternKey_reflect hn (by omega) (mag_pos (by omega) h) (mag_lt (by omega) h)]

/-- Combined exponent and fraction are quotient and remainder of the key. -/
theorem fields_of_orderKey_eq {es : Nat} {r : Record} {e : Int} {f : Nat} (hr : r.fraction < 2 ^ c.W)
    (hf : f < 2 ^ c.W) (h : orderKey c es r = e * (2 ^ c.W : Nat) + f) : combined es r = e ∧ r.fraction = f := by
  have hpos : (0 : Int) < ((2 ^ c.W : Nat) : Int) := by exact_mod_cast Nat.two_pow_pos c.W
  have hparts {e : Int} {f : Nat} (hf : f < 2 ^ c.W) (h : orderKey c es r = e * (2 ^ c.W : Nat) + f) :
      orderKey c es r / (2 ^ c.W : Nat) = e ∧ orderKey c es r % (2 ^ c.W : Nat) = f :=
    (Int.ediv_emod_unique hpos).2 ⟨by rw [h, mul_comm, add_comm], by omega, by omega⟩
  obtain ⟨hdiv, hmod⟩ := hparts hr rfl
  obtain ⟨hdiv', hmod'⟩ := hparts hf h
  exact ⟨hdiv.symm.trans hdiv', by exact_mod_cast hmod.symm.trans hmod'⟩

end Sys2Proof.Machine
end

section
/-! The general path of MUL is the exact product, truncated (R136 to R138): the product of the integer significands,
`k` and `k'` bits after the point, has its leading one at bit `k + k'` or one above, and what follows that one is the
fraction. -/

namespace Sys2Proof.Machine

open Sys2Proof.Safety

variable {c : Config} {n : Nat}

/-! ## The steps (R136) -/

/-- Reinstating the hidden bit is adding it: it stands above the shifted fraction. -/
theorem significand_eq {f : Nat} (hW : 1 ≤ c.W) (hf : f < 2 ^ c.W) : significand c f = 2 ^ (c.W - 1) + f / 2 := by
  have hdouble := two_pow_eq_double hW
  have hhalf : f / 2 < 2 ^ (c.W - 1) := by omega
  simpa [significand] using (Nat.two_pow_add_eq_or_of_lt hhalf 1).symm

theorem significand_lt {f : Nat} (hW : 1 ≤ c.W) (hf : f < 2 ^ c.W) : significand c f < 2 ^ c.W := by
  have hdouble := two_pow_eq_double hW
  rw [significand_eq hW hf]
  omega

/-- The top half of the product of two significands is a `W`-bit word. -/
theorem significand_mul_div_lt {f f' : Nat} (hW : 1 ≤ c.W) (hf : f < 2 ^ c.W) (hf' : f' < 2 ^ c.W) :
    significand c f * significand c f' / 2 ^ c.W < 2 ^ c.W :=
  Nat.div_lt_of_lt_mul (Nat.mul_lt_mul'' (significand_lt hW hf) (significand_lt hW hf'))

/-! ## Rescaling a number with its leading one -/

theorem rescale_add_add (k m j x : Nat) : rescale (k + j) (m + j) x = rescale k m x := by
  rw [rescale_eq, rescale_eq, pow_add, pow_add, ← mul_assoc, Nat.mul_div_mul_right _ _ (Nat.two_pow_pos j)]

theorem rescale_two_pow_add (k m x : Nat) : rescale k m (2 ^ k + x) = 2 ^ m + rescale k m x := by
  rw [rescale_eq, rescale_eq, add_mul, Nat.mul_add_div (Nat.two_pow_pos k)]

@[simp] theorem rescale_self (k x : Nat) : rescale k k x = x := by simp [rescale]

/-! ## The product of the integer significands -/

theorem integerSignificand_mem (n es v : Nat) :
    2 ^ fracWidth (mag n v) n es ≤ integerSignificand n es v ∧
      integerSignificand n es v < 2 ^ (fracWidth (mag n v) n es + 1) := by
  have hlt := storedFraction_lt n es v
  rw [integerSignificand, pow_succ]
  omega

/-- The number of fraction bits of the exact product. -/
def productWidth (n es x y : Nat) : Nat := fracWidth (mag n x) n es + fracWidth (mag n y) n es

/-- The exact product of two significands, as an integer. -/
def productSignificand (n es x y : Nat) : Nat := integerSignificand n es x * integerSignificand n es y

/-- MULGEN's `mfrac` is the exact product brought to the storage width. -/
theorem significand_mul_div_eq (hn : 2 ≤ n) (hW : n ≤ c.W) (es x y : Nat) :
    significand c (unpackView c n es x).fraction * significand c (unpackView c n es y).fraction / 2 ^ c.W =
      rescale (productWidth n es x y + 2) c.W (productSignificand n es x y) :=
  significand_mul_significand hn hW es x y

theorem productSignificand_mem (n es x y : Nat) :
    2 ^ productWidth n es x y ≤ productSignificand n es x y ∧
      productSignificand n es x y < 2 ^ (productWidth n es x y + 2) := by
  obtain ⟨hx, hx'⟩ := integerSignificand_mem n es x
  obtain ⟨hy, hy'⟩ := integerSignificand_mem n es y
  refine ⟨?_, ?_⟩
  · rw [productWidth, pow_add]
    exact Nat.mul_le_mul hx hy
  · rw [productWidth, add_add_add_comm _ _ 1 1, pow_add]
    exact Nat.mul_lt_mul'' hx' hy'

/-- The product is in `[1, 2)` or in `[2, 4)`: its leading one stands `s` places above the point (R137). -/
theorem exists_productSignificand_eq (n es x y : Nat) : ∃ s ≤ 1, ∃ g < 2 ^ (productWidth n es x y + s),
    productSignificand n es x y = 2 ^ (productWidth n es x y + s) + g := by
  obtain ⟨hlo, hhi⟩ := productSignificand_mem n es x y
  rw [pow_add] at hhi
  rcases Nat.lt_or_ge (productSignificand n es x y) (2 ^ (productWidth n es x y + 1)) with h | h
  · refine ⟨0, Nat.zero_le 1, productSignificand n es x y - 2 ^ productWidth n es x y, ?_, ?_⟩
    · rw [pow_succ] at h
      rw [Nat.add_zero]
      omega
    · rw [Nat.add_zero]
      omega
  · refine ⟨1, le_rfl, productSignificand n es x y - 2 ^ (productWidth n es x y + 1), ?_, ?_⟩
    · rw [pow_succ] at h ⊢
      omega
    · omega

/-- The bit that decides the shift is set exactly when the product reached 2. -/
theorem testBit_rescale_product {k s g : Nat} (hW : 1 ≤ c.W) (hs : s ≤ 1) (hg : g < 2 ^ (k + s)) :
    (rescale (k + 2) c.W (2 ^ (k + s) + g)).testBit (c.W - 1) = decide (s = 1) := by
  have hquot : (2 ^ (k + s) + g) / 2 ^ (k + 1) = s := by
    interval_cases s
    · rw [Nat.add_zero] at hg ⊢
      exact Nat.div_eq_of_lt (by rw [pow_succ]; omega)
    · rw [Nat.add_div_left _ (Nat.two_pow_pos _), Nat.div_eq_of_lt hg]
  rw [testBit_rescale (by omega), rescale_of_ge (by omega), show k + 2 - (c.W - (c.W - 1)) = k + 1 by omega, hquot]
  interval_cases s <;> rfl

/-- The general path packs what follows the leading one of the product, in the bits PACK reads. -/
theorem mulGen_eq_packClipped (hn : 2 ≤ n) (hW : n ≤ c.W) (es : Nat) {x y s g : Nat} (hs : s ≤ 1)
    (hg : g < 2 ^ (productWidth n es x y + s))
    (hprod : productSignificand n es x y = 2 ^ (productWidth n es x y + s) + g) :
    mulGen c n es x y =
      packClipped c n es (xor (signBit n x) (signBit n y))
        (combined es (unpackView c n es x) + combined es (unpackView c n es y) + s)
        (rescale (productWidth n es x y + s) c.W g) := by
  simp only [mulGen, significand_mul_div_eq hn hW, unpackView_sign, hprod]
  generalize productWidth n es x y = k at *
  have hshift : (if decide (s = 1) = true then 0 else 1) = 1 - s := by
    interval_cases s <;> rfl
  have hread : rescale c.W (n - 3) (rescale (k + 2) c.W (2 ^ (k + s) + g) * 2 ^ (1 - s + 1) % 2 ^ c.W) =
      rescale c.W (n - 3) (rescale (k + s) c.W g) := by
    rw [rescale_shiftLeft_mod (by omega), rescale_rescale (.inr (by omega)), rescale_rescale (.inr (by omega)),
      show k + 2 = k + s + (1 - s + 1) by omega, rescale_add_add, rescale_two_pow_add, Nat.add_mod_left,
      Nat.mod_eq_of_lt (rescale_lt hg)]
  rw [testBit_rescale_product (by omega) hs hg, hshift, packClipped_congr hW hW es _ _ hread]
  congr 1
  omega

/-! ## The exact number (R138) -/

theorem one_add_unpackView_fraction (hn : 2 ≤ n) (hW : n ≤ c.W) (es v : Nat) :
    1 + ((unpackView c n es v).fraction : ℚ) / 2 ^ c.W =
      (integerSignificand n es v : ℚ) / 2 ^ fracWidth (mag n v) n es := by
  have hw := fracWidth_le (mag n v) es hn
  have hpow : (2 : ℚ) ^ c.W = 2 ^ fracWidth (mag n v) n es * 2 ^ (c.W - fracWidth (mag n v) n es) := by
    rw [← pow_add, Nat.add_sub_cancel' (by omega)]
  rw [unpackView_fraction hn hW, rescale_of_le (by omega), integerSignificand, hpow]
  push_cast
  field_simp

/-- The number a record denotes, its sign first. -/
theorem viewValue_eq_integerSignificand (hn : 2 ≤ n) (hW : n ≤ c.W) (es : Nat) {v : Nat} (h : Denotes n v) :
    viewValue c n es v = (if signBit n v then -1 else 1) * (2 : ℚ) ^ combined es (unpackView c n es v) *
      ((integerSignificand n es v : ℚ) / 2 ^ fracWidth (mag n v) n es) := by
  rw [viewValue_of_denotes c es h, recordValue, unpackView_sign, one_add_unpackView_fraction hn hW]

theorem viewValue_mul_viewValue (hn : 2 ≤ n) (hW : n ≤ c.W) (es : Nat) {x y s g : Nat} (hx : Denotes n x)
    (hy : Denotes n y) (hprod : productSignificand n es x y = 2 ^ (productWidth n es x y + s) + g) :
    viewValue c n es x * viewValue c n es y =
      (if xor (signBit n x) (signBit n y) then -1 else 1) *
        (2 : ℚ) ^ (combined es (unpackView c n es x) + combined es (unpackView c n es y) + s) *
        (1 + (g : ℚ) / 2 ^ (productWidth n es x y + s)) := by
  have hsign : (if xor (signBit n x) (signBit n y) then -1 else 1 : ℚ) =
      (if signBit n x then -1 else 1) * (if signBit n y then -1 else 1) := by
    cases signBit n x <;> cases signBit n y <;> norm_num
  have hsig : (integerSignificand n es x : ℚ) / 2 ^ fracWidth (mag n x) n es *
      ((integerSignificand n es y : ℚ) / 2 ^ fracWidth (mag n y) n es) =
      2 ^ s * (1 + (g : ℚ) / 2 ^ (productWidth n es x y + s)) := by
    have hcast : (integerSignificand n es x : ℚ) * integerSignificand n es y = 2 ^ (productWidth n es x y + s) + g := by
      exact_mod_cast hprod
    rw [div_mul_div_comm, ← pow_add, ← productWidth, hcast, pow_add 2 _ s]
    field_simp
  rw [viewValue_eq_integerSignificand hn hW es hx, viewValue_eq_integerSignificand hn hW es hy, hsign,
    mul_mul_mul_comm, hsig, mul_mul_mul_comm, zpow_add₀ two_ne_zero, zpow_add₀ two_ne_zero, zpow_natCast]
  ring

theorem mulGen_eq_truncateExact (hn : 2 ≤ n) (hW : n ≤ c.W) (es : Nat) {x y : Nat} (hx : Denotes n x)
    (hy : Denotes n y) : mulGen c n es x y = truncateExact c n es (viewValue c n es x * viewValue c n es y) := by
  obtain ⟨s, hs, g, hg, hprod⟩ := exists_productSignificand_eq n es x y
  rw [mulGen_eq_packClipped hn hW es hs hg hprod, viewValue_mul_viewValue hn hW es hx hy hprod]
  exact packClipped_rescale_eq_truncateExact hW hW es _ _ hg

/-! ## Multiplying by one (R137) -/

/-- A number that a view denotes is packed to that view: truncation loses nothing. -/
theorem truncateExact_viewValue (hn : 2 ≤ n) (hW : n ≤ c.W) (es : Nat) {v : Nat} (h : Denotes n v) :
    truncateExact c n es (viewValue c n es v) = v := by
  rw [viewValue_of_denotes c es h, recordValue,
    ← packClipped_rescale_eq_truncateExact hW hW es _ _ (unpackView_fraction_lt hn hW es v), rescale_self]
  exact packClipped_unpackView hn hW es h

theorem viewValue_oneView (c : Config) (es : Nat) (hn : 2 ≤ n) : viewValue c n es (oneView n) = 1 := by
  rw [viewValue_of_denotes c es (denotes_oneView hn), unpackView_oneView c es hn]
  simp [recordValue, combined]

theorem mulGen_oneView (hn : 2 ≤ n) (hW : n ≤ c.W) (es : Nat) {x : Nat} (h : Denotes n x) :
    mulGen c n es x (oneView n) = x := by
  rw [mulGen_eq_truncateExact hn hW es h (denotes_oneView hn), viewValue_oneView c es hn, mul_one,
    truncateExact_viewValue hn hW es h]

theorem mulGen_moneView (hn : 2 ≤ n) (hW : n ≤ c.W) (es : Nat) {x : Nat} (h : Denotes n x) :
    mulGen c n es x (moneView n) = negView n x := by
  have hone := denotes_oneView hn
  have hmone : viewValue c n es (moneView n) = -1 := by
    rw [← negView_oneView, viewValue_negView c (by omega) es ⟨hone.1, hone.2.2⟩, viewValue_oneView c es hn]
  rw [mulGen_eq_truncateExact hn hW es h (denotes_moneView hn), hmone, mul_neg_one,
    ← viewValue_negView c (by omega) es ⟨h.1, h.2.2⟩, truncateExact_viewValue hn hW es (denotes_negView (by omega) h)]

end Sys2Proof.Machine
end

section
/-! The general path of ADD rounds the exact sum once (R142): `t * 2^(k - W)` is the sum, the length of `t` gives its
exponent, and rounding the integer `t` at a bit is rounding the number. -/

namespace Sys2Proof.Machine

open Sys2Proof.Safety

variable {c : Config} {n : Nat}

/-! ## The exact sum -/

theorem recordValue_eq_alignedTerm (c : Config) {es : Nat} {k : Int} {r : Record} (hk : k ≤ combined es r) :
    recordValue c es r = (alignedTerm c es k r : ℚ) * 2 ^ (k - c.W) := by
  have hexp : (2 : ℚ) ^ (combined es r - k).toNat = 2 ^ combined es r / 2 ^ k := by
    rw [← zpow_natCast, Int.toNat_of_nonneg (Int.sub_nonneg.2 hk), zpow_sub₀ two_ne_zero]
  have hmagnitude : recordMagnitude c es r = (alignedMagnitude c es k r : ℚ) * 2 ^ (k - c.W) := by
    rw [recordMagnitude, alignedMagnitude, zpow_sub₀ two_ne_zero, zpow_natCast]
    push_cast
    rw [hexp]
    field_simp
  rw [recordValue_eq, alignedTerm_eq, hmagnitude]
  split <;> push_cast <;> ring

/-- The aligned terms add up to the exact sum. -/
theorem viewValue_add_viewValue (c : Config) (es : Nat) {x y : Nat} (hx : Denotes n x) (hy : Denotes n y) {k : Int}
    (hkx : k ≤ combined es (unpackView c n es x)) (hky : k ≤ combined es (unpackView c n es y)) :
    viewValue c n es x + viewValue c n es y =
      ((alignedTerm c es k (unpackView c n es x) + alignedTerm c es k (unpackView c n es y) : Int) : ℚ) *
        2 ^ (k - c.W) := by
  rw [viewValue_of_denotes c es hx, viewValue_of_denotes c es hy, recordValue_eq_alignedTerm c hkx,
    recordValue_eq_alignedTerm c hky, Int.cast_add, add_mul]

/-! ## The exponent -/

theorem two_pow_bitlen_mem {t : Nat} (ht : t ≠ 0) : 2 ^ (bitlen t - 1) ≤ t ∧ t < 2 ^ (bitlen t - 1 + 1) := by
  have hlen : bitlen t ≠ 0 := by have := bitlen_le_iff t 0; omega
  exact (bitlen_eq_succ_iff t _).1 (by omega)

/-- The length of an integer is the exponent of its leading one. -/
theorem log_two_natCast_mul_zpow {t : Nat} (ht : t ≠ 0) (m : Int) :
    Int.log 2 ((t : ℚ) * 2 ^ m) = ((bitlen t - 1 : Nat) : Int) + m := by
  obtain ⟨hlo, hhi⟩ := two_pow_bitlen_mem ht
  rw [pow_succ] at hhi
  obtain ⟨g, hg⟩ := Nat.exists_eq_add_of_le hlo
  have hlt : (g : ℚ) / 2 ^ (bitlen t - 1) < 1 :=
    (div_lt_one (by positivity)).2 (by exact_mod_cast (by omega : g < 2 ^ (bitlen t - 1)))
  have hcast : (t : ℚ) = 2 ^ (bitlen t - 1) + g := by exact_mod_cast hg
  have hsplit : (t : ℚ) * 2 ^ m = 2 ^ (((bitlen t - 1 : Nat) : Int) + m) * (1 + (g : ℚ) / 2 ^ (bitlen t - 1)) := by
    rw [zpow_add₀ two_ne_zero, zpow_natCast, mul_right_comm, mul_add, mul_one,
      mul_div_cancel₀ _ (pow_ne_zero _ two_ne_zero), ← hcast]
  rw [hsplit, log_two_zpow_mul _ (by positivity) hlt]

/-! ## Rounding -/

theorem roundNearest_natCast (tie : AddTie) (q : Nat) : roundNearest tie q = q := by
  simp [roundNearest]

/-- Rounding an integer at bit `sh` is rounding the number it is with that bit before the point. -/
theorem roundNearest_div_two_pow (tie : AddTie) (t : Nat) {sh : Nat} (hsh : 1 ≤ sh) :
    roundNearest tie ((t : ℚ) / 2 ^ sh) = roundShift tie t sh := by
  have hdouble : (2 : ℚ) ^ sh = 2 * (2 ^ (sh - 1) : Nat) := by exact_mod_cast two_pow_eq_double hsh
  have hfloor : ⌊(t : ℚ) / 2 ^ sh⌋₊ = t / 2 ^ sh := by
    rw [← Nat.floor_div_eq_div (K := ℚ)]
    push_cast
    rfl
  have hrem : (t : ℚ) / 2 ^ sh - (t / 2 ^ sh : Nat) = (t % 2 ^ sh : Nat) / 2 ^ sh := by
    have hdiv : (2 : ℚ) ^ sh * (t / 2 ^ sh : Nat) + (t % 2 ^ sh : Nat) = t := by
      exact_mod_cast Nat.div_add_mod t (2 ^ sh)
    rw [← hdiv, add_div, mul_div_cancel_left₀ _ (by positivity), add_sub_cancel_left]
  have hlt : (1 / 2 : ℚ) < (t % 2 ^ sh : Nat) / 2 ^ sh ↔ 2 ^ (sh - 1) < t % 2 ^ sh := by
    rw [lt_div_iff₀ (by positivity), hdouble, one_div, inv_mul_cancel_left₀ two_ne_zero, Nat.cast_lt]
  have heq : ((t % 2 ^ sh : Nat) : ℚ) / 2 ^ sh = 1 / 2 ↔ t % 2 ^ sh = 2 ^ (sh - 1) := by
    rw [div_eq_iff (by positivity), hdouble, one_div, inv_mul_cancel_left₀ two_ne_zero, Nat.cast_inj]
  simp only [roundNearest, roundShift, hfloor, hrem, gt_iff_lt, hlt, heq]
  rcases lt_trichotomy (t % 2 ^ sh) (2 ^ (sh - 1)) with h | h | h
  · rw [if_neg (by omega), if_neg h.not_gt, if_pos h]
  · cases tie <;> simp [h]
  · rw [if_pos (.inl h), if_pos h]

/-- Rounding the significand of an integer to `fw` fraction bits (R142). -/
theorem roundNearest_significand (tie : AddTie) (t fw : Nat) :
    roundNearest tie ((t : ℚ) / 2 ^ (bitlen t - 1) * 2 ^ fw) = roundedSignificand tie t fw := by
  unfold roundedSignificand
  split
  · next h =>
    have hpow : (2 : ℚ) ^ fw = 2 ^ (bitlen t - 1) * 2 ^ (fw - (bitlen t - 1)) := by
      rw [← pow_add, Nat.add_sub_cancel' h]
    rw [← roundNearest_natCast tie (t * _), hpow, ← mul_assoc, div_mul_cancel₀ _ (by positivity)]
    push_cast
    rfl
  · next h =>
    have hpow : (2 : ℚ) ^ (bitlen t - 1) = 2 ^ (bitlen t - 1 - fw) * 2 ^ fw := by
      rw [← pow_add, Nat.sub_add_cancel (by omega)]
    rw [← roundNearest_div_two_pow tie t (by omega), hpow, ← div_div, div_mul_cancel₀ _ (by positivity)]

/-! ## ADDGEN -/

/-- ADDGEN's end rounds the number it is given. -/
theorem roundPack_eq_roundExact (c : Config) (n es : Nat) {t : Int} (ht : t ≠ 0) (k : Int) :
    roundPack c n es (decide (t < 0)) t.natAbs k = roundExact c n es ((t : ℚ) * 2 ^ (k - c.W)) := by
  have hnat : t.natAbs ≠ 0 := Int.natAbs_ne_zero.2 ht
  have hlen : 1 ≤ bitlen t.natAbs := by have := bitlen_le_iff t.natAbs 0; omega
  have hpos : (0 : ℚ) < 2 ^ (k - c.W) := by positivity
  have hsign : (t : ℚ) * 2 ^ (k - c.W) < 0 ↔ t < 0 := by simp [mul_neg_iff, hpos, hpos.not_gt]
  have habs : |(t : ℚ) * 2 ^ (k - c.W)| = (t.natAbs : ℚ) * 2 ^ (k - c.W) := by
    rw [abs_mul, abs_of_pos hpos, Nat.cast_natAbs, Int.cast_abs]
  have hexp : (bitlen t.natAbs : Int) - 1 + k - c.W = ((bitlen t.natAbs - 1 : Nat) : Int) + (k - c.W) := by omega
  have hsig : (t.natAbs : ℚ) * 2 ^ (k - c.W) / 2 ^ (((bitlen t.natAbs - 1 : Nat) : Int) + (k - c.W)) =
      (t.natAbs : ℚ) / 2 ^ (bitlen t.natAbs - 1) := by
    rw [zpow_add₀ two_ne_zero, zpow_natCast, mul_div_mul_right _ _ hpos.ne']
  simp only [roundPack_eq, roundExact, hsign, habs, log_two_natCast_mul_zpow hnat, hexp, hsig, roundNearest_significand]

theorem addGen_eq_roundExact (hn : 2 ≤ n) (hW : n ≤ c.W) (es : Nat) {x y : Nat} (hx : Denotes n x) (hy : Denotes n y)
    (hxy : x ≠ negView n y) : addGen c n es x y = roundExact c n es (viewValue c n es x + viewValue c n es y) := by
  have hkx := Int.min_le_left (combined es (unpackView c n es x)) (combined es (unpackView c n es y))
  have hky := Int.min_le_right (combined es (unpackView c n es x)) (combined es (unpackView c n es y))
  rw [viewValue_add_viewValue c es hx hy hkx hky]
  exact roundPack_eq_roundExact c n es (alignedTerm_add_ne_zero hn hW hx hy hxy hkx hky) _

end Sys2Proof.Machine
end

section
/-! The obligations on the arithmetic engine (43_arithmetic.md). -/

namespace Sys2Proof

open Sys2Proof.Machine Sys2Proof.Safety

/-- Settles O40: the two's complement is an involution, and so is the reflection of the magnitude. -/
theorem negAndRecAreInvolutions : Obligations.NegAndRecAreInvolutions := by
  intro s f x hf hx
  have ⟨hn, _, _⟩ := hf
  exact ⟨⟨_, exec_neg hf x rfl, exec_neg hf _ (negPosit_negPosit hx)⟩,
    ⟨_, exec_recip hf x rfl, exec_recip hf _ (recPosit_recPosit (by omega) hx)⟩⟩

/-- Settles O38, by NEG's own checks and its view. -/
theorem negIsTwosComplement : Obligations.NegIsTwosComplement := fun _ _ hf =>
  ⟨exec_neg hf .nan rfl, fun v _ => exec_neg hf (.view v) rfl, fun _ hx => unaryValue_stray negPosit hf hx⟩

/-- Settles O39: below the sign nothing carries out, for the bits there are not all zero. -/
theorem recComplementsBelowTheSign : Obligations.RecComplementsBelowTheSign := by
  intro s f hf
  have ⟨hn, _, _⟩ := hf
  have hanswer {v w : Nat} (h : recView f.nbits v = w) :
      exec (.recip f (packed s.cfg f.nbits v)) s = .next (s.answered (.ok (.ofValue (packed s.cfg f.nbits w)))) :=
    exec_recip hf (.view v) (congrArg Posit.view h)
  exact ⟨exec_recip hf .nan rfl, hanswer (recView_zeroView _), hanswer (recView_infView _),
    fun v hv => hanswer (recView_of_denotes (by omega) hv), fun _ hx => unaryValue_stray recPosit hf hx⟩

/-- Settles O48: DIV is defined as this composition. -/
theorem divIsMulByReciprocal : Obligations.DivIsMulByReciprocal :=
  ⟨fun _ _ x y hf _ _ => ⟨_, _, exec_recip hf y rfl, exec_mul hf x _ rfl, exec_div hf x y rfl⟩,
    fun _ _ _ _ hf hxy => binaryValue_stray divPosit hf hxy⟩

/-- Settles O52: SUB is defined as this composition. -/
theorem subIsAddOfNegation : Obligations.SubIsAddOfNegation :=
  ⟨fun _ _ x y hf _ _ => ⟨_, _, exec_neg hf y rfl, exec_add hf x _ rfl, exec_sub hf x y rfl⟩,
    fun _ _ _ _ hf hxy => binaryValue_stray subPosit hf hxy⟩

/-- Settles O42: the answer is the packed form of each branch's value. -/
theorem mulFastPathsInOrder : Obligations.MulFastPathsInOrder := by
  refine ⟨fun s f x y hf _ _ => ?_, fun _ _ _ _ hf hxy => binaryValue_stray mulPosit hf hxy⟩
  have ⟨hn, _, _⟩ := hf
  refine ⟨exec_mul hf .nan (.view y) rfl, exec_mul hf (.view x) .nan rfl, exec_mul hf .nan .nan rfl, ?_⟩
  have h := exec_mul hf (.view x) (.view y) rfl
  simp only [mulPosit, mulView, moneView_eq hn, apply_ite (Posit.toValue s.cfg f.nbits)] at h
  exact h

/-- Settles O50: the answer is the packed form of each branch's value. -/
theorem addFastPathsInOrder : Obligations.AddFastPathsInOrder := by
  refine ⟨fun s f x y hf _ _ => ?_, fun _ _ _ _ hf hxy => binaryValue_stray addPosit hf hxy⟩
  refine ⟨exec_add hf .nan (.view y) rfl, exec_add hf (.view x) .nan rfl, exec_add hf .nan .nan rfl, ?_⟩
  have h := exec_add hf (.view x) (.view y) rfl
  simp only [addPosit, addView, apply_ite (Posit.toValue s.cfg f.nbits)] at h
  exact h

/-- Settles O45: every fast path has its mirror image, and the two general paths are symmetric. -/
theorem mulAndAddAreCommutative : Obligations.MulAndAddAreCommutative := fun _ f _ _ hx hy =>
  ⟨binaryValue_comm (fun hn _ _ _ hu hv => mulPosit_comm _ f.es hn hu hv) hx hy,
    binaryValue_comm (fun _ _ _ _ hu hv => addPosit_comm _ f.es hu hv) hx hy⟩

/-- Settles O46, by fast paths 1 to 4. -/
theorem mulIdentityAndZeroAbsorption : Obligations.MulIdentityAndZeroAbsorption := by
  intro s f hf
  have ⟨hn, _, _⟩ := hf
  refine ⟨fun x _ => ?_, fun v hv => ?_, ?_⟩
  · cases x with
    | nan => exact ⟨exec_mul hf .nan (.view _) rfl, exec_mul hf (.view _) .nan rfl⟩
    | view v =>
      exact ⟨exec_mul hf (.view v) (.view _) (mulView_oneView_right _ _ hn v),
        exec_mul hf (.view _) (.view v) (mulView_oneView_left _ _ hn v)⟩
  · exact exec_mul hf (.view v) (.view zeroView) ((mulView_zeroView_right _ _ _ v).trans (if_neg hv.2.2))
  · exact exec_mul hf (.view (infView f.nbits)) (.view zeroView) ((mulView_zeroView_right _ _ _ _).trans (if_pos rfl))

/-- Settles O49: the reciprocal of the divisor meets the fast paths of MUL. -/
theorem divCornerCases : Obligations.DivCornerCases := by
  intro s f v hf hv
  have ⟨hn, _, _⟩ := hf
  have hrec := denotes_recView (by omega) hv
  have hneg : mulView s.cfg f.nbits f.es v (recView f.nbits (2 ^ f.nbits - v)) =
      .view (2 ^ (f.nbits - 1) + 2 ^ (f.nbits - 2)) := by
    rw [← negView_of_ne_zero _ hv.2.1, mulView_recView_negView _ _ hn hv, moneView_eq hn]
  have hzero : mulView s.cfg f.nbits f.es zeroView (recView f.nbits zeroView) = .nan := by
    rw [recView_zeroView, mulView_zeroView_left, if_pos rfl]
  have hinf : mulView s.cfg f.nbits f.es (infView f.nbits) (recView f.nbits (infView f.nbits)) = .nan := by
    rw [recView_infView, mulView_zeroView_right, if_pos rfl]
  have hbyZero : mulView s.cfg f.nbits f.es v (recView f.nbits zeroView) = .view (infView f.nbits) := by
    rw [recView_zeroView, mulView_comm _ _ hn hv.1 (infView_lt hn), mulView_infView_left _ _ hn hv]
  have hofZero : mulView s.cfg f.nbits f.es zeroView (recView f.nbits v) = .view zeroView :=
    (mulView_zeroView_left _ _ _ _).trans (if_neg hrec.2.2)
  have hbyInf : mulView s.cfg f.nbits f.es v (recView f.nbits (infView f.nbits)) = .view zeroView := by
    rw [recView_infView]
    exact (mulView_zeroView_right _ _ _ _).trans (if_neg hv.2.2)
  exact ⟨exec_div hf (.view _) (.view _) (mulView_recView _ _ hn hv), exec_div hf (.view _) (.view _) hneg,
    exec_div hf (.view zeroView) (.view zeroView) hzero, exec_div hf (.view _) (.view _) hinf,
    exec_div hf (.view _) (.view _) hbyZero, exec_div hf (.view zeroView) (.view _) hofZero,
    exec_div hf (.view _) (.view _) hbyInf, exec_div hf (.view _) (.view _) (mulView_infView_left _ _ hn hrec)⟩

/-- Settles O53: the negated operand meets the fast paths of ADD. -/
theorem addAndSubIdentities : Obligations.AddAndSubIdentities := by
  intro s f hf
  have ⟨hn, _, _⟩ := hf
  have hsubZero (x : Posit) : addPosit s.cfg f.nbits f.es x (negPosit f.nbits (.view zeroView)) = x := by
    rw [negPosit, negView_zeroView, addPosit_zeroView_right]
  have hinf : addPosit s.cfg f.nbits f.es (.view (infView f.nbits)) (negPosit f.nbits (.view (infView f.nbits))) =
      .nan := by
    rw [negPosit, negView_infView (by omega)]
    exact addView_infView_infView _ _ _
  exact ⟨fun x _ => ⟨exec_add hf x (.view _) (addPosit_zeroView_right _ _ _ x),
      exec_add hf (.view _) x (addPosit_zeroView_left _ _ _ x), exec_sub hf x (.view _) (hsubZero x)⟩,
    fun _ hv hne => exec_sub hf (.view _) (.view _) (addView_negView _ _ (by omega) ⟨hv, hne⟩),
    fun _ _ => exec_sub hf (.view zeroView) (.view _) (addPosit_zeroView_left s.cfg f.nbits f.es (.view _)),
    exec_sub hf (.view _) (.view _) hinf⟩

/-- Settles O43: the hidden bit is added, and the top bit of `mfrac` is a comparison. -/
theorem mulGeneralPathSteps : Obligations.MulGeneralPathSteps := by
  intro c n es x y hn hW _ _
  have hfx := unpackView_fraction_lt hn hW es x
  have hfy := unpackView_fraction_lt hn hW es y
  have htop := signBit_eq_decide (n := c.W) (by omega) (significand_mul_div_lt (by omega) hfx hfy)
  rw [signBit, significand_eq (by omega) hfx, significand_eq (by omega) hfy] at htop
  simp only [mulGen, packClipped_eq_packView, significand_eq (show 1 ≤ c.W by omega) hfx,
    significand_eq (show 1 ≤ c.W by omega) hfy, htop, decide_eq_true_eq]
  rfl

/-- Settles O44, by the leading one of the product of the integer significands. -/
theorem mulPacksTheExactProduct : Obligations.MulPacksTheExactProduct :=
  fun _ _ es _ _ hn hW hx hy => mulGen_eq_truncateExact hn hW es hx hy

/-- Settles O47: the exact product is the number of the operand or of its negation. -/
theorem oneFastPathsAgreeWithGeneralPath : Obligations.OneFastPathsAgreeWithGeneralPath := by
  intro c n es x hn hW hx
  rw [mulGen_comm c n es (oneView n), mulGen_comm c n es (moneView n)]
  exact ⟨mulGen_oneView hn hW es hx, mulGen_oneView hn hW es hx, mulGen_moneView hn hW es hx,
    mulGen_moneView hn hW es hx⟩

/-- Settles O41: combined exponent and fraction, as one integer, are negated. -/
theorem recOnTheFields : Obligations.RecOnTheFields := by
  intro c n es x hn hW hx
  have hkey := orderKey_recView hn hW es hx
  have hf := unpackView_fraction_lt hn hW es x
  have hf' := unpackView_fraction_lt hn hW es (recView n x)
  refine ⟨signBit_recView (by omega) hx, fun hzero => ?_, fun hpos => ?_⟩
  · refine fields_of_orderKey_eq hf' (Nat.two_pow_pos _) ?_
    rw [hkey, orderKey, hzero, Nat.cast_zero, add_zero, add_zero, neg_mul]
  · refine fields_of_orderKey_eq hf' (by omega) ?_
    rw [hkey, orderKey, Nat.cast_sub hf.le]
    ring

/-- Settles O51: rounding the exact integer sum at a bit is rounding the number. -/
theorem addRoundsTheExactSumOnce : Obligations.AddRoundsTheExactSumOnce :=
  fun _ _ es _ _ hn hW hx hy hxy => addGen_eq_roundExact hn hW es hx hy hxy

end Sys2Proof
end

section
/-! The predicates and comparisons as requests: on legal operands they answer the flag the rules compute (R170 to R179),
and a stray low bit of an operand is refused (R55 (a)). -/

namespace Sys2Proof.Machine

open Sys2Proof.Safety

variable {f : Fmt} {s : State}

theorem unaryFlag_answers (test : Nat → Posit → Bool) (h : FmtLegal s.cfg f) (x : Posit) {b : Bool}
    (hb : test f.nbits x = b) :
    unaryFlag test f (x.toValue s.cfg f.nbits) s = .next (s.answered (.ok (.ofFlag b))) :=
  hb ▸ unaryFlag_legal test ((paramsLegal_iff s.cfg f).2 h) x

theorem binaryFlag_answers (test : Nat → Posit → Posit → Bool) (h : FmtLegal s.cfg f) (x y : Posit) {b : Bool}
    (hb : test f.nbits x y = b) :
    binaryFlag test f (x.toValue s.cfg f.nbits) (y.toValue s.cfg f.nbits) s =
      .next (s.answered (.ok (.ofFlag b))) :=
  hb ▸ binaryFlag_legal test ((paramsLegal_iff s.cfg f).2 h) x y

theorem unaryFlag_stray (test : Nat → Posit → Bool) (h : FmtLegal s.cfg f) {x : Value} (hx : Stray s.cfg f.nbits x) :
    unaryFlag test f x s = .next (s.answered (.refused .illegalOperand)) := by
  rw [unaryFlag, (paramsLegal_iff s.cfg f).2 h, justified_eq_false hx, answer_illegalOperand]

theorem binaryFlag_stray (test : Nat → Posit → Posit → Bool) (h : FmtLegal s.cfg f) {x y : Value}
    (hxy : Stray s.cfg f.nbits x ∨ Stray s.cfg f.nbits y) :
    binaryFlag test f x y s = .next (s.answered (.refused .illegalOperand)) := by
  have hfalse : (justified s.cfg f.nbits x && justified s.cfg f.nbits y) = false :=
    Bool.and_eq_false_iff.2 (hxy.imp justified_eq_false justified_eq_false)
  rw [binaryFlag, (paramsLegal_iff s.cfg f).2 h, hfalse, answer_illegalOperand]

end Sys2Proof.Machine
end

section
/-! EQ and GT on views and on words. The shift of LJ keeps equality and order, so the packed words compare as their
views do (R175, R176). -/

namespace Sys2Proof.Machine

/-! ## The order of left-justified words -/

theorem lj_inj (c : Config) (n : Nat) {u v : Nat} : lj c n u = lj c n v ↔ u = v :=
  Nat.mul_left_inj (Nat.two_pow_pos _).ne'

theorem lj_lt_lj_iff (c : Config) (n : Nat) {u v : Nat} : lj c n u < lj c n v ↔ u < v :=
  Nat.mul_lt_mul_right (Nat.two_pow_pos _)

theorem lj_infView {c : Config} {n : Nat} (hn : 1 ≤ n) (hW : n ≤ c.W) : lj c n (infView n) = 2 ^ (c.W - 1) := by
  rw [lj, infView, ← pow_add]
  congr 1
  omega

/-! ## The flags -/

@[simp] theorem eqFlag_view (x y : Nat) : eqFlag (.view x) (.view y) = decide (x = y) := rfl

@[simp] theorem eqFlag_nan_left (y : Posit) : eqFlag .nan y = false := rfl

@[simp] theorem eqFlag_nan_right (x : Posit) : eqFlag x .nan = false := by cases x <;> rfl

theorem gtFlag_view (n x y : Nat) :
    gtFlag n (.view x) (.view y) = decide (x ≠ infView n ∧ y ≠ infView n ∧ y < x) := by
  rw [gtFlag]
  split
  · next h => exact (decide_eq_false (by tauto)).symm
  · next h => exact decide_eq_decide.2 (by tauto)

@[simp] theorem gtFlag_nan_left (n : Nat) (y : Posit) : gtFlag n .nan y = false := rfl

@[simp] theorem gtFlag_nan_right (n : Nat) (x : Posit) : gtFlag n x .nan = false := by cases x <;> rfl

@[simp] theorem gtFlag_inf_left (n : Nat) (y : Posit) : gtFlag n (.view (infView n)) y = false := by
  cases y with
  | nan => rfl
  | view v => simp [gtFlag_view]

@[simp] theorem gtFlag_inf_right (n : Nat) (x : Posit) : gtFlag n x (.view (infView n)) = false := by
  cases x with
  | nan => rfl
  | view v => simp [gtFlag_view]

/-! ## The classes of operands (R181) -/

/-- An operand that no other is above or below: a NaN or the infinity. -/
def Unordered (n : Nat) (x : Posit) : Prop := x = .nan ∨ x = .view (infView n)

theorem not_unordered_iff {n : Nat} {x : Posit} : ¬ Unordered n x ↔ ∃ v, x = .view v ∧ v ≠ infView n := by
  cases x <;> simp [Unordered]

theorem gtFlag_of_unordered {n : Nat} {x y : Posit} (h : Unordered n x ∨ Unordered n y) : gtFlag n x y = false := by
  rcases h with (rfl | rfl) | (rfl | rfl)
  · exact gtFlag_nan_left n y
  · exact gtFlag_inf_left n y
  · exact gtFlag_nan_right n x
  · exact gtFlag_inf_right n x

theorem eqFlag_of_unordered {n : Nat} {x y : Posit} (h : Unordered n x ∨ Unordered n y) :
    eqFlag x y = true ↔ x = .view (infView n) ∧ y = .view (infView n) := by
  cases x with
  | nan => simp
  | view u =>
    cases y with
    | nan => simp
    | view v =>
      simp only [Unordered, reduceCtorEq, false_or, Posit.view.injEq] at h
      simp only [eqFlag_view, decide_eq_true_eq, Posit.view.injEq]
      omega

theorem gtFlag_of_ne_inf {n x y : Nat} (hx : x ≠ infView n) (hy : y ≠ infView n) :
    gtFlag n (.view x) (.view y) = decide (y < x) := by
  simp [gtFlag_view, hx, hy]

end Sys2Proof.Machine
end

section
/-! The obligations on the predicates and comparisons (44_predicates_comparisons.md). -/

namespace Sys2Proof

open Sys2Proof.Machine Sys2Proof.Safety

/-- Settles O58: an unordered operand makes GT and LT false; the views of the others are ordered as integers. -/
theorem comparisonClasses : Obligations.ComparisonClasses := by
  intro s f x y hf _ _
  refine ⟨_, _, _, _, _, binaryFlag_answers (fun _ => eqFlag) hf x y rfl, binaryFlag_answers gtFlag hf x y rfl,
    binaryFlag_answers geFlag hf x y rfl, binaryFlag_answers ltFlag hf x y rfl,
    binaryFlag_answers leFlag hf x y rfl, ?_⟩
  simp only [geFlag, ltFlag, leFlag]
  split
  · next hspecial =>
    have h : Unordered f.nbits x ∨ Unordered f.nbits y := by unfold Unordered infView; tauto
    rw [gtFlag_of_unordered h, gtFlag_of_unordered h.symm, Bool.false_or]
    exact ⟨rfl, rfl, rfl, rfl, eqFlag_of_unordered h⟩
  · next hordinary =>
    obtain ⟨u, rfl, hu⟩ := not_unordered_iff.1 (show ¬ Unordered f.nbits x by unfold Unordered infView; tauto)
    obtain ⟨v, rfl, hv⟩ := not_unordered_iff.1 (show ¬ Unordered f.nbits y by unfold Unordered infView; tauto)
    rw [gtFlag_of_ne_inf hu hv, gtFlag_of_ne_inf hv hu, eqFlag_view]
    rcases lt_trichotomy u v with h | rfl | h
    · simp [h, h.ne, h.not_gt]
    · simp
    · simp [h, h.ne', h.not_gt]

/-- Settles O55, by the test of each predicate on a view and on a NaN. -/
theorem predicateFlags : Obligations.PredicateFlags := fun _ _ hf =>
  ⟨fun v _ => ⟨unaryFlag_answers (fun _ => isZeroFlag) hf (.view v) rfl, unaryFlag_answers isOneFlag hf (.view v) rfl,
      unaryFlag_answers isInfFlag hf (.view v) rfl, unaryFlag_answers isNegFlag hf (.view v) rfl,
      unaryFlag_answers (fun _ => isNanFlag) hf (.view v) rfl⟩,
    unaryFlag_answers (fun _ => isZeroFlag) hf .nan rfl, unaryFlag_answers isOneFlag hf .nan rfl,
    unaryFlag_answers isInfFlag hf .nan rfl, unaryFlag_answers isNegFlag hf .nan rfl,
    unaryFlag_answers (fun _ => isNanFlag) hf .nan rfl,
    fun _ hx => ⟨unaryFlag_stray (fun _ => isZeroFlag) hf hx, unaryFlag_stray isOneFlag hf hx,
      unaryFlag_stray isInfFlag hf hx, unaryFlag_stray isNegFlag hf hx, unaryFlag_stray (fun _ => isNanFlag) hf hx⟩⟩

/-- Settles O56: left-justified words are the packed forms of their views, which compare alike. -/
theorem equalsAndGreaterThan : Obligations.EqualsAndGreaterThan := by
  intro s f hf
  have ⟨hn, hW, _⟩ := hf
  refine ⟨fun x y _ _ hx hy => ?_, fun x hx => ?_,
    fun x y hxy => ⟨binaryFlag_stray (fun _ => eqFlag) hf hxy, binaryFlag_stray gtFlag hf hxy⟩⟩
  · rw [← lj_view hx, ← lj_view hy, ← lj_infView (by omega) hW]
    simp only [ne_eq, lj_inj, lj_lt_lj_iff]
    exact ⟨binaryFlag_answers (fun _ => eqFlag) hf (.view _) (.view _) (eqFlag_view _ _),
      binaryFlag_answers gtFlag hf (.view _) (.view _) (gtFlag_view _ _ _)⟩
  · rw [← toValue_ofValue hx]
    exact ⟨binaryFlag_answers (fun _ => eqFlag) hf _ .nan (eqFlag_nan_right _),
      binaryFlag_answers (fun _ => eqFlag) hf .nan _ (eqFlag_nan_left _),
      binaryFlag_answers gtFlag hf _ .nan (gtFlag_nan_right _ _),
      binaryFlag_answers gtFlag hf .nan _ (gtFlag_nan_left _ _)⟩

/-- Settles O57: GE, LT and LE are defined as these combinations. -/
theorem derivedComparisons : Obligations.DerivedComparisons :=
  ⟨fun _ _ x y hf _ _ => ⟨_, _, _, binaryFlag_answers (fun _ => eqFlag) hf x y rfl,
      binaryFlag_answers gtFlag hf x y rfl, binaryFlag_answers gtFlag hf y x rfl, binaryFlag_answers geFlag hf x y rfl,
      binaryFlag_answers ltFlag hf x y rfl, binaryFlag_answers leFlag hf x y rfl⟩,
    fun _ _ _ _ hf hxy => ⟨binaryFlag_stray geFlag hf hxy, binaryFlag_stray ltFlag hf hxy,
      binaryFlag_stray leFlag hf hxy⟩⟩

end Sys2Proof
end

section
/-! Construction and extraction as requests. CONE and CINF write powers of two that do not depend on `nbits` (R191,
R192); SETBITS and GETBITS are LJ and V between the raw port and a packed word (R194, R195). -/

namespace Sys2Proof.Machine

open Sys2Proof.Safety

variable {f : Fmt} {s : State}

@[simp] theorem lj_zeroView (c : Config) (n : Nat) : lj c n zeroView = 0 := Nat.zero_mul _

theorem lj_oneView {c : Config} {n : Nat} (hn : 2 ≤ n) (hW : n ≤ c.W) : lj c n (oneView n) = 2 ^ (c.W - 2) := by
  rw [lj, oneView, ← pow_add]
  congr 1
  omega

theorem construct_answers (v : Nat → Nat) (h : FmtLegal s.cfg f) {b : Nat} (hb : lj s.cfg f.nbits (v f.nbits) = b) :
    construct v f s = .next (s.answered (.ok (.ofValue (.finite b)))) :=
  hb ▸ construct_legal v ((paramsLegal_iff s.cfg f).2 h)

theorem exec_cNan (h : FmtLegal s.cfg f) : exec (.cNan f) s = .next (s.answered (.ok (.ofValue .nan))) := by
  rw [exec, execCNan, (paramsLegal_iff s.cfg f).2 h, answer_legal]

theorem exec_setBits (h : FmtLegal s.cfg f) {raw : Nat} (hraw : raw < 2 ^ f.nbits) :
    exec (.setBits f raw) s = .next (s.answered (.ok (.ofValue (packed s.cfg f.nbits raw)))) := by
  rw [exec, execSetBits, (paramsLegal_iff s.cfg f).2 h, rawIsView, decide_eq_true hraw, answer_legal, packed]

theorem exec_setBits_of_le (h : FmtLegal s.cfg f) {raw : Nat} (hraw : 2 ^ f.nbits ≤ raw) :
    exec (.setBits f raw) s = .next (s.answered (.refused .illegalOperand)) := by
  rw [exec, execSetBits, (paramsLegal_iff s.cfg f).2 h, rawIsView, decide_eq_false hraw.not_gt, answer_illegalOperand]

theorem exec_getBits_packed (h : FmtLegal s.cfg f) (v : Nat) :
    exec (.getBits f (packed s.cfg f.nbits v)) s = .next (s.answered (.ok (.ofNat v))) :=
  answer_packed h v .ofNat

theorem exec_getBits_unreadable (h : FmtLegal s.cfg f) {x : Value} (hx : x = .nan ∨ Stray s.cfg f.nbits x) :
    exec (.getBits f x) s = .next (s.answered (.refused .illegalOperand)) :=
  answer_unreadable h hx _

theorem packed_view {c : Config} {n b : Nat} (hb : b % 2 ^ (c.W - n) = 0) : packed c n (view c n b) = .finite b :=
  congrArg Value.finite (lj_view hb)

end Sys2Proof.Machine
end

section
/-! The obligations on construction and extraction (45_construction_extraction.md). -/

namespace Sys2Proof

open Sys2Proof.Machine Sys2Proof.Safety

/-- Settles O59, by left-justifying each sentinel's view. -/
theorem constructorWords : Obligations.ConstructorWords := by
  intro s f hf
  have ⟨hn, hW, _⟩ := hf
  exact ⟨construct_answers (fun _ => zeroView) hf (lj_zeroView _ _), construct_answers oneView hf (lj_oneView hn hW),
    construct_answers infView hf (lj_infView (by omega) hW), exec_cNan hf⟩

/-- Settles O60: a left-justified word is the packed form of its view, which SETBITS writes and GETBITS reads back. -/
theorem setBitsAndGetBits : Obligations.SetBitsAndGetBits := by
  intro s f hf
  have ⟨_, hW, _⟩ := hf
  refine ⟨fun raw hraw => ⟨exec_setBits hf hraw, exec_getBits_packed hf raw⟩, fun raw => exec_setBits_of_le hf,
    exec_getBits_unreadable hf (.inl rfl), fun b hb => exec_getBits_unreadable hf (.inr hb), fun b hb hlow => ?_⟩
  rw [← packed_view hlow]
  exact ⟨view s.cfg f.nbits b, exec_getBits_packed hf _, exec_setBits hf (view_lt hW hb)⟩

end Sys2Proof
end

section
/-! Which results are NaN (R208). An operation that writes a value answers the packed form of what its rule computes
from its operands' views, and that is a NaN just when the rule says so: for a NaN operand, and on the pairs of sentinels
that MUL, DIV, ADD and SUB have no number for. -/

namespace Sys2Proof.Machine

open Sys2Proof.Safety

variable {c : Config} {n : Nat}

/-! ## The sentinels as words -/

@[simp] theorem toValue_eq_nan_iff {x : Posit} : x.toValue c n = .nan ↔ x = .nan := by
  cases x <;> simp [Posit.toValue]

theorem toValue_eq_zero_iff {x : Posit} : x.toValue c n = .finite 0 ↔ x = .view zeroView := by
  cases x with
  | nan => simp [Posit.toValue]
  | view v => rw [Posit.toValue, Value.finite.injEq, Posit.view.injEq, ← lj_zeroView c n, lj_inj]

theorem toValue_eq_inf_iff {x : Posit} (hn : 2 ≤ n) (hW : n ≤ c.W) :
    x.toValue c n = .finite (2 ^ (c.W - 1)) ↔ x = .view (infView n) := by
  cases x with
  | nan => simp [Posit.toValue]
  | view v => rw [Posit.toValue, Value.finite.injEq, Posit.view.injEq, ← lj_infView (by omega) hW, lj_inj]

/-! ## NEG and REC -/

theorem negPosit_eq_nan_iff {x : Posit} : negPosit n x = .nan ↔ x = .nan := by cases x <;> simp [negPosit]

theorem recPosit_eq_nan_iff {x : Posit} : recPosit n x = .nan ↔ x = .nan := by cases x <;> simp [recPosit]

theorem negPosit_eq_inf_iff {x : Posit} (hn : 1 ≤ n) (hx : OnViews n x) :
    negPosit n x = .view (infView n) ↔ x = .view (infView n) := by
  refine ⟨fun h => ?_, fun h => ?_⟩
  · rw [← negPosit_negPosit hx, h, negPosit, negView_infView hn]
  · rw [h, negPosit, negView_infView hn]

theorem recPosit_eq_inf_iff {x : Posit} (hn : 1 ≤ n) (hx : OnViews n x) :
    recPosit n x = .view (infView n) ↔ x = .view zeroView := by
  refine ⟨fun h => ?_, fun h => ?_⟩
  · rw [← recPosit_recPosit hn hx, h, recPosit, recView_infView]
  · rw [h, recPosit, recView_zeroView]

theorem recPosit_eq_zero_iff {x : Posit} (hn : 1 ≤ n) (hx : OnViews n x) :
    recPosit n x = .view zeroView ↔ x = .view (infView n) := by
  refine ⟨fun h => ?_, fun h => ?_⟩
  · rw [← recPosit_recPosit hn hx, h, recPosit, recView_zeroView]
  · rw [h, recPosit, recView_infView]

/-! ## MUL, DIV, ADD, SUB -/

theorem mulView_eq_nan_iff (c : Config) (n es x y : Nat) :
    mulView c n es x y = .nan ↔ (x = zeroView ∧ y = infView n) ∨ (x = infView n ∧ y = zeroView) := by
  rcases eq_or_ne x zeroView with rfl | hx
  · simp [mulView_zeroView_left, zeroView_ne_infView]
  rcases eq_or_ne y zeroView with rfl | hy
  · simp [mulView_zeroView_right, hx]
  · simp [mulView, hx, hy, ← apply_ite Posit.view]

theorem addView_eq_nan_iff (c : Config) (n es x y : Nat) :
    addView c n es x y = .nan ↔ x = infView n ∧ y = infView n := by
  rcases eq_or_ne x zeroView with rfl | hx
  · simp [addView_zeroView_left, zeroView_ne_infView]
  rcases eq_or_ne y zeroView with rfl | hy
  · simp [addView_zeroView_right, zeroView_ne_infView]
  · simp [addView, hx, hy, ← apply_ite Posit.view]

theorem mulPosit_eq_nan_iff (c : Config) (n es : Nat) (x y : Posit) :
    mulPosit c n es x y = .nan ↔ x = .nan ∨ y = .nan ∨ (x = .view zeroView ∧ y = .view (infView n)) ∨
      (x = .view (infView n) ∧ y = .view zeroView) := by
  cases x <;> cases y
  case view.view x y => simp [mulPosit, mulView_eq_nan_iff]
  all_goals simp [mulPosit]

theorem addPosit_eq_nan_iff (c : Config) (n es : Nat) (x y : Posit) :
    addPosit c n es x y = .nan ↔ x = .nan ∨ y = .nan ∨ (x = .view (infView n) ∧ y = .view (infView n)) := by
  cases x <;> cases y
  case view.view x y => simp [addPosit, addView_eq_nan_iff]
  all_goals simp [addPosit]

theorem divPosit_eq_nan_iff (c : Config) (es : Nat) (x : Posit) {y : Posit} (hn : 2 ≤ n) (hy : OnViews n y) :
    divPosit c n es x y = .nan ↔ x = .nan ∨ y = .nan ∨ (x = .view zeroView ∧ y = .view zeroView) ∨
      (x = .view (infView n) ∧ y = .view (infView n)) := by
  rw [divPosit, mulPosit_eq_nan_iff, recPosit_eq_nan_iff, recPosit_eq_inf_iff (by omega) hy,
    recPosit_eq_zero_iff (by omega) hy]

theorem subPosit_eq_nan_iff (c : Config) (es : Nat) (x : Posit) {y : Posit} (hn : 2 ≤ n) (hy : OnViews n y) :
    subPosit c n es x y = .nan ↔ x = .nan ∨ y = .nan ∨ (x = .view (infView n) ∧ y = .view (infView n)) := by
  rw [subPosit, addPosit_eq_nan_iff, negPosit_eq_nan_iff, negPosit_eq_inf_iff (by omega) hy]

/-! ## FROMIEEE -/

theorem fromIeee_eq_nan_iff {w : IeeeFmt} (hew : 1 ≤ w.ew) (c : Config) (n es raw : Nat) :
    fromIeee c w n es raw = .nan ↔ ieeeExp w raw = w.ones ∧ ieeeFrac w raw ≠ 0 := by
  have hones := (ones_pos hew).ne'
  by_cases hexp : ieeeExp w raw = w.ones
  · simp [fromIeee, hexp, hones]
  · simp [fromIeee, hexp, ← apply_ite Posit.view]

/-- The list of rule R208 names the fields of the two IEEE formats by their bits. -/
theorem resultIsNan_fromF32 (c : Config) (f : Fmt) (raw : Nat) :
    resultIsNan c (.fromF32 f raw) = true ↔ ieeeExp single raw = single.ones ∧ ieeeFrac single raw ≠ 0 := by
  simp [resultIsNan, ieeeExp, ieeeFrac, slice, IeeeFmt.ones, single]

theorem resultIsNan_fromF64 (c : Config) (f : Fmt) (raw : Nat) :
    resultIsNan c (.fromF64 f raw) = true ↔ ieeeExp double raw = double.ones ∧ ieeeFrac double raw ≠ 0 := by
  simp [resultIsNan, ieeeExp, ieeeFrac, slice, IeeeFmt.ones, double]

/-! ## The shapes of the families -/

variable {f : Fmt} {s : State} {p : Reply}

/-- An answered one-operand operation read the packed form of a NaN or a view, and answers its rule's value. -/
theorem unaryValue_ok_cases {op : Nat → Posit → Posit} {x : Value}
    (h : unaryValue op f x s = .next (s.answered (.ok p))) :
    ∃ u : Posit, x = u.toValue s.cfg f.nbits ∧ p.r = (op f.nbits u).toValue s.cfg f.nbits := by
  obtain ⟨_, hx, rfl⟩ := (answer_ok_iff _ _ _ p s).1 h
  exact ⟨_, (toValue_ofValue hx).symm, rfl⟩

/-- An answered two-operand operation read the packed forms of NaNs or views, and answers its rule's value. -/
theorem binaryValue_ok_cases {op : Config → Nat → Nat → Posit → Posit → Posit} {x y : Value}
    (hwf : (f.wellFormed && x.wellFormed s.cfg && y.wellFormed s.cfg) = true)
    (h : binaryValue op f x y s = .next (s.answered (.ok p))) :
    FmtLegal s.cfg f ∧ ∃ u v : Posit, OnViews f.nbits v ∧ x = u.toValue s.cfg f.nbits ∧
      y = v.toValue s.cfg f.nbits ∧ p.r = (op s.cfg f.nbits f.es u v).toValue s.cfg f.nbits := by
  obtain ⟨hparams, hxy, rfl⟩ := (answer_ok_iff _ _ _ p s).1 h
  have hf : FmtLegal s.cfg f := (paramsLegal_iff _ f).1 hparams
  have ⟨_, hW, _⟩ := hf
  obtain ⟨hx, hy⟩ := Bool.and_eq_true_iff.1 hxy
  obtain ⟨_, hyw⟩ := Bool.and_eq_true_iff.1 hwf
  exact ⟨hf, _, _, onViews_ofValue hW hyw, (toValue_ofValue hx).symm, (toValue_ofValue hy).symm, rfl⟩

/-- An answer that holds a word is not a NaN. -/
theorem r_ne_nan_of_answer {a b : Bool} {p' : Reply} (h : answer a b p' s = .next (s.answered (.ok p))) {k : Nat}
    (hk : p'.r = .finite k) : p.r ≠ .nan := by
  obtain ⟨_, _, rfl⟩ := (answer_ok_iff _ _ p' p s).1 h
  simp [hk]

end Sys2Proof.Machine
end

section
/-! The obligations on refusals and exceptional results (60_exceptions.md). -/

namespace Sys2Proof

open Sys2Proof.Machine Sys2Proof.Safety

/-- Settles O13: every operation makes rule R202's checks, in the order of rule R203, and does nothing else. -/
theorem refusalsAreExactlyTheListed : Obligations.RefusalsAreExactlyTheListed := by
  intro i s
  obtain ⟨p, hexec, _⟩ := exec_eq_answer i s
  rw [hexec, refusalOf]
  cases formatLegal s.cfg i with
  | false => simp
  | true =>
    cases operandsLegal s.cfg i with
    | false => simp
    | true => exact ⟨fun _ hcode => (nomatch hcode), fun _ => ⟨p, rfl⟩⟩

/-- Settles O17, operation by operation: the rule of each says when its value is a NaN. -/
theorem nanResultsAreExactlyTheListed : Obligations.NanResultsAreExactlyTheListed := by
  intro i s p _ hwf h
  cases i with
  | ssw | rsw | esw | fsw | useed | getBits | toF32 | toF64 | unpack | isZero | isOne | isInf | isNeg | isNan
  | eq | gt | ge | lt | le | pack | setBits | cZero | cOne | cInf =>
    exact iff_of_false (r_ne_nan_of_answer h rfl) Bool.false_ne_true
  | cNan f =>
    obtain ⟨_, _, rfl⟩ := (answer_ok_iff _ _ _ p s).1 h
    exact iff_of_true rfl rfl
  | fromF32 f raw =>
    obtain ⟨_, _, rfl⟩ := (answer_ok_iff _ _ _ p s).1 h
    rw [Reply.ofValue_r, toValue_eq_nan_iff, fromIeee_eq_nan_iff (by decide), resultIsNan_fromF32]
  | fromF64 f raw =>
    obtain ⟨_, _, rfl⟩ := (answer_ok_iff _ _ _ p s).1 h
    rw [Reply.ofValue_r, toValue_eq_nan_iff, fromIeee_eq_nan_iff (by decide), resultIsNan_fromF64]
  | neg f x =>
    obtain ⟨u, rfl, hr⟩ := unaryValue_ok_cases h
    simp [hr, resultIsNan, negPosit_eq_nan_iff]
  | recip f x =>
    obtain ⟨u, rfl, hr⟩ := unaryValue_ok_cases h
    simp [hr, resultIsNan, recPosit_eq_nan_iff]
  | mul f x y =>
    obtain ⟨⟨hn, hW, _⟩, u, v, _, rfl, rfl, hr⟩ := binaryValue_ok_cases hwf h
    simp [hr, resultIsNan, mulPosit_eq_nan_iff, toValue_eq_zero_iff, toValue_eq_inf_iff hn hW, or_assoc]
  | div f x y =>
    obtain ⟨⟨hn, hW, _⟩, u, v, hv, rfl, rfl, hr⟩ := binaryValue_ok_cases hwf h
    simp [hr, resultIsNan, divPosit_eq_nan_iff _ _ _ hn hv, toValue_eq_zero_iff, toValue_eq_inf_iff hn hW, or_assoc]
  | add f x y =>
    obtain ⟨⟨hn, hW, _⟩, u, v, _, rfl, rfl, hr⟩ := binaryValue_ok_cases hwf h
    simp [hr, resultIsNan, addPosit_eq_nan_iff, toValue_eq_inf_iff hn hW, or_assoc]
  | sub f x y =>
    obtain ⟨⟨hn, hW, _⟩, u, v, hv, rfl, rfl, hr⟩ := binaryValue_ok_cases hwf h
    simp [hr, resultIsNan, subPosit_eq_nan_iff _ _ _ hn hv, toValue_eq_inf_iff hn hW, or_assoc]

end Sys2Proof
end

section
/-! The configuration parameters are constants of the instance: an operation and a step change the two ports alone
(R220). -/

namespace Sys2Proof.Machine

theorem exec_keeps_cfg {i : Instr} {s t : State} (h : exec i s = .next t) : t.cfg = s.cfg := by
  obtain ⟨r, rfl⟩ := exec_cases h
  exact s.answered_cfg r

theorem step_keeps_cfg {s t : State} (h : step s = .next t) : t.cfg = s.cfg := by
  obtain ⟨_, rfl⟩ | ⟨_, _, _, _, hexec⟩ | ⟨_, _, _, _, rfl⟩ := step_cases h
  · rfl
  · exact exec_keeps_cfg hexec
  · exact s.answered_cfg _

end Sys2Proof.Machine
end

section
/-! The obligation on reset (70_reset_and_hazards.md). -/

namespace Sys2Proof

open Sys2Proof.Machine

/-- Settles O12: reset empties both ports and touches nothing else; an operation and a step write only the ports. -/
theorem resetIsIdleAndKeepsParameters : Obligations.ResetIsIdleAndKeepsParameters :=
  ⟨fun s => ⟨State.resetOf_request s.cfg, State.resetOf_response s.cfg, State.resetOf_cfg s.cfg⟩,
    State.resetOf_request Config.default, State.resetOf_response Config.default,
    fun _ _ _ => exec_keeps_cfg, fun _ _ => step_keeps_cfg⟩

end Sys2Proof
end
